-- ==== Sys2Proof/Word.lean ====
section
/-! DEFINITION. Bytes, words and byte strings (00_scope.md R11, R12). -/

namespace Sys2Proof

/-- A byte (R11). -/
abbrev Byte := BitVec 8

/-- A 32-bit word of SHA-256 (R171) or of the AES key schedule (R213). -/
abbrev Word32 := BitVec 32

/-- A 16-byte block held as a 128-bit integer, byte 0 most significant (R218). -/
abbrev Block := BitVec 128

/-- A byte string: index 0 is the first byte (R11). -/
abbrev ByteString := List Byte

/-- A byte string of exactly `n` bytes: the width of a register or of a fixed operand (R91, R130). -/
abbrev Bytes (n : Nat) := { b : ByteString // b.length = n }

/-- `00^n`: `n` zero bytes. -/
def Bytes.zero (n : Nat) : Bytes n := ⟨List.replicate n 0, List.length_replicate⟩

/-- The `n` bytes `f 0, …, f (n - 1)`. -/
def Bytes.ofFn (n : Nat) (f : Nat → Byte) : Bytes n := ⟨(List.range n).map f, by simp⟩

/-- Byte-wise exclusive or of two strings of the same length. -/
def Bytes.xor {n : Nat} (a b : Bytes n) : Bytes n :=
  ⟨List.zipWith (· ^^^ ·) a.1 b.1, by simp [a.2, b.2]⟩

end Sys2Proof
end

