-- ==== Sys2Proof/Config.lean ====
section
/-! DEFINITION. What an implementation fixes: the wired constants (00_scope.md R7), the open parameters (R8), the working-state records of
the default algorithms (R38), and the free answers of the random source (R65). -/

namespace Sys2Proof

/-! ## Constants the source fixes (R7) -/

/-- `SALT_LEN` (R7). -/
abbrev saltLen : Nat := 16
/-- `NONCE_LEN` (R7). -/
abbrev nonceLen : Nat := 12
/-- `KEY_LEN` (R7). -/
abbrev keyLen : Nat := 32
/-- `TAG_LEN` (R7). -/
abbrev tagLen : Nat := 16
/-- `KDF_ITERATIONS`: the hard-coded work factor (R7, R36). -/
def kdfIterations : Nat := 100000
/-- `AAD`: always the empty string (R7). -/
def aad : ByteString := []
/-- `HEADER_LEN = SALT_LEN + NONCE_LEN` (R7). -/
abbrev headerLen : Nat := 28
/-- `OVERHEAD = SALT_LEN + NONCE_LEN + TAG_LEN` (R7). -/
abbrev overhead : Nat := 44
/-- `MIN_CONTAINER_LEN`: 44, not 45 (R7, R143; 90_conflicts.md C1). -/
abbrev minContainerLen : Nat := 44

/-! ## Working state of the default algorithms (R38)

R38 gives the working state of the default algorithms only. The model gives the records below to any other `KDF_ALG` and `AEAD_ALG` too (DESIGN
CHOICE, entry 28). -/

/-- Eight words: a SHA-256 hash value `H[0..7]`, or the variables `a … h` of a compression (R174, R176). -/
structure Hash where
  a : Word32
  b : Word32
  c : Word32
  d : Word32
  e : Word32
  f : Word32
  g : Word32
  h : Word32
  deriving DecidableEq, Repr

/-- The variables of one SHA-256 compression (R176): the hash value it leaves, the schedule `W[0..63]` and the final `a … h`. Which of R176's names are
"the SHA-256 variables" of R184 is not listed there: that these are, and that `T1`, `T2`, the index `t` and the block `B` are not, is a DESIGN CHOICE
(entry 32, safe). -/
structure ShaVars where
  hash : Hash
  w    : List Word32
  vars : Hash
  deriving DecidableEq, Repr

/-- Working state of the default `DERIVE` (R184; which SHA-256 variables: entry 32), and the shape of any other `KDF_ALG`'s (DESIGN CHOICE, entry 28). -/
structure KdfWork where
  ipad : Bytes 64
  opad : Bytes 64
  j    : Nat
  u    : Bytes 32
  t    : Bytes 32
  sha  : ShaVars
  deriving DecidableEq, Repr

/-- Working state of the default `SEAL` and `OPEN` (R228), and the shape of any other `AEAD_ALG`'s (DESIGN CHOICE, entry 28); the staged plaintext has
a field of its own in the engine. -/
structure AeadWork where
  /-- the key schedule `w[0..59]` -/
  w    : List Word32
  /-- the hash subkey `H` -/
  h    : Block
  j0   : Block
  /-- the running counter block -/
  cb   : Block
  /-- the GHASH accumulator `Y` -/
  y    : Block
  /-- the encrypted pre-counter block `E_K(J0)` -/
  ekj0 : Block
  deriving DecidableEq, Repr

/-! ## Open parameters (R8) -/

/-- `EMPTY_PASSPHRASE_POLICY` (R8, R105). -/
inductive Policy where
  | reject
  | accept
  deriving DecidableEq, Repr

/-- The open parameters of R8 that the engine or its host side uses, less the random source (which is an input, `State.rng`).
`openTag` is the tag that `Open` recomputes over the received ciphertext (R122); the two working-state functions give what hidden
working state an operation leaves until it is emptied (R38); their shape is the default algorithms' whatever the algorithm (DESIGN CHOICE, entry 28).
The fixed lengths of R91, R124 and R130 are part of the types. -/
structure Config where
  /-- `KDF_ALG` -/
  kdf : ByteString → Bytes 16 → Bytes 32
  kdfWork : ByteString → Bytes 16 → KdfWork
  /-- `Seal` of `AEAD_ALG`: the SealOutput, 16 bytes longer than the plaintext (R124) -/
  sealFn : Bytes 32 → Bytes 12 → (m : ByteString) → Bytes (m.length + 16)
  sealWork : Bytes 32 → Bytes 12 → ByteString → AeadWork
  /-- `Open` of `AEAD_ALG`: `none` is `AuthFailure`; a plaintext is 16 bytes shorter than the SealOutput (R124) -/
  openFn : Bytes 32 → Bytes 12 → (x : ByteString) → Option (Bytes (x.length - 16))
  openTag : Bytes 32 → Bytes 12 → ByteString → Bytes 16
  openWork : Bytes 32 → Bytes 12 → ByteString → AeadWork
  /-- `TEXT_ENCODING`, of a sequence of Unicode scalar values (R67, D21); applied on the host side of the port (R51) -/
  textEncoding : List Char → ByteString
  emptyPassphrasePolicy : Policy
  maxPlaintextLen : Nat
  maxPassphraseLen : Nat
  /-- `N_ENGINES`: how many engine instances the block has (R42); the reset state has so many, and no step changes their number -/
  nEngines : Nat

/-- The round-trip law of `AEAD_ALG`: `Open` undoes `Seal` (R123). Of an abstract algorithm a model may assume this and what holds by the types, R124
(the lengths) and R126 (they are functions), and nothing else (R126). -/
def Config.RoundTripLaw (c : Config) : Prop :=
  ∀ (k : Bytes 32) (n : Bytes 12) (m : ByteString), (c.openFn k n (c.sealFn k n m).1).map Subtype.val = some m

/-- What the rules say of the parameters, stated of the defaults and assumed of no others (R8, R123, R122, R67; entry 26): `Open` undoes `Seal`; `Open`
succeeds exactly when the recomputed tag is the received one, the last 16 bytes; the text encoding is injective; there is at least one engine. -/
structure Config.Lawful (c : Config) : Prop where
  open_seal : c.RoundTripLaw
  open_iff_tag : ∀ (k : Bytes 32) (n : Bytes 12) (x : ByteString), 16 ≤ x.length →
    ((c.openFn k n x).isSome = true ↔ (c.openTag k n x).1 = x.drop (x.length - 16))
  encoding_injective : ∀ s t : List Char, c.textEncoding s = c.textEncoding t → s = t
  one_engine : 1 ≤ c.nEngines

/-- The answer of the secure random source to its request number `k`, a request for `n` bytes: A FREE VALUE. It has no body, so nothing
can be proved of it: it may be any bytes, of any length, or a failure (R65, R14; 93_implementation_defined.md I6, I7). Entry 4. -/
opaque Config.rngAnswer (k n : Nat) : Option ByteString

/-- Default `MAX_PLAINTEXT_LEN` = 2^36 - 32 (R8, R226). -/
def defaultMaxPlaintextLen : Nat := 68719476704
/-- Default `MAX_PASSPHRASE_LEN` = 2^61 - 1 (R8, R182). -/
def defaultMaxPassphraseLen : Nat := 2305843009213693951
/-- Default `N_ENGINES` (R8). -/
def defaultNEngines : Nat := 1

end Sys2Proof
end

