-- ==== Sys2Proof/Machine/Bytes.lean ====
section
/-! DEFINITION. Slices, big-endian numbers and the bytes of words and blocks (00_scope.md R11, R12; 44 R213, R218). -/

namespace Sys2Proof.Machine

/-- `b[i:j]` (R11). -/
def slice (b : ByteString) (i j : Nat) : ByteString := (b.drop i).take (j - i)

/-- The `k`-byte big-endian encoding of `n` (R12). -/
def beBytes (k n : Nat) : Bytes k := Bytes.ofFn k fun i => BitVec.ofNat 8 (n / 256 ^ (k - 1 - i))

/-- `be32(n)` (R12). -/
def be32 (n : Nat) : Bytes 4 := beBytes 4 n

/-- `be64(n)` (R12). -/
def be64 (n : Nat) : Bytes 8 := beBytes 8 n

/-- `int_be(b)` (R12). -/
def intBe (b : ByteString) : Nat := b.foldl (fun n x => n * 256 + x.toNat) 0

/-- Byte `i` of a 32-bit word, byte 0 most significant (R171, R213). -/
def wordByte (w : Word32) (i : Nat) : Byte := (w >>> (8 * (3 - i))).setWidth 8

/-- The word of four bytes, the first most significant (R171, R213). -/
def wordOf (b0 b1 b2 b3 : Byte) : Word32 := b0 ++ b1 ++ b2 ++ b3

/-- The word at byte offset `i` of a string (R171, R176). -/
def wordAt (b : ByteString) (i : Nat) : Word32 :=
  wordOf (b.getD i 0) (b.getD (i + 1) 0) (b.getD (i + 2) 0) (b.getD (i + 3) 0)

/-- Byte `i` of a block, byte 0 most significant (R218). -/
def blockByte (b : Block) (i : Nat) : Byte := (b >>> (8 * (15 - i))).setWidth 8

/-- The block whose bytes are the string's, the first most significant; a string of 16 bytes gives all of the block (R218). -/
def blockOf (b : ByteString) : Block := b.foldl (fun x y => x <<< 8 ||| y.setWidth 128) 0

/-- The 16 bytes of a block (R218). -/
def blockBytes (b : Block) : Bytes 16 := Bytes.ofFn 16 (blockByte b)

/-- The block with bytes `f 0, …, f 15`. -/
def blockOfFn (f : Nat → Byte) : Block := blockOf ((List.range 16).map f)

end Sys2Proof.Machine
end

