-- ==== Sys2Proof/Machine/Aes.lean ====
section
/-! DEFINITION. The AES-256 forward cipher (44_aead_reference_aes_gcm.md R211 to R217). A block is a 128-bit integer with byte 0 most
significant; byte `r + 4c` is the state's `s[r][c]` (R213). -/

namespace Sys2Proof.Machine

/-- Multiplication by `02` in GF(2^8) (R211). -/
def xtime (a : Byte) : Byte := if a.getLsbD 7 then (a <<< 1) ^^^ 0x1b#8 else a <<< 1

/-- `n` more bits of a product in GF(2^8), with the running product and the running multiple of the first factor (R211). -/
def gf8Loop : Nat → Byte → Byte → Byte → Byte
  | 0, _, _, z => z
  | n + 1, a, b, z => gf8Loop n (xtime a) (b >>> 1) (if b.getLsbD 0 then z ^^^ a else z)

/-- The product in GF(2^8) (R211). -/
def gf8Mul (a b : Byte) : Byte := gf8Loop 8 a b 0

/-- The S-box table, one row per high digit, column 0 most significant (R212). -/
def sboxRows : List Block :=
  [0x637c777bf26b6fc53001672bfed7ab76, 0xca82c97dfa5947f0add4a2af9ca472c0] ++
  [0xb7fd9326363ff7cc34a5e5f171d83115, 0x04c723c31896059a071280e2eb27b275] ++
  [0x09832c1a1b6e5aa0523bd6b329e32f84, 0x53d100ed20fcb15b6acbbe394a4c58cf] ++
  [0xd0efaafb434d338545f9027f503c9fa8, 0x51a3408f929d38f5bcb6da2110fff3d2] ++
  [0xcd0c13ec5f974417c4a77e3d645d1973, 0x60814fdc222a908846eeb814de5e0bdb] ++
  [0xe0323a0a4906245cc2d3ac629195e479, 0xe7c8376d8dd54ea96c56f4ea657aae08] ++
  [0xba78252e1ca6b4c6e8dd741f4bbd8b8a, 0x703eb5664803f60e613557b986c11d9e] ++
  [0xe1f8981169d98e949b1e87e9ce5528df, 0x8ca1890dbfe6426841992d0fb054bb16]

/-- `SBOX[a]` (R212). -/
def sbox (a : Byte) : Byte := blockByte (sboxRows.getD (a.toNat / 16) 0) (a.toNat % 16)

/-- `SubBytes` (R214). -/
def subBytes (s : Block) : Block := blockOfFn fun i => sbox (blockByte s i)

/-- `ShiftRows`: row `r` rotates left by `r` (R214). -/
def shiftRows (s : Block) : Block := blockOfFn fun i => blockByte s (i % 4 + 4 * ((i / 4 + i % 4) % 4))

/-- `MixColumns`: `s'[r][c] = (02 • a_r) ⊕ (03 • a_(r+1)) ⊕ a_(r+2) ⊕ a_(r+3)`, row indices modulo 4 (R215). -/
def mixColumns (s : Block) : Block := blockOfFn fun i =>
  let a := fun k => blockByte s (4 * (i / 4) + (i % 4 + k) % 4)
  xtime (a 0) ^^^ (xtime (a 1) ^^^ a 1) ^^^ a 2 ^^^ a 3

/-- `RotWord` (R216). -/
def rotWord (w : Word32) : Word32 := wordOf (wordByte w 1) (wordByte w 2) (wordByte w 3) (wordByte w 0)

/-- `SubWord` (R216). -/
def subWord (w : Word32) : Word32 :=
  wordOf (sbox (wordByte w 0)) (sbox (wordByte w 1)) (sbox (wordByte w 2)) (sbox (wordByte w 3))

/-- `Rcon[j]`, `x^(j-1)` in its first byte, `j ≥ 1` (R216). -/
def rcon (j : Nat) : Word32 := wordOf (xtime^[j - 1] 0x01#8) 0 0 0

/-- The word `w[i]` from the words before it, newest first (R216). -/
def nextKeyWord (i : Nat) (w : List Word32) : Word32 :=
  let t := w.getD 0 0
  w.getD 7 0 ^^^
    (if i % 8 = 0 then subWord (rotWord t) ^^^ rcon (i / 8) else if i % 8 = 4 then subWord t else t)

/-- `n` more words of the key schedule, newest first, from index `i` on (R216). -/
def expandKey : Nat → Nat → List Word32 → List Word32
  | 0, _, w => w
  | n + 1, i, w => expandKey n (i + 1) (nextKeyWord i w :: w)

/-- The key schedule `w[0..59]` of a 32-byte key (R216). -/
def keySchedule (k : Bytes 32) : List Word32 :=
  (expandKey 52 8 ((List.range 8).map fun i => wordAt k.1 (4 * i)).reverse).reverse

/-- The 16 bytes added in a round: word `4·round + c` meets column `c` (R216, R213). -/
def roundKey (w : List Word32) (round : Nat) : Block :=
  blockOfFn fun i => wordByte (w.getD (4 * round + i / 4) 0) (i % 4)

/-- Rounds `round`, …, `13` and then round 14, when `n = 14 - round` (R217). -/
def aesRounds (w : List Word32) : Nat → Nat → Block → Block
  | 0, round, s => shiftRows (subBytes s) ^^^ roundKey w round
  | n + 1, round, s => aesRounds w n (round + 1) (mixColumns (shiftRows (subBytes s)) ^^^ roundKey w round)

/-- The cipher under an expanded key (R217). -/
def aesWith (w : List Word32) (b : Block) : Block := aesRounds w 13 1 (b ^^^ roundKey w 0)

/-- `E_K(block)` (R217). -/
def aes (k : Bytes 32) (b : Block) : Block := aesWith (keySchedule k) b

end Sys2Proof.Machine
end

