-- ==== Sys2Proof/Machine/Gcm.lean ====
section
/-! DEFINITION. GCM, the default `AEAD_ALG` (44_aead_reference_aes_gcm.md R218 to R225, R228). -/

namespace Sys2Proof.Machine

/-- `inc32`: the last four bytes count modulo 2^32 (R219). -/
def inc32 (b : Block) : Block := (b.extractLsb' 32 96 ++ (b.extractLsb' 0 32 + 1) : BitVec (96 + 32))

/-- The constant `R` (R220). -/
def gcmR : Block := 0xe1000000000000000000000000000000

/-- The loop of the product, with `n` bits of `x` to go: bit `i` of the block is integer bit `127 - i` (R218, R220). -/
def gf128Loop (x : Block) : Nat → Block → Block → Block
  | 0, z, _ => z
  | n + 1, z, v =>
    gf128Loop x n (if x.getLsbD n then z ^^^ v else z) (if v.getLsbD 0 then (v >>> 1) ^^^ gcmR else v >>> 1)

/-- `X • Y` in GF(2^128) (R220). -/
def gf128Mul (x y : Block) : Block := gf128Loop x 128 0 y

/-- GHASH of the first `n` blocks of a string, from the accumulator `y` (R221). -/
def ghashFrom (h : Block) : Nat → ByteString → Block → Block
  | 0, _, y => y
  | n + 1, x, y => ghashFrom h n (x.drop 16) (gf128Mul (y ^^^ blockOf (x.take 16)) h)

/-- `GHASH_H(X)`, for a string whose length is a multiple of 16 (R221). -/
def ghash (h : Block) (x : ByteString) : Block := ghashFrom h (x.length / 16) x 0

/-- How many pieces of at most 16 bytes a string has (R222). -/
def nBlocks (x : ByteString) : Nat := (x.length + 15) / 16

/-- Counter mode over the first `n` pieces of a string from the counter block `cb` (R222): a partial last piece takes the leading bytes of
its key-stream block. -/
def gctrFrom (w : List Word32) : Nat → Block → ByteString → ByteString
  | 0, _, _ => []
  | n + 1, cb, x =>
    List.zipWith (· ^^^ ·) (x.take 16) (blockBytes (aesWith w cb)).1 ++ gctrFrom w n (inc32 cb) (x.drop 16)

/-- `GCTR_K(ICB, X)` under an expanded key (R222). -/
def gctr (w : List Word32) (icb : Block) (x : ByteString) : ByteString := gctrFrom w (nBlocks x) icb x

/-- The hash subkey `H = E_K(0)` (R223). -/
def gcmH (w : List Word32) : Block := aesWith w 0

/-- The pre-counter block `J0 = Nn ∥ 00 00 00 01` (R223). -/
def gcmJ0 (nonce : Bytes 12) : Block := blockOf (nonce.1 ++ (be32 1).1)

/-- `pad(Ct)`: zeros up to a multiple of 16 bytes (R223). -/
def gcmPad (ct : ByteString) : ByteString := ct ++ List.replicate ((16 - ct.length % 16) % 16) 0

/-- `S`: the hash of the padded ciphertext and the two bit lengths, the associated data empty (R223). -/
def gcmS (w : List Word32) (ct : ByteString) : Block :=
  ghash (gcmH w) (gcmPad ct ++ (be64 (8 * aad.length)).1 ++ (be64 (8 * ct.length)).1)

/-- `TagOf` under an expanded key, as a block (R223). -/
def gcmTagBlock (w : List Word32) (nonce : Bytes 12) (ct : ByteString) : Block :=
  aesWith w (gcmJ0 nonce) ^^^ gcmS w ct

/-- `TagOf(K, Nn, Ct)` (R223). -/
def gcmTag (k : Bytes 32) (nonce : Bytes 12) (ct : ByteString) : Bytes 16 :=
  blockBytes (gcmTagBlock (keySchedule k) nonce ct)

/-- The data part of the default cipher, the same both ways: `GCTR_K(inc32(J0), X)` (R224, R225). -/
def gcmCrypt (k : Bytes 32) (nonce : Bytes 12) (x : ByteString) : ByteString :=
  gctr (keySchedule k) (inc32 (gcmJ0 nonce)) x

theorem gctrFrom_length (w : List Word32) (n : Nat) (cb : Block) (x : ByteString) (h : x.length ≤ 16 * n) :
    (gctrFrom w n cb x).length = x.length := by
  induction n generalizing cb x with
  | zero => simp_all [gctrFrom]
  | succ n ih =>
    rw [gctrFrom, List.length_append, ih _ _ (by rw [List.length_drop]; omega), List.length_zipWith, List.length_take,
      List.length_drop, (blockBytes (aesWith w cb)).2]
    omega

theorem gctr_length (w : List Word32) (icb : Block) (x : ByteString) : (gctr w icb x).length = x.length :=
  gctrFrom_length w _ _ x (by unfold nBlocks; omega)

theorem gcmCrypt_length (k : Bytes 32) (nonce : Bytes 12) (x : ByteString) : (gcmCrypt k nonce x).length = x.length :=
  gctr_length _ _ x

/-- The default `Seal`: `Ct ∥ T` (R224). -/
def gcmSeal (k : Bytes 32) (nonce : Bytes 12) (m : ByteString) : Bytes (m.length + 16) :=
  ⟨gcmCrypt k nonce m ++ (gcmTag k nonce (gcmCrypt k nonce m)).1, by
    rw [List.length_append, gcmCrypt_length, (gcmTag k nonce _).2]⟩

/-- The tag the default `Open` recomputes, over the whole received ciphertext (R225). -/
def gcmOpenTag (k : Bytes 32) (nonce : Bytes 12) (x : ByteString) : Bytes 16 := gcmTag k nonce (x.take (x.length - 16))

/-- The default `Open`: all 16 tag bytes are compared, and only on equality is the plaintext computed (R225). It is here that a flipped tag or ciphertext
bit, or a SealOutput shifted by an appended or removed byte, shows (R150; its exact part is R230). -/
def gcmOpen (k : Bytes 32) (nonce : Bytes 12) (x : ByteString) : Option (Bytes (x.length - 16)) :=
  if (gcmOpenTag k nonce x).1 = x.drop (x.length - 16) then
    some ⟨gcmCrypt k nonce (x.take (x.length - 16)), by rw [gcmCrypt_length, List.length_take]; omega⟩
  else none

/-- The working state left by a tag computation over `ct`, the counter block having advanced past `n` data blocks (R228). Entry 11. -/
def gcmWork (k : Bytes 32) (nonce : Bytes 12) (ct : ByteString) (n : Nat) : AeadWork :=
  let w := keySchedule k
  { w := w, h := gcmH w, j0 := gcmJ0 nonce, cb := inc32^[n] (inc32 (gcmJ0 nonce)), y := gcmS w ct, ekj0 := aesWith w (gcmJ0 nonce) }

/-- The working state the default `SEAL` leaves (R228). -/
def gcmSealWork (k : Bytes 32) (nonce : Bytes 12) (m : ByteString) : AeadWork :=
  gcmWork k nonce (gcmCrypt k nonce m) (nBlocks m)

/-- The working state the default `OPEN` leaves when it succeeds (R228). -/
def gcmOpenWork (k : Bytes 32) (nonce : Bytes 12) (x : ByteString) : AeadWork :=
  gcmWork k nonce (x.take (x.length - 16)) (nBlocks (x.take (x.length - 16)))

end Sys2Proof.Machine
end

