-- ==== Sys2Proof/Machine/Sha256.lean ====
section
/-! DEFINITION. SHA-256, the hash of the default `KDF_ALG` (43_kdf_reference_pbkdf2.md R171 to R177). -/

namespace Sys2Proof.Machine

/-- `SHR^n` (R171). -/
def shr (n : Nat) (x : Word32) : Word32 := x >>> n

/-- `ROTR^n` (R171). -/
def rotr (n : Nat) (x : Word32) : Word32 := x >>> n ||| x <<< (32 - n)

/-- `Ch` (R172). -/
def shaCh (x y z : Word32) : Word32 := (x &&& y) ^^^ (~~~x &&& z)
/-- `Maj` (R172). -/
def shaMaj (x y z : Word32) : Word32 := (x &&& y) ^^^ (x &&& z) ^^^ (y &&& z)
/-- `Σ0` (R172). -/
def bigSigma0 (x : Word32) : Word32 := rotr 2 x ^^^ rotr 13 x ^^^ rotr 22 x
/-- `Σ1` (R172). -/
def bigSigma1 (x : Word32) : Word32 := rotr 6 x ^^^ rotr 11 x ^^^ rotr 25 x
/-- `σ0` (R172). -/
def smallSigma0 (x : Word32) : Word32 := rotr 7 x ^^^ rotr 18 x ^^^ shr 3 x
/-- `σ1` (R172). -/
def smallSigma1 (x : Word32) : Word32 := rotr 17 x ^^^ rotr 19 x ^^^ shr 10 x

/-- The round constants `K[0..63]`, eight per row (R173). -/
def shaK : List Word32 :=
  [0x428a2f98, 0x71374491, 0xb5c0fbcf, 0xe9b5dba5, 0x3956c25b, 0x59f111f1, 0x923f82a4, 0xab1c5ed5] ++
  [0xd807aa98, 0x12835b01, 0x243185be, 0x550c7dc3, 0x72be5d74, 0x80deb1fe, 0x9bdc06a7, 0xc19bf174] ++
  [0xe49b69c1, 0xefbe4786, 0x0fc19dc6, 0x240ca1cc, 0x2de92c6f, 0x4a7484aa, 0x5cb0a9dc, 0x76f988da] ++
  [0x983e5152, 0xa831c66d, 0xb00327c8, 0xbf597fc7, 0xc6e00bf3, 0xd5a79147, 0x06ca6351, 0x14292967] ++
  [0x27b70a85, 0x2e1b2138, 0x4d2c6dfc, 0x53380d13, 0x650a7354, 0x766a0abb, 0x81c2c92e, 0x92722c85] ++
  [0xa2bfe8a1, 0xa81a664b, 0xc24b8b70, 0xc76c51a3, 0xd192e819, 0xd6990624, 0xf40e3585, 0x106aa070] ++
  [0x19a4c116, 0x1e376c08, 0x2748774c, 0x34b0bcb5, 0x391c0cb3, 0x4ed8aa4a, 0x5b9cca4f, 0x682e6ff3] ++
  [0x748f82ee, 0x78a5636f, 0x84c87814, 0x8cc70208, 0x90befffa, 0xa4506ceb, 0xbef9a3f7, 0xc67178f2]

/-- The initial hash value `H0` (R174). -/
def shaH0 : Hash :=
  ⟨0x6a09e667, 0xbb67ae85, 0x3c6ef372, 0xa54ff53a, 0x510e527f, 0x9b05688c, 0x1f83d9ab, 0x5be0cd19⟩

/-- The padded message `m ∥ 80 ∥ 00^k ∥ be64(8·L)` with `k = (55 - L) mod 64` (R175). -/
def shaPad (m : ByteString) : ByteString :=
  m ++ [0x80#8] ++ List.replicate ((119 - m.length % 64) % 64) 0 ++ (be64 (8 * m.length)).1

/-- `n` more words of the schedule, newest first: `W[t] = σ1(W[t-2]) + W[t-7] + σ0(W[t-15]) + W[t-16]` (R176). -/
def shaExtend : Nat → List Word32 → List Word32
  | 0, w => w
  | n + 1, w =>
    shaExtend n ((smallSigma1 (w.getD 1 0) + w.getD 6 0 + smallSigma0 (w.getD 14 0) + w.getD 15 0) :: w)

/-- The schedule `W[0..63]` of a 64-byte block (R176). -/
def shaSchedule (b : ByteString) : List Word32 :=
  (shaExtend 48 ((List.range 16).map fun t => wordAt b (4 * t)).reverse).reverse

/-- One round of the compression on `(a, …, h)`, with `K[t]` and `W[t]` (R176). -/
def shaRound (v : Hash) (k w : Word32) : Hash :=
  let t1 := v.h + bigSigma1 v.e + shaCh v.e v.f v.g + k + w
  let t2 := bigSigma0 v.a + shaMaj v.a v.b v.c
  ⟨t1 + t2, v.a, v.b, v.c, v.d + t1, v.e, v.f, v.g⟩

/-- The 64 rounds, along the constants and the schedule (R176). -/
def shaRounds : List Word32 → List Word32 → Hash → Hash
  | k :: ks, w :: ws, v => shaRounds ks ws (shaRound v k w)
  | _, _, v => v

/-- Word-wise addition modulo 2^32 (R176). -/
def hashAdd (x y : Hash) : Hash :=
  ⟨x.a + y.a, x.b + y.b, x.c + y.c, x.d + y.d, x.e + y.e, x.f + y.f, x.g + y.g, x.h + y.h⟩

/-- Compression of one block, with the variables it leaves (R176). -/
def shaCompress (h : Hash) (b : ByteString) : ShaVars :=
  let w := shaSchedule b
  let v := shaRounds shaK w h
  ⟨hashAdd h v, w, v⟩

/-- Compression of the first `n` 64-byte blocks of a padded message (R177). -/
def shaBlocks : Nat → ByteString → ShaVars → ShaVars
  | 0, _, s => s
  | n + 1, m, s => shaBlocks n (m.drop 64) (shaCompress s.hash (m.take 64))

/-- The SHA-256 variables after a whole message (R176, R177). -/
def shaFinal (m : ByteString) : ShaVars :=
  shaBlocks ((shaPad m).length / 64) (shaPad m) ⟨shaH0, [], shaH0⟩

/-- Word `i` of a hash value (R174). -/
def hashWord (h : Hash) : Nat → Word32
  | 0 => h.a
  | 1 => h.b
  | 2 => h.c
  | 3 => h.d
  | 4 => h.e
  | 5 => h.f
  | 6 => h.g
  | _ => h.h

/-- The eight words written big-endian (R177). -/
def hashBytes (h : Hash) : Bytes 32 := Bytes.ofFn 32 fun i => wordByte (hashWord h (i / 4)) (i % 4)

/-- `SHA256(m)` (R177). -/
def sha256 (m : ByteString) : Bytes 32 := hashBytes (shaFinal m).hash

end Sys2Proof.Machine
end

