-- ==== Sys2Proof/Machine/Pbkdf2.lean ====
section
/-! DEFINITION. HMAC-SHA-256 and PBKDF2, the default `KDF_ALG` (43_kdf_reference_pbkdf2.md R178 to R181, R184). -/

namespace Sys2Proof.Machine

/-- `k0` (R178): a key longer than the 64-byte block is hashed first. -/
def hmacKey0 (k : ByteString) : ByteString := if 64 < k.length then (sha256 k).1 else k

/-- `kb = k0 ∥ 00^(64 - len(k0))`, exactly 64 bytes (R178). -/
def hmacKb (k : ByteString) : Bytes 64 := Bytes.ofFn 64 fun i => (hmacKey0 k).getD i 0

/-- `kb` with every byte XORed with `c` (R178). -/
def hmacPad (c : Byte) (kb : Bytes 64) : Bytes 64 := ⟨kb.1.map (· ^^^ c), by simp [kb.2]⟩

/-- `ipad` (R178). -/
def hmacIpad (k : ByteString) : Bytes 64 := hmacPad 0x36#8 (hmacKb k)

/-- `opad` (R178). -/
def hmacOpad (k : ByteString) : Bytes 64 := hmacPad 0x5c#8 (hmacKb k)

/-- The hash under given pads: `SHA256(opad ∥ SHA256(ipad ∥ m))` (R178). -/
def hmacWith (ipad opad : Bytes 64) (m : ByteString) : Bytes 32 := sha256 (opad.1 ++ (sha256 (ipad.1 ++ m)).1)

/-- `HMAC(k, m)` (R178). -/
def hmac (k m : ByteString) : Bytes 32 := hmacWith (hmacIpad k) (hmacOpad k) m

/-- `n` more iterations from the running value `u` and the accumulator `t` (R179, R184). -/
def pbkdf2Loop (ipad opad : Bytes 64) : Nat → Bytes 32 → Bytes 32 → Bytes 32 × Bytes 32
  | 0, u, t => (u, t)
  | n + 1, u, t =>
    let u' := hmacWith ipad opad u.1
    pbkdf2Loop ipad opad n u' (t.xor u')

/-- `U_c` and `U_1 ⊕ … ⊕ U_c`, for `c ≥ 1` (R179). -/
def pbkdf2Run (p s : ByteString) (c i : Nat) : Bytes 32 × Bytes 32 :=
  let ipad := hmacIpad p
  let opad := hmacOpad p
  let u1 := hmacWith ipad opad (s ++ (be32 i).1)
  pbkdf2Loop ipad opad (c - 1) u1 u1

/-- `F(P, S, c, i)` (R179). -/
def pbkdf2F (p s : ByteString) (c i : Nat) : Bytes 32 := (pbkdf2Run p s c i).2

/-- `F(P, S, c, i) ∥ … ` for `n` block indices from `i` on (R180). -/
def pbkdf2Blocks (p s : ByteString) (c : Nat) : Nat → Nat → ByteString
  | 0, _ => []
  | n + 1, i => (pbkdf2F p s c i).1 ++ pbkdf2Blocks p s c n (i + 1)

/-- `PBKDF2(P, S, c, dkLen)` (R180). -/
def pbkdf2 (p s : ByteString) (c dkLen : Nat) : ByteString :=
  (pbkdf2Blocks p s c ((dkLen + 31) / 32) 1).take dkLen

/-- The default `KDF_ALG`: `PBKDF2(P, S, 100000, 32)`, which is the one block `F(P, S, 100000, 1)` (R181). -/
def defaultKdf (p : ByteString) (s : Bytes 16) : Bytes 32 := pbkdf2F p s.1 kdfIterations 1

/-- The working state the default `DERIVE` leaves (R184): the pads, the counter at its last value, `U`, `T`, and the SHA-256 variables of
the last compression, that of the outer hash of `U_100000`. Entry 11. -/
def defaultKdfWork (p : ByteString) (s : Bytes 16) : KdfWork :=
  let ipad := hmacIpad p
  let opad := hmacOpad p
  let before := pbkdf2Run p s.1 (kdfIterations - 1) 1
  let u := hmacWith ipad opad before.1.1
  { ipad := ipad, opad := opad, j := kdfIterations, u := u, t := before.2.xor u,
    sha := shaFinal (opad.1 ++ (sha256 (ipad.1 ++ before.1.1)).1) }

end Sys2Proof.Machine
end

