-- ==== Sys2Proof/Machine/Utf8.lean ====
section
/-! DEFINITION. UTF-8, the default `TEXT_ENCODING` (20_memory.md R67). A `Char` is a Unicode scalar value. -/

namespace Sys2Proof.Machine

/-- The 1 to 4 bytes of one scalar value `u`, by its range (R67). -/
def utf8Scalar (u : Nat) : ByteString :=
  if u < 0x80 then [BitVec.ofNat 8 u]
  else if u < 0x800 then [BitVec.ofNat 8 (0xc0 + u / 64), BitVec.ofNat 8 (0x80 + u % 64)]
  else if u < 0x10000 then
    [BitVec.ofNat 8 (0xe0 + u / 4096), BitVec.ofNat 8 (0x80 + u / 64 % 64), BitVec.ofNat 8 (0x80 + u % 64)]
  else
    [BitVec.ofNat 8 (0xf0 + u / 262144), BitVec.ofNat 8 (0x80 + u / 4096 % 64), BitVec.ofNat 8 (0x80 + u / 64 % 64),
      BitVec.ofNat 8 (0x80 + u % 64)]

/-- The encoding of a sequence is the concatenation (R67). -/
def utf8 (s : List Char) : ByteString := s.flatMap fun c => utf8Scalar c.toNat

end Sys2Proof.Machine
end

