-- ==== Sys2Proof/Machine/Defaults.lean ====
section
/-! DEFINITION. The default value of every open parameter (00_scope.md R8), at which `exec` and `step` run. Entry 2. -/

namespace Sys2Proof.Machine

/-- The defaults of R8: PBKDF2-HMAC-SHA-256 (R181), AES-256-GCM (R224, R225), UTF-8 (R67), `reject` (R105), the bounds of R226 and R182, and
one engine. -/
def defaultConfig : Config :=
  { kdf := defaultKdf, kdfWork := defaultKdfWork, sealFn := gcmSeal, sealWork := gcmSealWork, openFn := gcmOpen, openTag := gcmOpenTag,
    openWork := gcmOpenWork, textEncoding := utf8, emptyPassphrasePolicy := .reject, maxPlaintextLen := defaultMaxPlaintextLen,
    maxPassphraseLen := defaultMaxPassphraseLen, nEngines := defaultNEngines }

end Sys2Proof.Machine
end

