-- ==== Sys2Proof/Syntax.lean ====
section
/-! DEFINITION. The operations (30_encoding.md R83) and the command tuple (R84). -/

namespace Sys2Proof

/-- The operation set, one constructor per row of spec/opcode_table.json. No operation has an operand field: the operands are always the
buffers and registers (R84, R91). -/
inductive Instr where
  /-- `ENCRYPT`, host command (R141) -/
  | encrypt
  /-- `DECRYPT`, host command (R142) -/
  | decrypt
  /-- `DERIVE`, unit operation of the KDF engine (R101) -/
  | derive
  /-- `SEAL`, unit operation of the cipher core (R121) -/
  | sealOp
  /-- `OPEN`, unit operation of the cipher core (R122) -/
  | openOp
  deriving DecidableEq, Repr

/-- A command as the host presents it at issue (R84). -/
structure Command where
  op    : Byte
  ppLen : Nat
  inLen : Nat
  pp    : ByteString
  inp   : ByteString
  deriving DecidableEq, Repr

end Sys2Proof
end

