-- ==== Sys2Proof/WellFormed.lean ====
section
/-! DEFINITION. Well-formedness: of an operation (nothing to check), and of a command tuple (30_encoding.md R84, R85, R88). -/

namespace Sys2Proof

/-- An operation has no operand, so no operation is ill-formed (R84: "There is no immediate operand, no register operand and no
addressing mode"). -/
def Instr.wf : Instr → Bool
  | .encrypt => true
  | .decrypt => true
  | .derive => true
  | .sealOp => true
  | .openOp => true

/-- The operations the host may issue (R83, R88). -/
def Instr.hostIssued : Instr → Bool
  | .encrypt => true
  | .decrypt => true
  | .derive => false
  | .sealOp => false
  | .openOp => false

/-- The largest `in_len` accepted at issue (R85): `MAX_PLAINTEXT_LEN`, and 44 more for `DECRYPT`. -/
def Config.maxInputLen (cfg : Config) : Instr → Nat
  | .decrypt => cfg.maxPlaintextLen + 44
  | .encrypt => cfg.maxPlaintextLen
  | .derive => cfg.maxPlaintextLen
  | .sealOp => cfg.maxPlaintextLen
  | .openOp => cfg.maxPlaintextLen

/-- `pp` is `pp_len` bytes (R84). -/
def Command.ppShape (c : Command) : Bool := c.pp.length == c.ppLen

/-- `in` is `in_len` bytes (R84). -/
def Command.inShape (c : Command) : Bool := c.inp.length == c.inLen

/-- `pp_len ≤ MAX_PASSPHRASE_LEN` (R85). -/
def Command.ppBounded (cfg : Config) (c : Command) : Bool := decide (c.ppLen ≤ cfg.maxPassphraseLen)

/-- The bound of R85 on `in_len`, for operation `i`. -/
def Command.inBounded (cfg : Config) (i : Instr) (c : Command) : Bool := decide (c.inLen ≤ cfg.maxInputLen i)

/-- A command tuple for operation `i` that an idle engine accepts (R84, R85). -/
def Command.wf (cfg : Config) (i : Instr) (c : Command) : Bool :=
  i.hostIssued && c.ppShape && c.inShape && c.ppBounded cfg && c.inBounded cfg i

end Sys2Proof
end

