-- ==== Sys2Proof/Decode.lean ====
section
/-! DEFINITION. Operation codes: the decoder and the encoder (30_encoding.md R83, R88, R89). -/

namespace Sys2Proof

/-- Why bytes are no operation. -/
inductive DecodeError where
  /-- no byte is left -/
  | noBytes
  /-- `op` spells no operation (R88) -/
  | reservedOp (op : Byte)
  deriving DecidableEq, Repr

/-- The operation an 8-bit `op` spells (R83); every other value is reserved (R88). -/
def decodeOp (op : Byte) : Except DecodeError Instr :=
  if op = 0x01#8 then .ok .encrypt
  else if op = 0x02#8 then .ok .decrypt
  else if op = 0x10#8 then .ok .derive
  else if op = 0x20#8 then .ok .sealOp
  else if op = 0x21#8 then .ok .openOp
  else .error (.reservedOp op)

/-- The operation at the head of a byte string, and the bytes after it. One format, one byte, no prefixes (R89). -/
def decode : ByteString → Except DecodeError (Instr × ByteString)
  | [] => .error .noBytes
  | op :: rest =>
    match decodeOp op with
    | .ok i => .ok (i, rest)
    | .error e => .error e

/-- The operation code of the table (R83). -/
def opcode : Instr → Byte
  | .encrypt => 0x01#8
  | .decrypt => 0x02#8
  | .derive => 0x10#8
  | .sealOp => 0x20#8
  | .openOp => 0x21#8

/-- The bytes of an operation: its code alone (R89). -/
def encode (i : Instr) : ByteString := [opcode i]

/-- The first `k` bytes of a number, least significant byte first: how spec/opcode_table.json numbers an instruction's bits. -/
def tableBytes : (k w : Nat) → ByteString
  | 0, _ => []
  | k + 1, w => BitVec.ofNat 8 w :: tableBytes k (w / 256)

/-- The operation the decoder reads from an instruction of `nbits` bits `w`; `none` where it refuses, or where bits are left over. -/
def decodeTableWord (nbits w : Nat) : Option Instr :=
  match decode (tableBytes ((nbits + 7) / 8) w) with
  | .ok (i, []) => some i
  | .ok (_, _ :: _) => none
  | .error _ => none

end Sys2Proof
end

