-- ==== Sys2Proof/Machine/State.lean ====
section
/-! DEFINITION. The state of the block and of its environment (10_state.md), and the reasons a step can stop. -/

namespace Sys2Proof.Machine

/-- `PHASE`, the sequencer position (R30): an enumeration, without an architectural encoding. -/
inductive Phase where
  | idle
  | e1
  | e2
  | e3
  | e4
  | d1
  | d2
  | d3
  | d4
  | d5
  | done
  deriving DecidableEq, Repr

/-- The error kinds a command can end with (R261). They are results, not faults (R267). -/
inductive ErrorKind where
  | tooShort
  | decryptionFailed
  | invalidSalt
  | emptyPassphrase
  | randomSourceUnavailable
  deriving DecidableEq, Repr

/-- A byte-addressed buffer (R50): cells at strictly rising offsets. An offset that is not listed holds no byte, so a listed byte never
equals what an unlisted offset reads as; reading an unlisted offset finds nothing (R13, R21). Entry 10. -/
abbrev Memory := List Host.Cell

/-- The three address spaces of an engine instance (R50). -/
inductive Space where
  | pp
  | inp
  | out
  deriving DecidableEq, Repr

/-- The registers and buffers that can hold `none` (R21). -/
inductive Reg where
  | salt
  | nonce
  | key
  | tag
  | pp
  | inp
  | out
  | cmd
  | status
  | ppLen
  | inLen
  | outLen
  | staged
  deriving DecidableEq, Repr

/-- One engine instance (R20). `none` is no bit pattern: the register holds no value (R21). The flags `BUSY`, `DONE` and `OUT_VALID` are
functions of `PHASE` and `STATUS` (R32) and are computed in `Machine/Flags.lean`. -/
structure Engine where
  /-- `SALT` (R23) -/
  salt   : Option (Bytes 16)
  /-- `NONCE` (R24) -/
  nonce  : Option (Bytes 12)
  /-- `KEY` (R25) -/
  key    : Option (Bytes 32)
  /-- `TAG` (R26) -/
  tag    : Option (Bytes 16)
  /-- `PP` (R50, R51) -/
  pp     : Option Memory
  /-- `IN` (R50, R52) -/
  inp    : Option Memory
  /-- `OUT` (R50, R53) -/
  out    : Option Memory
  /-- `CMD` (R33) -/
  cmd    : Option Byte
  /-- `PHASE` (R30) -/
  phase  : Phase
  /-- `STATUS` (R34) -/
  status : Option Byte
  /-- `PP_LEN` (R35) -/
  ppLen  : Option Nat
  /-- `IN_LEN` (R35) -/
  inLen  : Option Nat
  /-- `OUT_LEN` (R35) -/
  outLen : Option Nat
  /-- the staged SealOutput or plaintext: computed, not yet readable by the host (R41, R265) -/
  staged : Option ByteString
  /-- working state of `KDF_ALG` (R38, R184) -/
  kdfWork : Option KdfWork
  /-- working state of `AEAD_ALG` (R38, R228) -/
  aeadWork : Option AeadWork
  deriving DecidableEq, Repr

/-- The reset state of an engine instance, which is its idle state (R40). -/
def Engine.reset : Engine :=
  { salt := none, nonce := none, key := none, tag := none, pp := none, inp := none, out := none, cmd := none, phase := .idle,
    status := none, ppLen := none, inLen := none, outLen := none, staged := none, kdfWork := none, aeadWork := none }

/-- One answer of a scripted random source (R8: "an oracle answering a request for n bytes with n bytes or with failure"). -/
inductive RngAnswer where
  | bytes (b : ByteString)
  | fail
  deriving DecidableEq, Repr

/-- The random source the host has bound to the `RngDraw` port (R65, R303). It is the environment's, not the block's (R39). Entry 4. -/
inductive RngSource where
  /-- none is bound: every draw fails (R303) -/
  | unbound
  /-- a deterministic substitute: its byte stream, cut in request order (R65) -/
  | substitute (stream : ByteString)
  /-- an oracle given by its answers, one per request; once they are used up it never answers (R274) -/
  | scripted (answers : List RngAnswer)
  /-- the secure source: its answers are the free values `Config.rngAnswer`; `next` counts its requests -/
  | secure (next : Nat)
  deriving DecidableEq, Repr

/-- What the host does, one act at a time (R10 a). Entry 9. -/
inductive HostAction where
  /-- present a command at the port (R84) -/
  | present (c : Command)
  /-- wait while the engine makes one step -/
  | run
  /-- read the response and return the engine to `IDLE` (R268) -/
  | collect
  /-- discard the response of an abandoned command unread; it counts as the collect (R274) -/
  | discard
  /-- reset the block (R300, R301); a power-down is the same (R285) -/
  | reset
  /-- bind a random source, in place of the one bound before, or `unbound` to unbind it, or the same one rewound (R303). In any phase, also while an
  engine waits in `E1`, which then draws from the new source (DESIGN CHOICE, entry 27) -/
  | bindRng (src : RngSource)
  /-- the turn passes to the next engine instance (R42, R283) -/
  | turn
  deriving DecidableEq, Repr

/-- A response as the host reads it (R87). -/
structure Response where
  status : Byte
  outLen : Nat
  out    : Option ByteString
  deriving DecidableEq, Repr

/-- The block, its random source and its host. -/
structure State where
  /-- the engine instance whose turn it is (R20) -/
  engine : Engine
  /-- the other `N_ENGINES - 1` instances, in turn order (R42) -/
  others : List Engine
  /-- the bound random source (R65) -/
  rng : RngSource
  /-- the command the host is presenting (R84, R85) -/
  port : Option Command
  /-- what the host does next -/
  script : List HostAction
  /-- the responses the host has collected (R87, R313) -/
  responses : List Response
  /-- the completion events signalled so far (R273) -/
  completions : Nat
  deriving DecidableEq, Repr

/-- A block of `n` engine instances, of at least one, after reset (R8, R40, R42, R300): every instance idle and empty. No random source is bound (R303,
entry 5), and the host has done and planned nothing (entry 21). -/
def State.resetFor (n : Nat) : State :=
  { engine := Engine.reset, others := List.replicate (n - 1) Engine.reset, rng := .unbound, port := none, script := [], responses := [],
    completions := 0 }

/-- The block after reset, with as many instances as `N_ENGINES` says (R8, R42). -/
def State.resetWith (cfg : Config) : State := State.resetFor cfg.nEngines

/-- The block after reset at the default parameters, at which `exec` and `step` run (R8, R40, R300; entry 2). -/
def State.reset : State := State.resetFor defaultNEngines

/-- Model faults (R267): a reachable state never raises one. All are safe: the model stops where the spec gives no value. -/
inductive Fault where
  /-- a rule read a register or buffer that holds `none` (R21, I12); raised by every operation that reads one, and by a collect that finds `STATUS`,
  `OUT_LEN` or, with `OUT_VALID = 1`, `OUT` empty. Safe. -/
  | emptyRegister (r : Reg)
  /-- a transfer of `n` bytes at offset `off` reaches outside its buffer (R13, R146); raised by `MemRead`, and by a collect
  whose `OUT` is shorter than `OUT_LEN`. Safe. -/
  | outsideBuffer (sp : Space) (off n : Nat)
  /-- a `MemWrite` of `n` bytes was given a string of another length (R13); raised by the two stores of results. Safe. -/
  | transferLength (off n : Nat)
  /-- `OPEN` was given fewer than 16 bytes (R122, I22); raised by `OPEN`. Safe. -/
  | shortSealOutput (len : Nat)
  deriving DecidableEq, Repr

/-- Refusals: the attempt has no step and nothing changes (R85, R88, D5). All are safe: they give an attempt no meaning. -/
inductive Refusal where
  /-- an instruction without a meaning in `exec`; raised by none of the arms. Safe. -/
  | notModelled (mnemonic : String)
  /-- the presented `op` is reserved (R88, I11); raised by `step`. Safe. -/
  | reservedOp (op : Byte)
  /-- a unit operation was presented at the host port (R83, R88); raised by DERIVE, SEAL, OPEN. Safe. -/
  | unitOpFromHost
  /-- a command was presented while `PHASE` is not `IDLE` (R85, I10); raised by issue. Safe. -/
  | engineNotIdle
  /-- ENCRYPT was asked to take a presented DECRYPT or the like; `step` never does so (R85); raised by issue. Safe. -/
  | otherCommandPresented
  /-- the tuple's `pp` or `in` has not the stated length (R84); raised by issue. Safe. -/
  | malformedCommand
  /-- `pp_len > MAX_PASSPHRASE_LEN` (R85, I9); raised by issue. Safe. -/
  | passphraseTooLong
  /-- `in_len` over its bound (R85, I9); raised by issue. Safe. -/
  | inputTooLong
  /-- an operation was asked for in a phase in which the sequencer never invokes it (R83, R100, R120); `step` never does so; raised by every
  meaning. Safe. -/
  | outOfPhase
  /-- a collect or discard while `PHASE` is not `DONE` (R268, R31); raised by `step`. Safe. -/
  | nothingToCollect
  deriving DecidableEq, Repr

/-- What a step answers. -/
abbrev Result := Host.Outcome State Fault Refusal

end Sys2Proof.Machine
end

