-- ==== Sys2Proof/Machine/Ops.lean ====
section
/-! DEFINITION. The shared operations: buffers (00_scope.md R13), the random-source port (20_memory.md R65), issue (30_encoding.md R85), the end of a
command by `raise` and by `complete OK`, the return from it by collect (60_exceptions.md R265, R266, R268), and reset (R300). -/

namespace Sys2Proof.Machine

/-! ## Buffers -/

/-- The byte at an offset of a buffer; `none` where nothing stands (R50, R21). -/
def Memory.read : Memory → Nat → Option Byte
  | [], _ => none
  | (x, v) :: m, a => if a = x then some v else Memory.read m a

/-- A buffer with one byte stored, the cells kept in rising order (R13). -/
def Memory.write : Memory → Nat → Byte → Memory
  | [], a, b => [(a, b)]
  | (x, v) :: m, a, b =>
    if a < x then (a, b) :: (x, v) :: m
    else if a = x then (a, b) :: m
    else (x, v) :: Memory.write m a b

/-- `MemRead(X+off, n)`: the `n` bytes at offsets `off` to `off + n - 1`; `none` if one of them is outside the buffer (R13). -/
def Memory.readBytes (m : Memory) (off : Nat) : (n : Nat) → Option (Bytes n)
  | 0 => some ⟨[], rfl⟩
  | n + 1 =>
    match Memory.read m off, Memory.readBytes m (off + 1) n with
    | some b, some r => some ⟨b :: r.1, by simp [r.2]⟩
    | _, _ => none

/-- `MemWrite(X+off, len(v), v)` (R13). -/
def Memory.writeBytes : Memory → Nat → ByteString → Memory
  | m, _, [] => m
  | m, off, b :: bs => Memory.writeBytes (Memory.write m off b) (off + 1) bs

/-- A buffer holding a string from offset `off` on and nothing else (R56: a whole-buffer transfer). -/
def Memory.ofBytesAt : Nat → ByteString → Memory
  | _, [] => []
  | off, b :: bs => (off, b) :: Memory.ofBytesAt (off + 1) bs

/-- The buffer whose bytes are the string, from offset 0 (R52, R58). -/
def Memory.ofBytes (b : ByteString) : Memory := Memory.ofBytesAt 0 b

/-- The canonical form from offset `lo` on: offsets strictly rising. -/
def Memory.wfFrom : Nat → Memory → Bool
  | _, [] => true
  | lo, (x, _) :: m => decide (lo ≤ x) && Memory.wfFrom (x + 1) m

/-- The canonical form of a buffer: offsets strictly rising, so that equal buffers are equal lists. -/
def Memory.wf (m : Memory) : Bool := Memory.wfFrom 0 m

/-- The byte at an offset of one of an engine's buffers; nothing where the buffer is absent (R50). -/
def Engine.readByte (e : Engine) : Space → Nat → Option Byte
  | .pp, a => e.pp.bind fun m => m.read a
  | .inp, a => e.inp.bind fun m => m.read a
  | .out, a => e.out.bind fun m => m.read a

/-! ## Reading a register that may hold `none` -/

/-- Go on with the value, or stop with the fault where there is none (R21, R13). -/
def need {α : Type} (o : Option α) (f : Fault) (k : α → Result) : Result :=
  match o with
  | some a => k a
  | none => .fault f

/-- `MemWrite(X+off, n, v)` of a string that must have `n` bytes (R13). -/
def memWrite (m : Memory) (off n : Nat) (v : ByteString) (k : Memory → Result) : Result :=
  if v.length = n then k (m.writeBytes off v) else .fault (.transferLength off n)

/-! ## The random-source port -/

/-- An answer to `RngDraw(n)`: exactly `n` bytes, or failure (R14); or none yet (R274). -/
inductive Draw (n : Nat) where
  | got (b : Bytes n)
  | fail
  | noAnswer
  deriving DecidableEq, Repr

/-- An answer of any other length than `n` counts as failure (R65). -/
def Draw.ofAnswer (n : Nat) : Option ByteString → Draw n
  | some b => if h : b.length = n then .got ⟨b, h⟩ else .fail
  | none => .fail

/-- `RngDraw(n)`: the answer, and the source after it (R65). A substitute's stream is cut in request order; what it has left when it is too
short is consumed too (entry 7). An exhausted script never answers (R274). -/
def RngSource.draw (n : Nat) : RngSource → Draw n × RngSource
  | .unbound => (.fail, .unbound)
  | .substitute b => (Draw.ofAnswer n (some (b.take n)), .substitute (b.drop n))
  | .scripted [] => (.noAnswer, .scripted [])
  | .scripted (.bytes b :: rest) => (Draw.ofAnswer n (some b), .scripted rest)
  | .scripted (.fail :: rest) => (.fail, .scripted rest)
  | .secure k => (Draw.ofAnswer n (Config.rngAnswer k n), .secure (k + 1))

/-! ## The end of a command -/

/-- `STATUS` of a success (R86). -/
def statusOk : Byte := 0x00#8

/-- The status code of an error kind (R86). -/
def ErrorKind.code : ErrorKind → Byte
  | .tooShort => 0x01#8
  | .decryptionFailed => 0x02#8
  | .invalidSalt => 0x03#8
  | .emptyPassphrase => 0x04#8
  | .randomSourceUnavailable => 0x05#8

/-- What the end of a command empties, whatever its outcome (R29, R265, R266, R41). 92_eei_decisions.md D12 names `KEY`, `PP`, working state and the staged
plaintext as emptied with `DONE` and says that the rest is emptied at the collect; the model follows the rules, which empty `SALT`, `NONCE`, `TAG`, `IN`
and the lengths with `DONE` as well (DEDUCED, entry 30). `CMD` too: at `DONE` only the response is held (R41), and after the collect the engine is in its
reset state (R268; DEDUCED, entry 3). -/
def Engine.emptied (e : Engine) : Engine :=
  { e with
    salt := none, nonce := none, key := none, tag := none, pp := none, inp := none, ppLen := none, inLen := none, cmd := none,
    staged := none, kdfWork := none, aeadWork := none }

/-- The engine after `raise k` (R265). -/
def Engine.raised (k : ErrorKind) (e : Engine) : Engine :=
  { e.emptied with out := none, outLen := some 0, status := some k.code, phase := .done }

/-- The engine after `complete OK` (R266): `OUT` and `OUT_LEN` keep what the command wrote. -/
def Engine.completed (e : Engine) : Engine :=
  { e.emptied with status := some statusOk, phase := .done }

/-- TAKING AN EXCEPTION: `raise k`, in any phase, as one step (R265). Nothing is saved and control goes to no vector; completion is signalled
(R273). -/
def raise (k : ErrorKind) (s : State) : Result :=
  .next { s with engine := s.engine.raised k, completions := s.completions + 1 }

/-- `complete OK`, the success form of the same step (R266). -/
def completeOk (s : State) : Result :=
  .next { s with engine := s.engine.completed, completions := s.completions + 1 }

/-- RETURN: the engine after its response has been collected (R268): from `DONE` to `IDLE`, with `STATUS`, `OUT` and `OUT_LEN` emptied. -/
def Engine.collected (e : Engine) : Engine :=
  { e with phase := .idle, status := none, out := none, outLen := none }

/-! ## Issue and reset -/

/-- The phase a host command starts in (R31). -/
def firstPhase : Instr → Phase
  | .encrypt => .e1
  | .decrypt => .d1
  | .derive => .idle
  | .sealOp => .idle
  | .openOp => .idle

/-- The engine that has accepted a command: the tuple is taken by value (R52, R33, R35). -/
def Engine.loaded (e : Engine) (c : Command) (ph : Phase) : Engine :=
  { e with
    cmd := some c.op, ppLen := some c.ppLen, inLen := some c.inLen, pp := some (Memory.ofBytes c.pp), inp := some (Memory.ofBytes c.inp),
    phase := ph }

/-- Issue of host command `i` with the presented tuple `c`: accepted exactly under the conditions of R85, else refused with nothing changed
(R85, R88; the order of the tests is entry 8). -/
def issue (cfg : Config) (i : Instr) (c : Command) (s : State) : Result :=
  if s.engine.phase ≠ .idle then .refused .engineNotIdle
  else if c.op ≠ opcode i then .refused .otherCommandPresented
  else if ¬ (c.ppShape ∧ c.inShape) then .refused .malformedCommand
  else if ¬ c.ppBounded cfg then .refused .passphraseTooLong
  else if ¬ c.inBounded cfg i then .refused .inputTooLong
  else .next { s with engine := s.engine.loaded c (firstPhase i), port := none }

/-- Reset of the block: every instance goes to its reset state and nothing is reported; the environment is not the block's (R300, R301, R39). -/
def resetBlock (s : State) : State :=
  { s with engine := Engine.reset, others := s.others.map fun _ => Engine.reset, port := none }

end Sys2Proof.Machine
end

