-- ==== Sys2Proof/Machine/Operands.lean ====
section
/-! DEFINITION. Operand forms: the container's fields (30_encoding.md R80 to R82), the loads of the two commands and the three unit
operations (42_codec.md R155), and the lengths they compute with (R153). -/

namespace Sys2Proof.Machine

/-! ## The container as a byte string -/

/-- `Salt ∥ Nonce ∥ SealOutput` (R80, R82). -/
def containerOf (salt : Bytes 16) (nonce : Bytes 12) (x : ByteString) : ByteString := salt.1 ++ nonce.1 ++ x

/-- `Salt = C[0:16]` of a container of at least 44 bytes (R82). -/
def containerSalt (c : ByteString) (h : 44 ≤ c.length) : Bytes 16 :=
  ⟨slice c 0 16, by simp [slice]; omega⟩

/-- `Nonce = C[16:28]` (R82). -/
def containerNonce (c : ByteString) (h : 44 ≤ c.length) : Bytes 12 :=
  ⟨slice c 16 28, by simp [slice]; omega⟩

/-- `SealOutput = C[28:L]` (R82). -/
def containerSealOutput (c : ByteString) : ByteString := c.drop 28

/-- `Ciphertext = C[28:L-16]` (R82). -/
def containerCiphertext (c : ByteString) : ByteString := slice c 28 (c.length - 16)

/-- `Tag = C[L-16:L]` (R82). -/
def containerTag (c : ByteString) : ByteString := c.drop (c.length - 16)

/-- The last 16 bytes of a SealOutput of an `n`-byte message: `X[n:n+16]` (R121). -/
def sealTag {n : Nat} (x : Bytes (n + 16)) : Bytes 16 := ⟨x.1.drop n, by simp [x.2]⟩

/-! ## Operands read from registers and buffers -/

/-- `MemRead(PP+0, PP_LEN)` (R101, R155). -/
def withPassphrase (s : State) (k : ByteString → Result) : Result :=
  need s.engine.ppLen (.emptyRegister .ppLen) fun n =>
  need s.engine.pp (.emptyRegister .pp) fun m =>
  need (m.readBytes 0 n) (.outsideBuffer .pp 0 n) fun p => k p.1

/-- `IN_LEN` (R35). -/
def withInLen (s : State) (k : Nat → Result) : Result := need s.engine.inLen (.emptyRegister .inLen) k

/-- `MemRead(IN+off, n)` (R13, R155). -/
def withInput (s : State) (off n : Nat) (k : Bytes n → Result) : Result :=
  need s.engine.inp (.emptyRegister .inp) fun m =>
  need (m.readBytes off n) (.outsideBuffer .inp off n) k

/-- `SALT` (R23). -/
def withSalt (s : State) (k : Bytes 16 → Result) : Result := need s.engine.salt (.emptyRegister .salt) k

/-- `NONCE` (R24). -/
def withNonce (s : State) (k : Bytes 12 → Result) : Result := need s.engine.nonce (.emptyRegister .nonce) k

/-- `KEY` (R25). -/
def withKey (s : State) (k : Bytes 32 → Result) : Result := need s.engine.key (.emptyRegister .key) k

/-- The staged result (R41). -/
def withStaged (s : State) (k : ByteString → Result) : Result := need s.engine.staged (.emptyRegister .staged) k

end Sys2Proof.Machine
end

