-- ==== Sys2Proof/Machine/Aead.lean ====
section
/-! DEFINITION. The AEAD cipher core and its operations SEAL and OPEN (41_aead.md). -/

namespace Sys2Proof.Machine

/-- SEAL of the whole input: `TAG` takes the computed tag and the SealOutput is staged; it cannot fail (R121, R31, R41). -/
def sealOperation (cfg : Config) (s : State) : Result :=
  withKey s fun key =>
  withNonce s fun nonce =>
  withInLen s fun n =>
  withInput s 0 n fun m =>
  .next { s with
    engine := { s.engine with
      tag := some (sealTag (cfg.sealFn key nonce m.1)), staged := some (cfg.sealFn key nonce m.1).1,
      aeadWork := some (cfg.sealWork key nonce m.1), phase := .e4 } }

/-- OPEN of `IN[28:]`, followed by the codec's mapping of its one failure (R122, R142, R144): on `AuthFailure`, `DecryptionFailed` is raised and no
plaintext is staged; on success `TAG` holds the recomputed tag and the plaintext is staged. A tampered container of 44 or more bytes ends here, with
the key and the nonce that its own salt and nonce regions gave (R150). -/
def openOperation (cfg : Config) (s : State) : Result :=
  withKey s fun key =>
  withNonce s fun nonce =>
  withInLen s fun n =>
  withInput s 28 (n - 28) fun x =>
  if x.1.length < 16 then .fault (.shortSealOutput x.1.length)
  else
    match cfg.openFn key nonce x.1 with
    | none => raise .decryptionFailed s
    | some r =>
      .next { s with
        engine := { s.engine with
          tag := some (cfg.openTag key nonce x.1), staged := some r.1, aeadWork := some (cfg.openWork key nonce x.1), phase := .d5 } }

/-- SEAL as the sequencer invokes it: in `E3` and never from the host port (R83, R88, R120). -/
def sealUnit (cfg : Config) (s : State) : Result :=
  match s.port with
  | some _ => .refused .unitOpFromHost
  | none =>
    match s.engine.phase with
    | .e3 => sealOperation cfg s
    | _ => .refused .outOfPhase

/-- OPEN as the sequencer invokes it: in `D4` and never from the host port (R83, R88, R120). -/
def openUnit (cfg : Config) (s : State) : Result :=
  match s.port with
  | some _ => .refused .unitOpFromHost
  | none =>
    match s.engine.phase with
    | .d4 => openOperation cfg s
    | _ => .refused .outOfPhase

/-- SEAL (R121). -/
def execSeal (s : State) : Result := sealUnit defaultConfig s

/-- OPEN (R122). -/
def execOpen (s : State) : Result := openUnit defaultConfig s

end Sys2Proof.Machine
end

