-- ==== Sys2Proof/Machine/Kdf.lean ====
section
/-! DEFINITION. The KDF engine and its operation DERIVE (40_kdf.md). -/

namespace Sys2Proof.Machine

/-- DERIVE as a function of an arbitrary byte string as salt (R101, D20): the salt is tested first, the passphrase second. -/
def deriveKey (cfg : Config) (p s : ByteString) : Except ErrorKind (Bytes 32) :=
  if h : s.length = 16 then
    if p.length = 0 ∧ cfg.emptyPassphrasePolicy = .reject then .error .emptyPassphrase else .ok (cfg.kdf p ⟨s, h⟩)
  else .error .invalidSalt

/-- The unit operation: it reads `PP` and `SALT`, writes `KEY` and its working state, and returns to the phase `next` (R101, R103, R31). -/
def deriveOp (cfg : Config) (next : Phase) (s : State) : Result :=
  withPassphrase s fun p =>
  withSalt s fun salt =>
  match deriveKey cfg p salt.1 with
  | .error k => raise k s
  | .ok key => .next { s with engine := { s.engine with key := some key, kdfWork := some (cfg.kdfWork p salt), phase := next } }

/-- DERIVE as the sequencer invokes it: in `E2` and `D3` and never from the host port (R83, R88, R100). -/
def deriveUnit (cfg : Config) (s : State) : Result :=
  match s.port with
  | some _ => .refused .unitOpFromHost
  | none =>
    match s.engine.phase with
    | .e2 => deriveOp cfg .e3 s
    | .d3 => deriveOp cfg .d4 s
    | _ => .refused .outOfPhase

/-- DERIVE (R101). -/
def execDerive (s : State) : Result := deriveUnit defaultConfig s

end Sys2Proof.Machine
end

