-- ==== Sys2Proof/Machine/Codec.lean ====
section
/-! DEFINITION. The container codec and its commands ENCRYPT and DECRYPT (42_codec.md), one numbered step per phase (10_state.md R31). -/

namespace Sys2Proof.Machine

/-- `E1`: two draws, Salt then Nonce; the second is not made if the first fails, nothing is retried, and a failure ends the command (R141, R65).
A source that does not answer leaves the engine waiting in `E1` (R274, entry 6). Both draws are made in one step, so no other instance's request and no
act of the host falls between them, where R283 and R65 fix no order (DESIGN CHOICE, entry 29). -/
def drawStep (s : State) : Result :=
  match RngSource.draw 16 s.rng with
  | (.noAnswer, _) => .next s
  | (.fail, rng) => raise .randomSourceUnavailable { s with rng := rng }
  | (.got salt, rng) =>
    match RngSource.draw 12 rng with
    | (.noAnswer, _) => .next s
    | (.fail, rng') => raise .randomSourceUnavailable { s with rng := rng' }
    | (.got nonce, rng') =>
      .next { s with rng := rng', engine := { s.engine with salt := some salt, nonce := some nonce, phase := .e2 } }

/-- `E4`: `Salt ∥ Nonce ∥ SealOutput` is stored to `OUT`, `OUT_LEN` written, and the command completes (R141, R53, R266). -/
def emitStep (s : State) : Result :=
  withSalt s fun salt =>
  withNonce s fun nonce =>
  withInLen s fun n =>
  withStaged s fun x =>
  memWrite [] 0 16 salt.1 fun o1 =>
  memWrite o1 16 12 nonce.1 fun o2 =>
  memWrite o2 28 (n + 16) x fun o3 =>
  completeOk { s with engine := { s.engine with out := some o3, outLen := some (n + 44) } }

/-- `D1`: the length check, before any cryptographic work (R142, R143). -/
def lengthStep (s : State) : Result :=
  withInLen s fun n =>
  if n < minContainerLen then raise .tooShort s else .next { s with engine := { s.engine with phase := .d2 } }

/-- `D2`: the slices (R142, R82). `IN` stays, and OPEN reads the SealOutput from it (entry 15). -/
def sliceStep (s : State) : Result :=
  withInLen s fun n =>
  withInput s 0 16 fun salt =>
  withInput s 16 12 fun nonce =>
  withInput s 28 (n - 28) fun _ =>
  .next { s with engine := { s.engine with salt := some salt, nonce := some nonce, phase := .d3 } }

/-- `D5`: the plaintext is stored to `OUT`, `OUT_LEN` written, and the command completes (R142, R266). -/
def releaseStep (s : State) : Result :=
  withInLen s fun n =>
  withStaged s fun r =>
  memWrite [] 0 (n - 44) r fun o =>
  completeOk { s with engine := { s.engine with out := some o, outLen := some (n - 44) } }

/-- ENCRYPT: issue where a command is presented, else the numbered step of the phase the engine is in (R141, R31). -/
def encryptCommand (cfg : Config) (s : State) : Result :=
  match s.port with
  | some c => issue cfg .encrypt c s
  | none =>
    match s.engine.phase with
    | .e1 => drawStep s
    | .e2 => deriveOp cfg .e3 s
    | .e3 => sealOperation cfg s
    | .e4 => emitStep s
    | _ => .refused .outOfPhase

/-- DECRYPT: issue where a command is presented, else the numbered step of the phase the engine is in (R142, R31). -/
def decryptCommand (cfg : Config) (s : State) : Result :=
  match s.port with
  | some c => issue cfg .decrypt c s
  | none =>
    match s.engine.phase with
    | .d1 => lengthStep s
    | .d2 => sliceStep s
    | .d3 => deriveOp cfg .d4 s
    | .d4 => openOperation cfg s
    | .d5 => releaseStep s
    | _ => .refused .outOfPhase

/-- ENCRYPT (R141). -/
def execEncrypt (s : State) : Result := encryptCommand defaultConfig s

/-- DECRYPT (R142). -/
def execDecrypt (s : State) : Result := decryptCommand defaultConfig s

end Sys2Proof.Machine
end

