-- ==== Sys2Proof/Machine/Dispatch.lean ====
section
/-! DEFINITION. The meaning of every operation, one arm each. -/

namespace Sys2Proof.Machine

def exec (i : Instr) (s : State) : Host.Outcome State Fault Refusal :=
  match i with
  | .encrypt => Sys2Proof.Machine.execEncrypt s
  | .decrypt => Sys2Proof.Machine.execDecrypt s
  | .derive => Sys2Proof.Machine.execDerive s
  | .sealOp => Sys2Proof.Machine.execSeal s
  | .openOp => Sys2Proof.Machine.execOpen s

end Sys2Proof.Machine
end

