-- ==== Sys2Proof/Machine/Flags.lean ====
section
/-! DEFINITION. The flags (10_state.md R32) and all that the host can see (R27, 30_encoding.md R87, 20_memory.md R57). -/

namespace Sys2Proof.Machine

/-- `DONE` (R32). -/
def Engine.doneFlag (e : Engine) : Bool := decide (e.phase = .done)

/-- `BUSY` (R32). -/
def Engine.busyFlag (e : Engine) : Bool := decide (e.phase ≠ .idle ∧ e.phase ≠ .done)

/-- `OUT_VALID` (R32). -/
def Engine.outValidFlag (e : Engine) : Bool := decide (e.phase = .done ∧ e.status = some statusOk)

/-- A host read of `STATUS` (R34, R305). -/
def Engine.hostStatus (e : Engine) : Option Byte := if e.doneFlag then e.status else none

/-- A host read of `OUT_LEN` (R35, R57). -/
def Engine.hostOutLen (e : Engine) : Option Nat := if e.doneFlag then e.outLen else none

/-- A host read of `OUT` at an offset: nothing while `OUT_VALID = 0`, and nothing at or past `OUT_LEN` (R50, R57). -/
def Engine.hostOutByte (e : Engine) (off : Nat) : Option Byte :=
  if e.outValidFlag then
    match e.out, e.outLen with
    | some m, some n => if off < n then m.read off else none
    | _, _ => none
  else none

/-- A host read of all of `OUT` (R57, R87). -/
def Engine.hostOut (e : Engine) : Option ByteString :=
  if e.outValidFlag then
    match e.out, e.outLen with
    | some m, some n => (m.readBytes 0 n).map Subtype.val
    | _, _ => none
  else none

/-- Everything the host can see of an engine instance (R27). -/
structure HostView where
  busy     : Bool
  done     : Bool
  outValid : Bool
  status   : Option Byte
  outLen   : Option Nat
  out      : Option ByteString
  deriving DecidableEq, Repr

/-- The host's view of an engine instance (R27): `PP`, `KEY`, `TAG`, `PHASE` and the working state have no part in it. -/
def Engine.hostView (e : Engine) : HostView :=
  { busy := e.busyFlag, done := e.doneFlag, outValid := e.outValidFlag, status := e.hostStatus, outLen := e.hostOutLen, out := e.hostOut }

/-- `out` of the response (R87): where `OUT_VALID = 1`, the first `n` bytes of `OUT`, which must hold them (R21, R13); else absent. -/
def withResponseOut (s : State) (n : Nat) (k : Option ByteString → Result) : Result :=
  if s.engine.outValidFlag then
    need s.engine.out (.emptyRegister .out) fun m =>
    need (m.readBytes 0 n) (.outsideBuffer .out 0 n) fun b => k (some b.1)
  else k none

/-- Collect: the host reads the response, and the engine returns to `IDLE` (R87, R268). Entry 14. -/
def collect (s : State) : Result :=
  if s.engine.phase = .done then
    need s.engine.hostStatus (.emptyRegister .status) fun st =>
    need s.engine.hostOutLen (.emptyRegister .outLen) fun n =>
    withResponseOut s n fun out =>
    .next { s with engine := s.engine.collected, responses := s.responses ++ [⟨st, n, out⟩] }
  else .refused .nothingToCollect

/-- Discard of an abandoned command's response, unread: it counts as the collect (R274). -/
def discard (s : State) : Result :=
  if s.engine.phase = .done then .next { s with engine := s.engine.collected } else .refused .nothingToCollect

end Sys2Proof.Machine
end

