-- ==== Sys2Proof/Machine/Sequencer.lean ====
section
/-! DEFINITION. Which operation a step runs, what the host's acts do, and the machine over any configuration (10_state.md R30, R31). -/

namespace Sys2Proof.Machine

/-- The operation code the sequencer of a busy engine selects in its phase (R30, R83, R100, R120): the unit operations in `E2`, `D3`, `E3`, `D4`,
the command's own steps elsewhere; none in `IDLE` and `DONE`. -/
def Phase.selects : Phase → Option Byte
  | .idle => none
  | .e1 => some (opcode .encrypt)
  | .e2 => some (opcode .derive)
  | .e3 => some (opcode .sealOp)
  | .e4 => some (opcode .encrypt)
  | .d1 => some (opcode .decrypt)
  | .d2 => some (opcode .decrypt)
  | .d3 => some (opcode .derive)
  | .d4 => some (opcode .openOp)
  | .d5 => some (opcode .decrypt)
  | .done => none

/-- The fetch: the bytes of the operation the next engine step runs. A presented command comes first (R85), then the sequencer's choice. -/
def fetchOp (s : State) : ByteString :=
  match s.port with
  | some c => [c.op]
  | none =>
    match s.engine.phase.selects with
    | some op => [op]
    | none => []

/-- One engine step: the fetched operation is run; an engine with nothing to run stays as it is (entry 16). -/
def engineStep (run : Instr → State → Result) (s : State) : Result :=
  match decode (fetchOp s) with
  | .ok (i, _) => run i s
  | .error .noBytes => .next s
  | .error (.reservedOp op) => .refused (.reservedOp op)

/-- The turn passes to the next engine instance (R42, R283; entry 13). -/
def passTurn (s : State) : State :=
  match s.others with
  | [] => s
  | e :: rest => { s with engine := e, others := rest ++ [s.engine] }

/-- The turn passes after a step that answered a next state. -/
def passTurnAfter : Result → Result
  | .next t => .next (passTurn t)
  | .fault f => .fault f
  | .refused r => .refused r

/-- One act of the host (R10 a), already taken off the script. Where R303 asks for a random source before the first ENCRYPT and is silent on binding
another, rewinding or unbinding one later, the model lets the host do so at any step and in any phase, also with an engine waiting in `E1`: the source
bound when the engine makes its draws answers both (DESIGN CHOICE, entry 27). -/
def hostStep (run : Instr → State → Result) (a : HostAction) (s : State) : Result :=
  match a with
  | .present c => .next { s with port := some c }
  | .run => engineStep run s
  | .collect => collect s
  | .discard => discard s
  | .reset => .next (resetBlock s)
  | .bindRng src => .next { s with rng := src }
  | .turn => .next (passTurn s)

/-- One step of the machine, over the meaning `run` of operations: a presented command is issued or refused; else the host makes its next act; else, with
nothing planned, the engines run on by themselves (R60, R274): the one whose turn it is makes a step and passes the turn, so every instance keeps coming
to its turn and every command in flight goes on. The order among the instances is the model's (DESIGN CHOICE, entry 31). -/
def stepBy (run : Instr → State → Result) (s : State) : Result :=
  match s.port with
  | some _ => engineStep run s
  | none =>
    match s.script with
    | [] => passTurnAfter (engineStep run s)
    | a :: rest => hostStep run a { s with script := rest }

/-- The meaning of every operation at any value of the open parameters (R8). -/
def execWith (cfg : Config) : Instr → State → Result
  | .encrypt => encryptCommand cfg
  | .decrypt => decryptCommand cfg
  | .derive => deriveUnit cfg
  | .sealOp => sealUnit cfg
  | .openOp => openUnit cfg

/-- The step of the machine at any value of the open parameters (R8). -/
def stepWith (cfg : Config) (s : State) : Result := stepBy (execWith cfg) s

/-- The machine at any value of the open parameters, `N_ENGINES` among them (R8, R42). -/
def coreWith (cfg : Config) : Host.Core :=
  { State := State, Fault := Fault, Refusal := Refusal, step := stepWith cfg, reset := State.resetWith cfg }

/-- `n` steps, stopping at the first fault or refusal. -/
def runSteps (f : State → Result) : Nat → State → Result
  | 0, s => .next s
  | n + 1, s =>
    match f s with
    | .next t => runSteps f n t
    | .fault r => .fault r
    | .refused r => .refused r

/-! ## Placing one operation where the next step runs it -/

/-- The command tuple with code `op` whose other words are zeros (R84). -/
def zeroCommand (op : Byte) : Command := { op := op, ppLen := 0, inLen := 0, pp := [], inp := [] }

/-- An engine in the phase in which the sequencer invokes unit operation `i`, its operands all zeros or empty (R41, R91): `E2` for DERIVE, `E3` for
SEAL, and for OPEN `D4` with the shortest container. -/
def unitEngine : Instr → Engine
  | .encrypt => Engine.reset
  | .decrypt => Engine.reset
  | .derive =>
    { Engine.reset.loaded (zeroCommand (opcode .encrypt)) .e2 with salt := some (Bytes.zero 16), nonce := some (Bytes.zero 12) }
  | .sealOp =>
    { Engine.reset.loaded (zeroCommand (opcode .encrypt)) .e3 with
      salt := some (Bytes.zero 16), nonce := some (Bytes.zero 12), key := some (Bytes.zero 32) }
  | .openOp =>
    { Engine.reset.loaded ⟨opcode .decrypt, 0, 44, [], List.replicate 44 0⟩ .d4 with
      salt := some (Bytes.zero 16), nonce := some (Bytes.zero 12), key := some (Bytes.zero 32) }

/-- The state whose next step runs the operation `op`: a unit operation in the phase that invokes it; anything else presented at the port of an idle
engine (R83). -/
def placeOp (op : Byte) (s : State) : State :=
  match decodeOp op with
  | .ok i =>
    if i.hostIssued then { s with engine := Engine.reset, port := some (zeroCommand op) }
    else { s with engine := unitEngine i, port := none, script := .run :: s.script }
  | .error _ => { s with engine := Engine.reset, port := some (zeroCommand op) }

end Sys2Proof.Machine
end

