-- ==== Sys2Proof/Machine/Step.lean ====
section
/-! DEFINITION. The step of the machine. -/

namespace Sys2Proof.Machine

/-- One step: `stepBy` over the meanings of `exec`. -/
def step (s : State) : Host.Outcome State Fault Refusal := stepBy exec s

/-- `s` with the operation whose bits are `w` where the next step runs it (entry 9); an operation is one byte, the low one. -/
def State.withFetchWord (s : State) (_nbits w : Nat) : State := placeOp (BitVec.ofNat 8 w) s

end Sys2Proof.Machine
end

