-- ==== Sys2Proof/Machine/Reference.lean ====
section
/-! DEFINITION. The two functions a model must agree with (00_scope.md R17), the engine that holds a response, and the host's side of the passphrase
(20_memory.md R51, 30_encoding.md R90). -/

namespace Sys2Proof.Machine

/-- `Encrypt` as a pure function of `(M, P, salt draw, nonce draw)` (R17, R141); a draw that failed is `none`. -/
def refEncrypt (cfg : Config) (salt : Option (Bytes 16)) (nonce : Option (Bytes 12)) (m p : ByteString) :
    Except ErrorKind ByteString :=
  match salt, nonce with
  | some s, some n =>
    match deriveKey cfg p s.1 with
    | .ok k => .ok (containerOf s n (cfg.sealFn k n m).1)
    | .error e => .error e
  | _, _ => .error .randomSourceUnavailable

/-- `Decrypt` as a pure function of `(C, P)` (R17, R142): the function whose answer on a tampered container R150 speaks of. -/
def refDecrypt (cfg : Config) (c p : ByteString) : Except ErrorKind ByteString :=
  if h : 44 ≤ c.length then
    match deriveKey cfg p (containerSalt c h).1 with
    | .ok k =>
      match (cfg.openFn k (containerNonce c h) (containerSealOutput c)).map Subtype.val with
      | some r => .ok r
      | none => .error .decryptionFailed
    | .error e => .error e
  else .error .tooShort

/-- The engine at `DONE` with a given outcome: it holds the response and nothing else (R41, R87). -/
def responseEngine : Except ErrorKind ByteString → Engine
  | .ok b =>
    { Engine.reset with phase := .done, status := some statusOk, outLen := some b.length, out := some (Memory.ofBytes b) }
  | .error k => { Engine.reset with phase := .done, status := some k.code, outLen := some 0 }

/-- The response the host reads of an outcome (R87). -/
def responseOf : Except ErrorKind ByteString → Response
  | .ok b => ⟨statusOk, b.length, some b⟩
  | .error k => ⟨k.code, 0, none⟩

/-- A command tuple for given bytes (R84). -/
def commandOf (i : Instr) (p m : ByteString) : Command := ⟨opcode i, p.length, m.length, p, m⟩

/-- A command for a passphrase given as characters: `TEXT_ENCODING` is applied on the host side of the port (R51, R90, D21). -/
def commandOfText (cfg : Config) (i : Instr) (passphrase : List Char) (m : ByteString) : Command :=
  commandOf i (cfg.textEncoding passphrase) m

end Sys2Proof.Machine
end

