-- ==== Sys2Proof/Safety.lean ====
section
/-! DEFINITION. What holds of an engine in each phase (10_state.md R41), and what a safe run is. -/

namespace Sys2Proof.Machine

/-- The operands of a command that issue accepts (R85). -/
def Accepted (cfg : Config) (i : Instr) (p m : ByteString) : Prop :=
  p.length ≤ cfg.maxPassphraseLen ∧ m.length ≤ cfg.maxInputLen i

/-- An engine that has accepted a command and written nothing yet (R41, rows `E1` and `D1`). -/
def loadedEngine (i : Instr) (p m : ByteString) (ph : Phase) : Engine := Engine.reset.loaded (commandOf i p m) ph

/-- The same engine with the salt and the nonce (R41, rows `E2` and `D3`). -/
def saltedEngine (i : Instr) (p m : ByteString) (salt : Bytes 16) (nonce : Bytes 12) (ph : Phase) : Engine :=
  { loadedEngine i p m ph with salt := some salt, nonce := some nonce }

/-- The same engine with the key (R41, rows `E3` and `D4`). -/
def keyedEngine (cfg : Config) (i : Instr) (p m : ByteString) (salt : Bytes 16) (nonce : Bytes 12) (key : Bytes 32) (ph : Phase) : Engine :=
  { saltedEngine i p m salt nonce ph with key := some key, kdfWork := some (cfg.kdfWork p salt) }

/-- Which registers hold a value in which phase, and which value (R41): in each phase the engine holds exactly what the table lists, computed from
the command's operands as the rules say, and every other register holds `none`. -/
inductive EngineInv (cfg : Config) : Engine → Prop where
  | idle : EngineInv cfg Engine.reset
  | e1 (p m : ByteString) (h : Accepted cfg .encrypt p m) : EngineInv cfg (loadedEngine .encrypt p m .e1)
  | e2 (p m : ByteString) (salt : Bytes 16) (nonce : Bytes 12) (h : Accepted cfg .encrypt p m) :
      EngineInv cfg (saltedEngine .encrypt p m salt nonce .e2)
  | e3 (p m : ByteString) (salt : Bytes 16) (nonce : Bytes 12) (key : Bytes 32) (h : Accepted cfg .encrypt p m)
      (hk : deriveKey cfg p salt.1 = .ok key) : EngineInv cfg (keyedEngine cfg .encrypt p m salt nonce key .e3)
  | e4 (p m : ByteString) (salt : Bytes 16) (nonce : Bytes 12) (key : Bytes 32) (h : Accepted cfg .encrypt p m)
      (hk : deriveKey cfg p salt.1 = .ok key) :
      EngineInv cfg { keyedEngine cfg .encrypt p m salt nonce key .e4 with
        tag := some (sealTag (cfg.sealFn key nonce m)), staged := some (cfg.sealFn key nonce m).1,
        aeadWork := some (cfg.sealWork key nonce m) }
  | d1 (p c : ByteString) (h : Accepted cfg .decrypt p c) : EngineInv cfg (loadedEngine .decrypt p c .d1)
  | d2 (p c : ByteString) (h : Accepted cfg .decrypt p c) (hl : 44 ≤ c.length) : EngineInv cfg (loadedEngine .decrypt p c .d2)
  | d3 (p c : ByteString) (h : Accepted cfg .decrypt p c) (hl : 44 ≤ c.length) :
      EngineInv cfg (saltedEngine .decrypt p c (containerSalt c hl) (containerNonce c hl) .d3)
  | d4 (p c : ByteString) (key : Bytes 32) (h : Accepted cfg .decrypt p c) (hl : 44 ≤ c.length)
      (hk : deriveKey cfg p (containerSalt c hl).1 = .ok key) :
      EngineInv cfg (keyedEngine cfg .decrypt p c (containerSalt c hl) (containerNonce c hl) key .d4)
  | d5 (p c : ByteString) (key : Bytes 32) (r : Bytes ((containerSealOutput c).length - 16)) (h : Accepted cfg .decrypt p c)
      (hl : 44 ≤ c.length) (hk : deriveKey cfg p (containerSalt c hl).1 = .ok key)
      (hr : cfg.openFn key (containerNonce c hl) (containerSealOutput c) = some r) :
      EngineInv cfg { keyedEngine cfg .decrypt p c (containerSalt c hl) (containerNonce c hl) key .d5 with
        tag := some (cfg.openTag key (containerNonce c hl) (containerSealOutput c)), staged := some r.1,
        aeadWork := some (cfg.openWork key (containerNonce c hl) (containerSealOutput c)) }
  | done (r : Except ErrorKind ByteString) : EngineInv cfg (responseEngine r)

/-- The invariant of the block (R20, R41, R42): every instance holds what its phase says, and there are `N_ENGINES` of them. -/
structure State.Inv (cfg : Config) (s : State) : Prop where
  engine : EngineInv cfg s.engine
  others : ∀ e ∈ s.others, EngineInv cfg e
  count  : s.others.length + 1 = cfg.nEngines

/-- The buffers of an engine have the canonical form. -/
def Engine.BuffersWf (e : Engine) : Prop :=
  (∀ m, e.pp = some m → m.wf = true) ∧ (∀ m, e.inp = some m → m.wf = true) ∧ (∀ m, e.out = some m → m.wf = true)

/-- Every buffer of the block has the canonical form. -/
def State.BuffersWf (s : State) : Prop := s.engine.BuffersWf ∧ ∀ e ∈ s.others, e.BuffersWf

/-- `PP` holds the string `p` and `PP_LEN` its length (R35, R50). -/
def Engine.HoldsPassphrase (e : Engine) (p : ByteString) : Prop :=
  e.ppLen = some p.length ∧ ∃ m, e.pp = some m ∧ Memory.readBytes m 0 p.length = some ⟨p, rfl⟩

/-- `IN` holds the string `b` and `IN_LEN` its length (R35, R50). -/
def Engine.HoldsInput (e : Engine) (b : ByteString) : Prop :=
  e.inLen = some b.length ∧ ∃ m, e.inp = some m ∧ Memory.readBytes m 0 b.length = some ⟨b, rfl⟩

/-- The source answers both draws of an `ENCRYPT`: a salt, then a nonce (R65). -/
def RngSource.DrawsBoth (src : RngSource) (salt : Bytes 16) (nonce : Bytes 12) (after : RngSource) : Prop :=
  ∃ r, RngSource.draw 16 src = (.got salt, r) ∧ RngSource.draw 12 r = (.got nonce, after)

/-- One of the two draws fails; the second is asked for only after the first succeeded (R65, R141). -/
def RngSource.DrawFails (src after : RngSource) : Prop :=
  RngSource.draw 16 src = (.fail, after) ∨ ∃ salt r, RngSource.draw 16 src = (.got salt, r) ∧ RngSource.draw 12 r = (.fail, after)

/-- The source answers, with bytes or with failure, as often as an `ENCRYPT` asks it (R274). -/
def RngSource.Answers (src : RngSource) : Prop :=
  (∃ salt nonce after, src.DrawsBoth salt nonce after) ∨ ∃ after, src.DrawFails after

/-- The source answers its next `k` requests, whatever their lengths, with bytes or with failure (R274). -/
def RngSource.AnswersTimes : Nat → RngSource → Prop
  | 0, _ => True
  | k + 1, src => ∀ n : Nat, (RngSource.draw n src).1 ≠ .noAnswer ∧ RngSource.AnswersTimes k (RngSource.draw n src).2

/-- A safe run: however many steps are made, no model fault is met (R267, R21). -/
def Safe (s : State) : Prop := ∀ (n : Nat) (f : Fault), Host.Core.run Sys2Proof.core n s ≠ .fault f

end Sys2Proof.Machine
end

