-- ==== Sys2Proof/Certificates/Slice0/Obligations.lean ====
section
/-! DEFINITION. The statements for the provers. Each docstring names the rule of spec/ it rests on; where a statement rests on a choice of the model,
the docstring says so and names the log entry. -/

open Sys2Proof Sys2Proof.Machine

/-! ## Encoding -/

/-- Decoding the code of an operation gives the operation and the bytes after it (R83, R89). -/
def Obligations.DecodeOfEncode : Prop :=
  ∀ (i : Instr) (rest : ByteString), i.wf = true → decode (encode i ++ rest) = .ok (i, rest)

/-- Bytes that decode to an operation are that operation's code: no other value spells it (R83, R88). -/
def Obligations.DecodedBytesAreTheCode : Prop :=
  ∀ (b : ByteString) (i : Instr) (rest : ByteString), decode b = .ok (i, rest) → b = encode i ++ rest

/-- The five codes of the table (R83). -/
def Obligations.TableCodesDecode : Prop :=
  decode [0x01#8] = .ok (.encrypt, []) ∧ decode [0x02#8] = .ok (.decrypt, []) ∧ decode [0x10#8] = .ok (.derive, []) ∧
  decode [0x20#8] = .ok (.sealOp, []) ∧ decode [0x21#8] = .ok (.openOp, [])

/-! ## The step, issue and refusal -/

/-- A step runs the operation that was fetched: a presented command, or, with nothing presented, the operation the sequencer selects, whether the host
waits (`run`) or plans nothing (R30, R31; the host's script is the model's own, entry 9). With nothing planned the turn then passes to the next instance,
which is the model's order among several instances, entry 31; where there is one instance, the step is the operation alone. -/
def Obligations.StepRunsTheFetchedOperation : Prop :=
  ∀ (s : State) (i : Instr) (rest : ByteString), decode (fetchOp s) = .ok (i, rest) → i.wf = true →
    (s.port.isSome = true → step s = exec i s) ∧
    (s.port = none → s.script = [] → step s = passTurnAfter (exec i s)) ∧
    (s.port = none → s.script = [] → s.others = [] → step s = exec i s) ∧
    (∀ acts, s.port = none → s.script = .run :: acts → step s = exec i { s with script := acts })

/-- The machine is the generic machine at the default parameters (R8; entry 2). -/
def Obligations.StepIsTheDefaultMachine : Prop := ∀ s : State, step s = stepWith defaultConfig s

/-- A presented command of proper shape is accepted exactly when the four conditions of R85 hold; otherwise it is refused. -/
def Obligations.CommandAcceptedExactly : Prop :=
  ∀ (s : State) (c : Command), s.port = some c → c.ppShape = true → c.inShape = true →
    ((s.engine.phase = .idle ∧ c.ppLen ≤ defaultMaxPassphraseLen ∧
        ((c.op = 0x01#8 ∧ c.inLen ≤ defaultMaxPlaintextLen) ∨ (c.op = 0x02#8 ∧ c.inLen ≤ defaultMaxPlaintextLen + 44))) →
      ∃ t, step s = .next t ∧ t.engine.phase ≠ .idle) ∧
    (¬ (s.engine.phase = .idle ∧ c.ppLen ≤ defaultMaxPassphraseLen ∧
        ((c.op = 0x01#8 ∧ c.inLen ≤ defaultMaxPlaintextLen) ∨ (c.op = 0x02#8 ∧ c.inLen ≤ defaultMaxPlaintextLen + 44))) →
      ∃ r, step s = .refused r)

/-- A reserved code and a unit operation's code are refused at the host port, whatever the buffers and the phase (R88). Which reason the refusal names
where several hold, the code rather than a busy engine or a tuple that is too long, is the model's choice, entry 8. -/
def Obligations.OtherCodesAreRefused : Prop :=
  ∀ (s : State) (c : Command), s.port = some c →
    (c.op ∉ [0x01#8, 0x02#8, 0x10#8, 0x20#8, 0x21#8] → step s = .refused (.reservedOp c.op)) ∧
    (c.op ∈ [0x10#8, 0x20#8, 0x21#8] → step s = .refused .unitOpFromHost)

/-- ENCRYPT, issue: the tuple is taken by value and the sequencer goes to `E1`; nothing else changes (R33, R35, R52, R85). -/
def Obligations.EncryptIssueLoadsTheCommand : Prop :=
  ∀ (s : State) (p m : ByteString), s.port = some (commandOf .encrypt p m) → s.engine.phase = .idle →
    p.length ≤ defaultMaxPassphraseLen → m.length ≤ defaultMaxPlaintextLen →
    exec .encrypt s = .next { s with
      port := none
      engine := { s.engine with
        cmd := some 0x01#8, ppLen := some p.length, inLen := some m.length, pp := some (Memory.ofBytes p), inp := some (Memory.ofBytes m),
        phase := .e1 } }

/-- DECRYPT, issue: the same, to `D1` (R33, R35, R52, R85). -/
def Obligations.DecryptIssueLoadsTheCommand : Prop :=
  ∀ (s : State) (p c : ByteString), s.port = some (commandOf .decrypt p c) → s.engine.phase = .idle →
    p.length ≤ defaultMaxPassphraseLen → c.length ≤ defaultMaxPlaintextLen + 44 →
    exec .decrypt s = .next { s with
      port := none
      engine := { s.engine with
        cmd := some 0x02#8, ppLen := some p.length, inLen := some c.length, pp := some (Memory.ofBytes p), inp := some (Memory.ofBytes c),
        phase := .d1 } }

/-! ## ENCRYPT -/

/-- `E1`: the first answer goes to `SALT`, the second to `NONCE`, and the sequencer goes to `E2` (R141, R65). -/
def Obligations.EncryptDrawsSaltThenNonce : Prop :=
  ∀ (s : State) (salt : Bytes 16) (nonce : Bytes 12) (after : RngSource), s.port = none → s.engine.phase = .e1 →
    s.rng.DrawsBoth salt nonce after →
    exec .encrypt s = .next { s with
      rng := after, engine := { s.engine with salt := some salt, nonce := some nonce, phase := .e2 } }

/-- `E1`: a failed draw ends the command with `RandomSourceUnavailable` and no output; what was drawn is consumed (R141, R271, R265).
That `CMD` is emptied with the rest is the model's reading, entry 3. -/
def Obligations.EncryptFailedDrawEndsTheCommand : Prop :=
  ∀ (s : State) (after : RngSource), s.port = none → s.engine.phase = .e1 → s.rng.DrawFails after →
    exec .encrypt s = .next { s with
      rng := after
      engine := { Engine.reset with phase := .done, status := some 0x05#8, outLen := some 0 }
      completions := s.completions + 1 }

/-- `E4`: ENCRYPT completes: `OUT` is `Salt ∥ Nonce ∥ SealOutput`, `OUT_LEN` is `IN_LEN + 44`, `STATUS` is `OK`, and every other register and buffer
is emptied (R141, R266).
That `CMD` is emptied with the rest is the model's reading, entry 3. -/
def Obligations.EncryptCompletesWithTheContainer : Prop :=
  ∀ (s : State) (salt : Bytes 16) (nonce : Bytes 12) (x : ByteString) (n : Nat), s.port = none → s.engine.phase = .e4 →
    s.engine.salt = some salt → s.engine.nonce = some nonce → s.engine.inLen = some n → s.engine.staged = some x → x.length = n + 16 →
    exec .encrypt s = .next { s with
      engine := { Engine.reset with
        phase := .done, status := some 0x00#8, outLen := some (n + 44), out := some (Memory.ofBytes (salt.1 ++ nonce.1 ++ x)) }
      completions := s.completions + 1 }

/-- Which bytes `E4` leaves at which offset of `OUT`: the salt at 0, the nonce at 16, the SealOutput at 28, and nothing anywhere else (R80, R155). -/
def Obligations.EncryptStoresTheFieldsAtTheirOffsets : Prop :=
  ∀ (s t : State) (salt : Bytes 16) (nonce : Bytes 12) (x : ByteString), s.port = none → s.engine.phase = .e4 →
    s.engine.salt = some salt → s.engine.nonce = some nonce → s.engine.staged = some x → exec .encrypt s = .next t →
    ∀ a : Nat, t.engine.readByte .out a =
        (if a < 16 then salt.1[a]? else if a < 28 then nonce.1[a - 16]? else x[a - 28]?) ∧
      t.engine.readByte .pp a = none ∧ t.engine.readByte .inp a = none

/-! ## DECRYPT -/

/-- `D1`: under 44 bytes the command ends with `TooShort`, whatever the passphrase and without `KEY` being written; from 44 bytes on it goes to `D2`
(R142, R143, R152).
That `CMD` is emptied with the rest is the model's reading, entry 3. -/
def Obligations.DecryptChecksTheLengthFirst : Prop :=
  ∀ (s : State) (n : Nat), s.port = none → s.engine.phase = .d1 → s.engine.inLen = some n →
    (n < 44 → exec .decrypt s = .next { s with
      engine := { Engine.reset with phase := .done, status := some 0x01#8, outLen := some 0 }, completions := s.completions + 1 }) ∧
    (44 ≤ n → exec .decrypt s = .next { s with engine := { s.engine with phase := .d2 } })

/-- `D2`: `SALT` takes bytes 0 to 15 of the container, `NONCE` bytes 16 to 27 (R142, R82). -/
def Obligations.DecryptSlicesTheContainer : Prop :=
  ∀ (s : State) (c : ByteString) (h : 44 ≤ c.length), s.port = none → s.engine.phase = .d2 → s.engine.HoldsInput c →
    exec .decrypt s = .next { s with
      engine := { s.engine with
        salt := some ⟨c.take 16, by rw [List.length_take]; omega⟩
        nonce := some ⟨(c.drop 16).take 12, by rw [List.length_take, List.length_drop]; omega⟩
        phase := .d3 } }

/-- `D5`: DECRYPT completes: `OUT` is the plaintext unchanged, `OUT_LEN` is `IN_LEN - 44`, `STATUS` is `OK`, and every other register and buffer is
emptied (R142, R266).
That `CMD` is emptied with the rest is the model's reading, entry 3. -/
def Obligations.DecryptCompletesWithThePlaintext : Prop :=
  ∀ (s : State) (r : ByteString) (n : Nat), s.port = none → s.engine.phase = .d5 → s.engine.inLen = some n →
    s.engine.staged = some r → r.length = n - 44 →
    exec .decrypt s = .next { s with
      engine := { Engine.reset with
        phase := .done, status := some 0x00#8, outLen := some (n - 44), out := some (Memory.ofBytes r) }
      completions := s.completions + 1 }

/-- The two commands do in `E2`, `E3`, `D3` and `D4` what the unit operation invoked there does (R141, R142, R154). -/
def Obligations.CommandsInvokeTheUnitOperations : Prop :=
  ∀ s : State, s.port = none →
    (s.engine.phase = .e2 → exec .encrypt s = exec .derive s) ∧ (s.engine.phase = .e3 → exec .encrypt s = exec .sealOp s) ∧
    (s.engine.phase = .d3 → exec .decrypt s = exec .derive s) ∧ (s.engine.phase = .d4 → exec .decrypt s = exec .openOp s)

/-! ## DERIVE -/

/-- DERIVE writes `KEY` with `PBKDF2-HMAC-SHA-256(P, S, 100000, 32)` and its working state, and returns to the next phase; nothing else changes (R101,
R103, R181; that the working state is held on is entry 11, which SHA-256 variables it keeps is entry 32). -/
def Obligations.DeriveWritesTheKey : Prop :=
  ∀ (s : State) (p : ByteString) (salt : Bytes 16), s.port = none → s.engine.HoldsPassphrase p → s.engine.salt = some salt → p ≠ [] →
    (s.engine.phase = .e2 → exec .derive s = .next { s with
      engine := { s.engine with
        key := some (pbkdf2F p salt.1 100000 1), kdfWork := some (defaultKdfWork p salt), phase := .e3 } }) ∧
    (s.engine.phase = .d3 → exec .derive s = .next { s with
      engine := { s.engine with
        key := some (pbkdf2F p salt.1 100000 1), kdfWork := some (defaultKdfWork p salt), phase := .d4 } })

/-- DERIVE with an empty passphrase raises `EmptyPassphrase`, in either command, and derives nothing (R105, R101).
That `CMD` is emptied with the rest is the model's reading, entry 3. -/
def Obligations.DeriveRejectsTheEmptyPassphrase : Prop :=
  ∀ (s : State) (salt : Bytes 16), s.port = none → s.engine.phase = .e2 ∨ s.engine.phase = .d3 → s.engine.HoldsPassphrase [] →
    s.engine.salt = some salt →
    exec .derive s = .next { s with
      engine := { Engine.reset with phase := .done, status := some 0x04#8, outLen := some 0 }, completions := s.completions + 1 }

/-- DERIVE of arbitrary byte strings, at any parameters: the salt's length is tested first, the empty passphrase second and under the reject policy
only, and else the key is `Kdf(P, S)` (R101, R105). -/
def Obligations.DeriveTestsTheSaltFirst : Prop :=
  ∀ (cfg : Config) (p s : ByteString),
    (s.length ≠ 16 → deriveKey cfg p s = .error .invalidSalt) ∧
    (s.length = 16 → p = [] → cfg.emptyPassphrasePolicy = .reject → deriveKey cfg p s = .error .emptyPassphrase) ∧
    (∀ h : s.length = 16, (p ≠ [] ∨ cfg.emptyPassphrasePolicy = .accept) → deriveKey cfg p s = .ok (cfg.kdf p ⟨s, h⟩))

/-! ## SEAL and OPEN -/

/-- SEAL computes the ciphertext and the tag of the whole input, writes `TAG`, stages `Ct ∥ T` and goes to `E4`; nothing else changes (R121, R224; the
working state it leaves is entry 11). -/
def Obligations.SealWritesTheTagAndStagesTheOutput : Prop :=
  ∀ (s : State) (key : Bytes 32) (nonce : Bytes 12) (m : ByteString), s.port = none → s.engine.phase = .e3 →
    s.engine.key = some key → s.engine.nonce = some nonce → s.engine.HoldsInput m →
    exec .sealOp s = .next { s with
      engine := { s.engine with
        tag := some (gcmTag key nonce (gcmCrypt key nonce m))
        staged := some (gcmCrypt key nonce m ++ (gcmTag key nonce (gcmCrypt key nonce m)).1)
        aeadWork := some (gcmSealWork key nonce m)
        phase := .e4 } }

/-- OPEN of a container whose tag is the recomputed one: `TAG` takes the recomputed tag, the plaintext is staged, and the sequencer goes to `D5`; nothing
else changes (R122, R225; the working state it leaves is entry 11). -/
def Obligations.OpenStagesTheVerifiedPlaintext : Prop :=
  ∀ (s : State) (key : Bytes 32) (nonce : Bytes 12) (c : ByteString), s.port = none → s.engine.phase = .d4 → 44 ≤ c.length →
    s.engine.key = some key → s.engine.nonce = some nonce → s.engine.HoldsInput c →
    (gcmTag key nonce (containerCiphertext c)).1 = containerTag c →
    exec .openOp s = .next { s with
      engine := { s.engine with
        tag := some (gcmTag key nonce (containerCiphertext c))
        staged := some (gcmCrypt key nonce (containerCiphertext c))
        aeadWork := some (gcmOpenWork key nonce (c.drop 28))
        phase := .d5 } }

/-- OPEN of a container whose tag is not the recomputed one: the command ends with `DecryptionFailed`, without a byte of plaintext (R122, R127, R128,
R144).
That `CMD` is emptied with the rest is the model's reading, entry 3. -/
def Obligations.OpenFailsOnAnotherTag : Prop :=
  ∀ (s : State) (key : Bytes 32) (nonce : Bytes 12) (c : ByteString), s.port = none → s.engine.phase = .d4 → 44 ≤ c.length →
    s.engine.key = some key → s.engine.nonce = some nonce → s.engine.HoldsInput c →
    (gcmTag key nonce (containerCiphertext c)).1 ≠ containerTag c →
    exec .openOp s = .next { s with
      engine := { Engine.reset with phase := .done, status := some 0x02#8, outLen := some 0 }, completions := s.completions + 1 }

/-! ## Frames -/

/-- Frame of the unit operations while the command goes on: beside `PHASE`, DERIVE changes `KEY` and its working state, SEAL and OPEN change `TAG`, the
staged result and theirs; every other register and every byte of every buffer stays (R103, R121, R122). That the working state an operation left stays
through the operations after it, the key derivation's through SEAL and OPEN, is the model's choice, entry 11. -/
def Obligations.UnitOperationFrame : Prop :=
  ∀ (i : Instr) (s t : State), i.hostIssued = false → exec i s = .next t → t.engine.phase ≠ .done →
    (∀ (sp : Space) (a : Nat), t.engine.readByte sp a = s.engine.readByte sp a) ∧
    t.engine.salt = s.engine.salt ∧ t.engine.nonce = s.engine.nonce ∧ t.engine.cmd = s.engine.cmd ∧ t.engine.status = s.engine.status ∧
    t.engine.ppLen = s.engine.ppLen ∧ t.engine.inLen = s.engine.inLen ∧ t.engine.outLen = s.engine.outLen ∧
    (i ≠ .derive → t.engine.key = s.engine.key ∧ t.engine.kdfWork = s.engine.kdfWork) ∧
    (i = .derive → t.engine.tag = s.engine.tag ∧ t.engine.staged = s.engine.staged ∧ t.engine.aeadWork = s.engine.aeadWork) ∧
    t.rng = s.rng ∧ t.completions = s.completions

/-- Frame of ENCRYPT and DECRYPT in their own phases while the command goes on: beside `PHASE`, only `SALT` and `NONCE` change, and those only in `E1` and
`D2`; every byte of every buffer stays, and only `E1` uses the random source (R141, R142, R155). -/
def Obligations.CommandStepFrame : Prop :=
  ∀ (i : Instr) (s t : State), i.hostIssued = true → s.port = none → s.engine.phase ∈ [Phase.e1, .e4, .d1, .d2, .d5] →
    exec i s = .next t → t.engine.phase ≠ .done →
    (∀ (sp : Space) (a : Nat), t.engine.readByte sp a = s.engine.readByte sp a) ∧
    t.engine.key = s.engine.key ∧ t.engine.tag = s.engine.tag ∧ t.engine.cmd = s.engine.cmd ∧ t.engine.status = s.engine.status ∧
    t.engine.ppLen = s.engine.ppLen ∧ t.engine.inLen = s.engine.inLen ∧ t.engine.outLen = s.engine.outLen ∧
    t.engine.staged = s.engine.staged ∧ t.engine.kdfWork = s.engine.kdfWork ∧ t.engine.aeadWork = s.engine.aeadWork ∧
    (s.engine.phase ≠ .e1 → s.engine.phase ≠ .d2 → t.engine.salt = s.engine.salt ∧ t.engine.nonce = s.engine.nonce) ∧
    (s.engine.phase ≠ .e1 → t.rng = s.rng) ∧ t.completions = s.completions

/-- However a command ends, its last step empties the engine but for the response, signals completion once, and touches nothing else; only a failed draw
touches the random source (R29, R41, R265, R266, R273).
That `CMD` is emptied with the rest is the model's reading, entry 3. -/
def Obligations.LastStepLeavesOnlyTheResponse : Prop :=
  ∀ (i : Instr) (s t : State), exec i s = .next t → t.engine.phase = .done →
    (∃ r, t.engine = responseEngine r) ∧ t.completions = s.completions + 1 ∧ (s.engine.phase ≠ .e1 → t.rng = s.rng)

/-- No operation of one engine instance changes another instance, and none depends on one (R42; the script and the collected responses are the model's
own, entry 9, and stay too). -/
def Obligations.OtherInstancesAreIndependent : Prop :=
  ∀ (i : Instr) (s t : State), exec i s = .next t →
    t.others = s.others ∧ t.script = s.script ∧ t.responses = s.responses ∧
    ∀ es : List Engine, exec i { s with others := es } = .next { t with others := es }

/-- How `PHASE` advances: every operation that answers takes one row of the table of R31, but for the wait in `E1` on a source that does not answer (R274).
That such a wait changes nothing at all, so that a first answer stays unread until the second is there, is the model's choice, entry 6. -/
def Obligations.PhaseFollowsTheTable : Prop :=
  ∀ (i : Instr) (s t : State), exec i s = .next t →
    (s.engine.phase, t.engine.phase) ∈
      [(Phase.idle, Phase.e1), (.idle, .d1), (.e1, .e2), (.e1, .done), (.e2, .e3), (.e2, .done), (.e3, .e4), (.e4, .done), (.d1, .d2),
       (.d1, .done), (.d2, .d3), (.d3, .d4), (.d3, .done), (.d4, .d5), (.d4, .done), (.d5, .done)] ∨
    (s.engine.phase = .e1 ∧ t = s)

/-- Which status a command can end with, by the phase it ends in: an ENCRYPT with `OK`, `EmptyPassphrase` or `RandomSourceUnavailable`, a DECRYPT with
`OK`, `TooShort`, `EmptyPassphrase` or `DecryptionFailed`; neither with `InvalidSalt` (R263, R106). -/
def Obligations.StatusOfEachCommand : Prop :=
  ∀ (i : Instr) (s t : State), exec i s = .next t → t.engine.phase = .done →
    (s.engine.phase ∈ [Phase.e1, .e2, .e3, .e4] → t.engine.status ∈ [some 0x00#8, some 0x04#8, some 0x05#8]) ∧
    (s.engine.phase ∈ [Phase.d1, .d2, .d3, .d4, .d5] →
      t.engine.status ∈ [some 0x00#8, some 0x01#8, some 0x02#8, some 0x04#8])

/-- A failure carries its kind and nothing else: two commands that fail with the same status leave the same engine, so no cause, input or working state
shows (R262, R127).
That the engines agree in `CMD` too, an ENCRYPT's and a DECRYPT's, is the model's reading that `CMD` is emptied with the rest, entry 3. -/
def Obligations.FailureCarriesOnlyItsKind : Prop :=
  ∀ (i j : Instr) (s s' t t' : State), exec i s = .next t → exec j s' = .next t' → t.engine.phase = .done → t'.engine.phase = .done →
    t.engine.status = t'.engine.status → t.engine.status ≠ some 0x00#8 → t.engine = t'.engine

/-! ## The end of a command and the way back -/

/-- `raise E`, in any phase and whatever the engine holds: the staged output and the working state are discarded, every register and buffer the rule
names is emptied, `OUT_LEN` is 0, `STATUS` is the code of `E`, `PHASE` is `DONE`, and completion is signalled (R265, with the codes of R86). The rule
does not name `CMD`, and this statement leaves its value open. -/
def Obligations.RaiseEndsTheCommand : Prop :=
  ∀ (k : ErrorKind) (s : State), ∃ c : Option Byte,
    raise k s = .next { s with
      engine :=
        { salt := none, nonce := none, key := none, tag := none, pp := none, inp := none, out := none, cmd := c, phase := .done,
          status := some (match k with
            | .tooShort => 0x01#8
            | .decryptionFailed => 0x02#8
            | .invalidSalt => 0x03#8
            | .emptyPassphrase => 0x04#8
            | .randomSourceUnavailable => 0x05#8),
          ppLen := none, inLen := none, outLen := some 0, staged := none, kdfWork := none, aeadWork := none }
      completions := s.completions + 1 }

/-- Collect hands over the response and puts the engine into its reset state (R268, R87; the list of collected responses is the model's own, entry 17). -/
def Obligations.CollectReturnsTheResponse : Prop :=
  ∀ (s : State) (r : Except ErrorKind ByteString) (acts : List HostAction), s.port = none → s.script = .collect :: acts →
    s.engine = responseEngine r →
    step s = .next { s with script := acts, engine := Engine.reset, responses := s.responses ++ [responseOf r] }

/-- Discarding an abandoned command's response frees the engine as collecting it does (R274). -/
def Obligations.DiscardFreesTheEngine : Prop :=
  ∀ (s : State) (r : Except ErrorKind ByteString) (acts : List HostAction), s.port = none → s.script = .discard :: acts →
    s.engine = responseEngine r → step s = .next { s with script := acts, engine := Engine.reset }

/-- A finished command stays until it is collected, discarded or reset; only the turn can pass on, and the engine then stands unchanged behind the others
(R268, R274; that the instances stand in a ring is the model's own, entry 13). -/
def Obligations.DoneWaitsForTheHost : Prop :=
  ∀ (s t : State), s.engine.phase = .done → step s = .next t →
    t.engine = s.engine ∨ (∃ e es, s.others = e :: es ∧ t.engine = e ∧ t.others = es ++ [s.engine]) ∨
    ∃ a acts, s.script = a :: acts ∧ a ∈ [HostAction.collect, .discard, .reset]

/-- Reset, at any state in which no command is presented and whatever its engines do, puts every instance into the reset state and reports nothing (R300,
R301). That the random source, the collected responses, the completion count and the host's script stay as they are is the model's choice, entry 25. -/
def Obligations.ResetEmptiesEveryInstance : Prop :=
  ∀ (s : State) (acts : List HostAction), s.port = none → s.script = .reset :: acts →
    ∃ t, step s = .next t ∧ (∀ e ∈ t.engine :: t.others, e = Engine.reset) ∧ t.others.length = s.others.length ∧
      t.responses = s.responses ∧ t.completions = s.completions ∧ t.rng = s.rng ∧ t.script = acts

/-- The reset values: `PHASE` is `IDLE`, the flags are 0, every register, buffer and working state is `none` (R40). -/
def Obligations.ResetValues : Prop :=
  Engine.reset =
    { salt := none, nonce := none, key := none, tag := none, pp := none, inp := none, out := none, cmd := none, phase := .idle,
      status := none, ppLen := none, inLen := none, outLen := none, staged := none, kdfWork := none, aeadWork := none } ∧
  Engine.reset.busyFlag = false ∧ Engine.reset.doneFlag = false ∧ Engine.reset.outValidFlag = false ∧
  State.reset.engine = Engine.reset ∧ ∀ e ∈ State.reset.others, e = Engine.reset

/-- The three flags are exactly the functions of `PHASE` and `STATUS` that R32 gives. -/
def Obligations.FlagsFollowPhaseAndStatus : Prop :=
  ∀ e : Engine,
    (e.busyFlag = true ↔ e.phase ≠ .idle ∧ e.phase ≠ .done) ∧ (e.doneFlag = true ↔ e.phase = .done) ∧
    (e.outValidFlag = true ↔ e.phase = .done ∧ e.status = some 0x00#8)

/-- While `OUT_VALID = 0` a host read of `OUT` returns nothing at any offset (R57). -/
def Obligations.OutIsGatedByOutValid : Prop :=
  ∀ e : Engine, e.outValidFlag = false → e.hostOut = none ∧ ∀ off : Nat, e.hostOutByte off = none

/-- The host sees none of `PP`, `IN`, `SALT`, `NONCE`, `KEY`, `TAG`, `CMD`, the staged result or the working state, and cannot tell one busy phase from
another (R27, R108). -/
def Obligations.HostViewHidesTheInside : Prop :=
  ∀ (e f : Engine), e.status = f.status → e.outLen = f.outLen → e.out = f.out →
    (e.phase = f.phase ∨ (e.busyFlag = true ∧ f.busyFlag = true)) → e.hostView = f.hostView

/-! ## Whole commands and whole runs -/

/-- A whole ENCRYPT on an idle engine, at any parameters: it ends with the response that the pure function of R17 gives for the two draws; a failed draw
gives `RandomSourceUnavailable` (R141, R17, R264). Where the host waits for it step by step, beside any other instances, or where the block has this one
instance and nothing is planned, five steps from its presentation lead there and change nothing else. Where nothing is planned and other instances, busy
or not, take their turns, it holds that response after five turns of every instance, if the source answers the others too (R42, R274).
That `CMD` is emptied with the rest at `DONE` is the model's reading, entry 3; the order of the turns is its choice, entries 13 and 31. -/
def Obligations.EncryptRunAgreesWithTheFunction : Prop :=
  ∀ (cfg : Config) (s : State) (p m : ByteString), s.engine = Engine.reset → s.port = some (commandOf .encrypt p m) →
    Accepted cfg .encrypt p m →
    (∀ (r : Except ErrorKind ByteString) (after : RngSource),
      ((∃ salt nonce, s.rng.DrawsBoth salt nonce after ∧ r = refEncrypt cfg (some salt) (some nonce) m p) ∨
        (s.rng.DrawFails after ∧ r = .error .randomSourceUnavailable)) →
      ((s.script = [.run, .run, .run, .run] ∨ (s.script = [] ∧ s.others = [])) →
        runSteps (stepWith cfg) 5 s = .next { s with
          port := none, script := [], rng := after, engine := responseEngine r, completions := s.completions + 1 }) ∧
      (s.script = [] → (∀ e ∈ s.others, EngineInv cfg e) → after.AnswersTimes (2 * s.others.length) →
        ∃ t, runSteps (stepWith cfg) (5 * (s.others.length + 1) + 1) s = .next t ∧ t.engine = responseEngine r))

/-- A whole DECRYPT on an idle engine, at any parameters and on any input within the bounds, hostile or not: it ends with the response of the pure function
of R17, and no random source is used (R142, R17, R146). Where the host waits for it step by step, beside any other instances, or where the block has this
one instance and nothing is planned, six steps from its presentation lead there and change nothing else. Where nothing is planned and other instances,
busy or not, take their turns, it holds that response after five turns of every instance, if the source answers the others (R42, R274).
That `CMD` is emptied with the rest at `DONE` is the model's reading, entry 3; the order of the turns is its choice, entries 13 and 31. -/
def Obligations.DecryptRunAgreesWithTheFunction : Prop :=
  ∀ (cfg : Config) (s : State) (p c : ByteString), s.engine = Engine.reset → s.port = some (commandOf .decrypt p c) →
    Accepted cfg .decrypt p c →
    ((s.script = [.run, .run, .run, .run, .run] ∨ (s.script = [] ∧ s.others = [])) →
      runSteps (stepWith cfg) 6 s = .next { s with
        port := none, script := [], engine := responseEngine (refDecrypt cfg c p), completions := s.completions + 1 }) ∧
    (s.script = [] → (∀ e ∈ s.others, EngineInv cfg e) → s.rng.AnswersTimes (2 * s.others.length) →
      ∃ t, runSteps (stepWith cfg) (5 * (s.others.length + 1) + 1) s = .next t ∧ t.engine = responseEngine (refDecrypt cfg c p))

/-- Round trip on the machine, at any parameters whose cipher opens what it sealed (R123) and for all answers of the random source: the host encrypts,
collects, decrypts the container it collected with the same passphrase, and collects the message; the engine is back in its reset state (R147, R268,
R313). -/
def Obligations.EncryptThenDecryptRoundTrip : Prop :=
  ∀ (cfg : Config), cfg.RoundTripLaw → ∀ (s : State) (p m : ByteString) (salt : Bytes 16) (nonce : Bytes 12) (after : RngSource) (key : Bytes 32),
    Accepted cfg .encrypt p m → s.rng.DrawsBoth salt nonce after → deriveKey cfg p salt.1 = .ok key →
    s.engine = Engine.reset → s.port = none →
    s.script = [.present (commandOf .encrypt p m), .run, .run, .run, .run, .collect,
      .present (commandOf .decrypt p (containerOf salt nonce (cfg.sealFn key nonce m).1)), .run, .run, .run, .run, .run, .collect] →
    runSteps (stepWith cfg) 15 s = .next { s with
      script := [], rng := after, completions := s.completions + 2
      responses := s.responses ++
        [responseOf (.ok (containerOf salt nonce (cfg.sealFn key nonce m).1)), responseOf (.ok m)] }

/-- An engine is never stuck (R274). From any busy state of the invariant, if the random source answers, at most five steps lead to `DONE`. And in a block of
any number of instances, with nothing planned and a source that answers every draw the commands can still make: after five turns of every instance, each
that was busy is at `DONE` and each that was not stands unchanged. That the instances take their turns one after the other is the model's order, entry
31. -/
def Obligations.BusyEngineReachesDone : Prop :=
  (∀ s : State, s.Inv defaultConfig → s.engine.busyFlag = true → s.port = none → s.script = [] → s.rng.Answers →
    ∃ t, runSteps step 5 s = .next t ∧ t.engine.phase = .done) ∧
  (∀ (cfg : Config) (s : State), s.Inv cfg → s.port = none → s.script = [] → s.rng.AnswersTimes (2 * (s.others.length + 1)) →
    ∃ t, runSteps (stepWith cfg) (5 * (s.others.length + 1)) s = .next t ∧
      List.Forall₂ (fun e e' : Engine => if e.busyFlag = true then e'.phase = .done else e' = e)
        (s.engine :: s.others) (t.engine :: t.others))

/-- Which registers hold a value in which phase, and which value, is an invariant of every step (R41, R20, R42).
That working state is held on is entry 11, and that `CMD` is empty at `DONE` is entry 3. -/
def Obligations.StepKeepsTheInvariant : Prop :=
  ∀ s t : State, s.Inv defaultConfig → step s = .next t → t.Inv defaultConfig

/-- The reset state of a block of any number of instances satisfies the invariant: there are `N_ENGINES` of them and each is idle and empty (R8, R40, R41,
R42). The reset state of the machine that `step` runs is the one of the default parameters. -/
def Obligations.ResetSatisfiesTheInvariant : Prop :=
  (∀ cfg : Config, 1 ≤ cfg.nEngines → (State.resetWith cfg).Inv cfg) ∧ State.reset = State.resetWith defaultConfig ∧
  State.reset.Inv defaultConfig

/-- No run from a state of the invariant ever meets a model fault: no register is read while it holds `none`, and no access leaves its buffer (R21, R146,
R267). -/
def Obligations.InvariantRunsNeverFault : Prop := ∀ s : State, s.Inv defaultConfig → Safe s

/-- Every step keeps every buffer in its canonical form (R50; entry 10). -/
def Obligations.StepKeepsBuffersCanonical : Prop := ∀ s t : State, s.BuffersWf → step s = .next t → t.BuffersWf

/-! ## The two functions -/

/-- The round-trip law of the two functions, at any parameters whose cipher opens what it sealed (R147, which rests on R123). -/
def Obligations.DecryptUndoesEncrypt : Prop :=
  ∀ (cfg : Config), cfg.RoundTripLaw → ∀ (salt : Bytes 16) (nonce : Bytes 12) (m p c : ByteString),
    refEncrypt cfg (some salt) (some nonce) m p = .ok c → refDecrypt cfg c p = .ok m

/-- The length law: a container that `Encrypt` makes is 44 bytes longer than the plaintext (R149). -/
def Obligations.ContainerLength : Prop :=
  ∀ (cfg : Config) (salt : Option (Bytes 16)) (nonce : Option (Bytes 12)) (m p c : ByteString),
    refEncrypt cfg salt nonce m p = .ok c → c.length = m.length + 44

/-- Two runs of `Encrypt` on the same message and passphrase give different containers exactly when they drew a different salt or a different nonce
(R148). -/
def Obligations.ContainersDifferExactlyWhenTheDrawsDo : Prop :=
  ∀ (cfg : Config) (salt salt' : Bytes 16) (nonce nonce' : Bytes 12) (m p c c' : ByteString),
    refEncrypt cfg (some salt) (some nonce) m p = .ok c → refEncrypt cfg (some salt') (some nonce') m p = .ok c' →
    (c ≠ c' ↔ salt ≠ salt' ∨ nonce ≠ nonce')

/-! ## The default algorithms -/

/-- The default parameters obey what the rules say of the parameters: AES-256-GCM opens what it sealed (R123, R229) and fails exactly on another tag (R225),
UTF-8 is injective (R67), and there is an engine (R8). The list of laws is the model's own, entry 26; no statement assumes them of other parameters. -/
def Obligations.DefaultParametersAreLawful : Prop := defaultConfig.Lawful

/-- Counter mode under the same key and initial counter block undoes itself, for strings of any length (R222). -/
def Obligations.CounterModeIsAnInvolution : Prop :=
  ∀ (w : List Word32) (icb : Block) (x : ByteString), gctr w icb (gctr w icb x) = x

/-- What tampering provably does to the default `Open`, for every input (R230, the exact part of R150). (a) A change confined to the tag makes it
fail. (b) A change of the ciphertext that keeps its length and is confined to one 16-byte block, `x` to `x'` at a block's place, changes the hash `S`
by `d • H^k` for some `d ≠ 0` and `k ≥ 2`, which is not zero exactly when `H ≠ 0`; so `Open` fails whenever `H ≠ 0`. (c) Under a key with `H = 0` the hash
of every ciphertext is zero and the tag is `E_K(J0)`; and `Open` accepts a ciphertext with that tag exactly when its hash is zero. -/
def Obligations.ExactTamperingLaws : Prop :=
  (∀ (k : Bytes 32) (n : Bytes 12) (ct : ByteString) (t : Bytes 16), t ≠ gcmTag k n ct → gcmOpen k n (ct ++ t.1) = none) ∧
  (∀ (w : List Word32) (pre x x' post : ByteString), pre.length % 16 = 0 → x.length ≤ 16 → x'.length = x.length → x' ≠ x →
    ∃ (d : Block) (k : Nat), d ≠ 0 ∧ 2 ≤ k ∧
      gcmS w (pre ++ x' ++ post) = gcmS w (pre ++ x ++ post) ^^^ (fun y => gf128Mul y (gcmH w))^[k] d ∧
      ((fun y => gf128Mul y (gcmH w))^[k] d ≠ 0 ↔ gcmH w ≠ 0)) ∧
  (∀ (k : Bytes 32) (n : Bytes 12) (pre x x' post : ByteString), pre.length % 16 = 0 → x.length ≤ 16 → x'.length = x.length → x' ≠ x →
    gcmH (keySchedule k) ≠ 0 → gcmOpen k n (pre ++ x' ++ post ++ (gcmTag k n (pre ++ x ++ post)).1) = none) ∧
  (∀ (w : List Word32) (n : Bytes 12) (ct : ByteString), gcmH w = 0 → gcmS w ct = 0 ∧ gcmTagBlock w n ct = aesWith w (gcmJ0 n)) ∧
  (∀ (k : Bytes 32) (n : Bytes 12) (ct : ByteString),
    (gcmOpen k n (ct ++ (blockBytes (aesWith (keySchedule k) (gcmJ0 n))).1)).isSome = true ↔ gcmS (keySchedule k) ct = 0)

/-- The product in GF(2^128): the block `80 00 … 00` is its identity, and it distributes over exclusive or (R220, R218). -/
def Obligations.BlockProductIdentityAndDistributivity : Prop :=
  ∀ x y z : Block, gf128Mul 0x80000000000000000000000000000000#128 y = y ∧
    gf128Mul (x ^^^ z) y = gf128Mul x y ^^^ gf128Mul z y ∧ gf128Mul y (x ^^^ z) = gf128Mul y x ^^^ gf128Mul y z

/-- The S-box table is the one its defining formula gives: `b` is the inverse of `a` in GF(2^8), `00` for `00`, and each bit of the entry is the exclusive
or of five bits of `b` and a bit of `63` (R212). -/
def Obligations.SboxFollowsItsFormula : Prop :=
  ∀ a : Byte, ∃ b : Byte, ((a = 0x00#8 ∧ b = 0x00#8) ∨ gf8Mul a b = 0x01#8) ∧
    ∀ i : Nat, i < 8 →
      (sbox a).getLsbD i =
        (b.getLsbD i ^^ b.getLsbD ((i + 4) % 8) ^^ b.getLsbD ((i + 5) % 8) ^^ b.getLsbD ((i + 6) % 8) ^^ b.getLsbD ((i + 7) % 8) ^^
          (0x63#8).getLsbD i)

/-- The block function of PBKDF2: `U_1` is the HMAC of the salt and the block index, each `U_j` the HMAC of the one before, and `F` with `c` iterations is
the exclusive or of `U_1` to `U_c` (R179). -/
def Obligations.BlockFunctionXorsTheIterates : Prop :=
  ∀ (p s : ByteString) (i : Nat), ∃ u : Nat → Bytes 32,
    u 1 = hmac p (s ++ (be32 i).1) ∧ (∀ j : Nat, 1 ≤ j → u (j + 1) = hmac p (u j).1) ∧
    pbkdf2F p s 1 i = u 1 ∧ ∀ c : Nat, 1 ≤ c → pbkdf2F p s (c + 1) i = (pbkdf2F p s c i).xor (u (c + 1))

/-- PBKDF2 is the first `dkLen` bytes of the blocks from index 1 on; 32 bytes are exactly the first block, whose index is written `00 00 00 01` (R180). -/
def Obligations.DerivedKeyIsTheFirstBytesOfTheBlocks : Prop :=
  ∀ (p s : ByteString) (c : Nat),
    (∀ dkLen : Nat, dkLen ≤ (2 ^ 32 - 1) * 32 →
      pbkdf2 p s c dkLen = ((List.range ((dkLen + 31) / 32)).flatMap fun i => (pbkdf2F p s c (i + 1)).1).take dkLen) ∧
    pbkdf2 p s c 32 = (pbkdf2F p s c 1).1 ∧ (be32 1).1 = [0x00#8, 0x00#8, 0x00#8, 0x01#8]

/-- The default `Kdf` is not injective: a zero byte appended to a passphrase under 64 bytes, and a passphrase over 64 bytes against its SHA-256, give the
same key (R185). -/
def Obligations.KeyCollisionsOfTheDefaultKdf : Prop :=
  ∀ (p : ByteString) (s : Bytes 16),
    (p.length < 64 → defaultKdf (p ++ [0x00#8]) s = defaultKdf p s) ∧
    (64 < p.length → defaultKdf p s = defaultKdf (sha256 p).1 s)

/-- The padded message is the message, the byte `80`, the fewest zero bytes that make whole 64-byte blocks, `(55 - L) mod 64` of them, and the length in
bits as 8 bytes (R175). -/
def Obligations.ShaPaddingIsTheShortest : Prop :=
  ∀ m : ByteString, ∃ k : Nat,
    (m.length + 1 + k + 8) % 64 = 0 ∧ (∀ j : Nat, j < k → (m.length + 1 + j + 8) % 64 ≠ 0) ∧ (k : Int) = (55 - (m.length : Int)) % 64 ∧
    shaPad m = m ++ [0x80#8] ++ List.replicate k 0x00#8 ++ (be64 (8 * m.length)).1 ∧ (shaPad m).length % 64 = 0

/-! ## The random-source port -/

/-- A substitute's stream is cut in request order, 16 bytes to the salt and the next 12 to the nonce; an answer of any other length counts as a failure
(R65); with no source bound every request fails, and so do the draws of an ENCRYPT (R303). That an answer of another length is consumed is the model's
choice, entry 7. -/
def Obligations.SubstituteStreamIsCutInOrder : Prop :=
  (∀ (salt : Bytes 16) (nonce : Bytes 12) (rest : ByteString),
    (RngSource.substitute (salt.1 ++ nonce.1 ++ rest)).DrawsBoth salt nonce (.substitute rest)) ∧
  (∀ (n : Nat) (b : ByteString) (rest : List RngAnswer), b.length ≠ n →
    RngSource.draw n (.scripted (.bytes b :: rest)) = (.fail, .scripted rest)) ∧
  (∀ n : Nat, RngSource.draw n .unbound = (.fail, .unbound)) ∧ RngSource.unbound.DrawFails .unbound
end

