-- ==== Sys2Proof/Laws/BlockField.lean ====
section
/-! SUPPORT. Laws of the product of blocks (44_aead_reference_aes_gcm.md R220): it is additive in each factor, commutative and associative, has the identity
`80 00 … 00`, and is zero only where a factor is. The last law is proved by two computations of the kernel: raising to the power 2^128 fixes every block, and
only 0 and 1 are their own square. Of a block `a` other than 0, then, the power `2^128 - 1` is its own square and not 0, so it is 1. -/

namespace Sys2Proof.Machine

/-! ## Additivity -/

/-- The identity of the product: the polynomial 1 (R218). -/
def blockOne : Block := 0x80000000000000000000000000000000#128

/-- Multiplication by `x`: one place toward bit 127, reduced (R220). -/
def timesX (v : Block) : Block := if v.getLsbD 0 then (v >>> 1) ^^^ gcmR else v >>> 1

theorem gf128Loop_succ (x : Block) (n : Nat) (z v : Block) :
    gf128Loop x (n + 1) z v = gf128Loop x n (if x.getLsbD n then z ^^^ v else z) (timesX v) := rfl

theorem timesX_xor (v w : Block) : timesX (v ^^^ w) = timesX v ^^^ timesX w := by
  have h : (v ^^^ w) >>> 1 = v >>> 1 ^^^ w >>> 1 := by ext i; simp
  simp only [timesX, BitVec.getLsbD_xor, h]
  cases v.getLsbD 0 <;> cases w.getLsbD 0 <;> simp
  · ac_rfl
  · ac_rfl
  · rw [show v >>> 1 ^^^ gcmR ^^^ (w >>> 1 ^^^ gcmR) = v >>> 1 ^^^ w >>> 1 ^^^ (gcmR ^^^ gcmR) by ac_rfl]; simp

theorem gf128Loop_xor_right (x : Block) (n : Nat) (z z' v w : Block) :
    gf128Loop x n (z ^^^ z') (v ^^^ w) = gf128Loop x n z v ^^^ gf128Loop x n z' w := by
  induction n generalizing z z' v w with
  | zero => rfl
  | succ n ih =>
    simp only [gf128Loop_succ, timesX_xor]
    rw [← ih]
    congr 1
    split
    · ac_rfl
    · rfl

theorem gf128Loop_xor_left (x y : Block) (n : Nat) (z z' v : Block) :
    gf128Loop (x ^^^ y) n (z ^^^ z') v = gf128Loop x n z v ^^^ gf128Loop y n z' v := by
  induction n generalizing z z' v with
  | zero => rfl
  | succ n ih =>
    simp only [gf128Loop_succ, BitVec.getLsbD_xor]
    rw [← ih]
    congr 1
    cases x.getLsbD n <;> cases y.getLsbD n <;> simp
    · ac_rfl
    · ac_rfl
    · rw [show z ^^^ v ^^^ (z' ^^^ v) = z ^^^ z' ^^^ (v ^^^ v) by ac_rfl]; simp

theorem gf128Mul_add (x y z : Block) : gf128Mul x (y ^^^ z) = gf128Mul x y ^^^ gf128Mul x z := by
  simpa [gf128Mul] using gf128Loop_xor_right x 128 0 0 y z

theorem gf128Add_mul (x y z : Block) : gf128Mul (x ^^^ y) z = gf128Mul x z ^^^ gf128Mul y z := by
  simpa [gf128Mul] using gf128Loop_xor_left x y 128 0 0 z

theorem gf128Mul_zero (x : Block) : gf128Mul x 0 = 0 := by
  have h := gf128Mul_add x 0 0
  simpa using h

theorem gf128Zero_mul (y : Block) : gf128Mul 0 y = 0 := by
  have h := gf128Add_mul 0 0 y
  simpa using h

/-- An additive map that commutes with `timesX` goes through the product. -/
theorem map_gf128Mul (f : Block → Block) (hadd : ∀ a b, f (a ^^^ b) = f a ^^^ f b) (hx : ∀ a, f (timesX a) = timesX (f a)) (y z : Block) :
    f (gf128Mul y z) = gf128Mul y (f z) := by
  have h0 : f 0#128 = 0#128 := by simpa using hadd 0#128 0#128
  have h : ∀ n w v, f (gf128Loop y n w v) = gf128Loop y n (f w) (f v) := by
    intro n
    induction n with
    | zero => intros; rfl
    | succ n ih =>
      intro w v
      rw [gf128Loop_succ, gf128Loop_succ, ih, hx]
      congr 1
      split
      · exact hadd w v
      · rfl
  have h1 := h 128 0#128 z
  rw [h0] at h1
  exact h1

theorem gf128Mul_timesX (x v : Block) : gf128Mul x (timesX v) = timesX (gf128Mul x v) :=
  (map_gf128Mul timesX timesX_xor (fun _ => rfl) x v).symm

/-! ## Identity, commutativity, associativity -/

theorem gf128Mul_left_comm (x y z : Block) : gf128Mul x (gf128Mul y z) = gf128Mul y (gf128Mul x z) :=
  map_gf128Mul (gf128Mul x) (gf128Mul_add x) (gf128Mul_timesX x) y z

theorem timesX_twoPow (n : Nat) (h : n < 127) : timesX (BitVec.twoPow 128 (n + 1)) = BitVec.twoPow 128 n := by
  have h0 : (BitVec.twoPow 128 (n + 1)).getLsbD 0 = false := by simp
  rw [timesX, h0]
  apply BitVec.eq_of_getLsbD_eq
  intro i hi
  simp [BitVec.getLsbD_twoPow, show n + 1 < 128 by omega, show n < 128 by omega]
  omega

/-- Two additive maps that agree on the blocks of one bit agree on what the loop makes of such blocks. -/
theorem additive_loop {f g : Block → Block} (hf : ∀ a b, f (a ^^^ b) = f a ^^^ f b) (hg : ∀ a b, g (a ^^^ b) = g a ^^^ g b)
    (h : ∀ i, i < 128 → f (BitVec.twoPow 128 i) = g (BitVec.twoPow 128 i)) (x : Block) (n : Nat) (hn : n < 128) (z : Block) (hz : f z = g z) :
    f (gf128Loop x (n + 1) z (BitVec.twoPow 128 n)) = g (gf128Loop x (n + 1) z (BitVec.twoPow 128 n)) := by
  have hs : ∀ m (w : Block), m < 128 → f w = g w → f (if x.getLsbD m then w ^^^ BitVec.twoPow 128 m else w) =
      g (if x.getLsbD m then w ^^^ BitVec.twoPow 128 m else w) := by
    intro m w hm hw
    split
    · rw [hf, hg, hw, h m hm]
    · exact hw
  induction n generalizing z with
  | zero => exact hs 0 z hn hz
  | succ n ih =>
    rw [gf128Loop_succ, timesX_twoPow n (by omega)]
    exact ih (by omega) _ (hs _ z hn hz)

/-- The loop from the block of bit `n` on takes over the bits of `x` up to `n`. -/
theorem gf128Loop_twoPow (x : Block) (n : Nat) (hn : n < 128) (z : Block) (i : Nat) :
    (gf128Loop x (n + 1) z (BitVec.twoPow 128 n)).getLsbD i = (z.getLsbD i ^^ (decide (i ≤ n) && x.getLsbD i)) := by
  have hs : ∀ m (w : Block), m < 128 → (if x.getLsbD m then w ^^^ BitVec.twoPow 128 m else w).getLsbD i =
      (w.getLsbD i ^^ (decide (i = m) && x.getLsbD i)) := by
    intro m w hm
    by_cases him : i = m
    · subst him; cases hx : x.getLsbD i <;> simp [hm]
    · have : m ≠ i := fun e => him e.symm
      cases hx : x.getLsbD m <;> simp [BitVec.getLsbD_twoPow, him, this]
  induction n generalizing z with
  | zero =>
    rw [gf128Loop_succ]
    show BitVec.getLsbD (if x.getLsbD 0 then z ^^^ BitVec.twoPow 128 0 else z) i = _
    rw [hs 0 z hn]
    cases i <;> simp
  | succ n ih =>
    rw [gf128Loop_succ, timesX_twoPow n (by omega), ih (by omega), hs _ _ hn]
    by_cases h1 : i = n + 1
    · subst h1; simp
    · by_cases h2 : i ≤ n
      · simp [h1, h2, show i ≤ n + 1 by omega]
      · simp [h1, h2, show ¬ i ≤ n + 1 by omega]

theorem gf128Mul_one (x : Block) : gf128Mul x blockOne = x := by
  apply BitVec.eq_of_getLsbD_eq
  intro i hi
  have h := gf128Loop_twoPow x 127 (by omega) 0#128 i
  rw [show BitVec.twoPow 128 127 = blockOne from rfl] at h
  exact h.trans (by simp; omega)

/-- An additive map is known by its values on the blocks of one bit. -/
theorem additive_ext {f g : Block → Block} (hf : ∀ a b, f (a ^^^ b) = f a ^^^ f b) (hg : ∀ a b, g (a ^^^ b) = g a ^^^ g b)
    (h : ∀ i, i < 128 → f (BitVec.twoPow 128 i) = g (BitVec.twoPow 128 i)) (x : Block) : f x = g x := by
  have hz : f 0#128 = g 0#128 := by
    have h1 : f 0#128 = 0#128 := by simpa using hf 0#128 0#128
    have h2 : g 0#128 = 0#128 := by simpa using hg 0#128 0#128
    rw [h1, h2]
  have h1 := additive_loop hf hg h x 127 (by omega) 0#128 hz
  rwa [show gf128Loop x (127 + 1) 0#128 (BitVec.twoPow 128 127) = x from gf128Mul_one x] at h1

theorem gf128Mul_comm (x y : Block) : gf128Mul x y = gf128Mul y x := by
  conv => lhs; rw [← gf128Mul_one y, gf128Mul_left_comm, gf128Mul_one]

theorem gf128Mul_assoc (x y z : Block) : gf128Mul (gf128Mul x y) z = gf128Mul x (gf128Mul y z) := by
  rw [gf128Mul_comm, gf128Mul_left_comm, gf128Mul_comm z]

/-! ## Squaring -/

/-- The square of a block. -/
def blockSq (x : Block) : Block := gf128Mul x x

theorem blockSq_xor (x y : Block) : blockSq (x ^^^ y) = blockSq x ^^^ blockSq y := by
  simp only [blockSq, gf128Mul_add, gf128Add_mul, gf128Mul_comm y x]
  rw [show gf128Mul x x ^^^ gf128Mul x y ^^^ (gf128Mul x y ^^^ gf128Mul y y) =
    gf128Mul x x ^^^ gf128Mul y y ^^^ (gf128Mul x y ^^^ gf128Mul x y) by ac_rfl]
  simp

theorem blockSq_mul (x y : Block) : blockSq (gf128Mul x y) = gf128Mul (blockSq x) (blockSq y) := by
  simp only [blockSq, gf128Mul_assoc, gf128Mul_left_comm x y]

/-- The `n`-th repeated square. -/
def blockPow2 : Nat → Block → Block
  | 0, x => x
  | n + 1, x => blockPow2 n (blockSq x)

theorem blockPow2_xor (n : Nat) (x y : Block) : blockPow2 n (x ^^^ y) = blockPow2 n x ^^^ blockPow2 n y := by
  induction n generalizing x y with
  | zero => rfl
  | succ n ih => rw [blockPow2, blockSq_xor, ih]; rfl

theorem blockPow2_mul (n : Nat) (x y : Block) : blockPow2 n (gf128Mul x y) = gf128Mul (blockPow2 n x) (blockPow2 n y) := by
  induction n generalizing x y with
  | zero => rfl
  | succ n ih => rw [blockPow2, blockSq_mul, ih]; rfl

theorem blockPow2_one (n : Nat) : blockPow2 n blockOne = blockOne := by
  induction n with
  | zero => rfl
  | succ n ih => rw [blockPow2, blockSq, gf128Mul_one, ih]

/-! ## The two computations, on numbers -/

/-- `f n`, with `n` evaluated before `f` is entered. -/
def evalThen {α : Type} (n : Nat) (f : Nat → α) : α := Nat.rec (f 0) (fun k _ => f (Nat.succ k)) n

theorem evalThen_eq {α : Type} (n : Nat) (f : Nat → α) : evalThen n f = f n := by cases n <;> rfl

/-- The loop of the product on numbers, without a branch. -/
def natLoop : Nat → Nat → Nat → Nat → Nat
  | 0, _, z, _ => z
  | n + 1, x, z, v =>
    evalThen (Nat.xor z (Nat.mul (Nat.mod (Nat.shiftRight x n) 2) v)) fun z =>
    evalThen (Nat.xor (Nat.shiftRight v 1) (Nat.mul (Nat.mod v 2) 0xe1000000000000000000000000000000)) fun v => natLoop n x z v

theorem natLoop_eq (n : Nat) (x z v : Block) : natLoop n x.toNat z.toNat v.toNat = (gf128Loop x n z v).toNat := by
  induction n generalizing z v with
  | zero => rfl
  | succ n ih =>
    rw [gf128Loop_succ, ← ih]
    simp only [natLoop, evalThen_eq]
    congr 1
    · have h : x.getLsbD n = decide (x.toNat >>> n % 2 = 1) := by
        rw [BitVec.getLsbD, Nat.testBit_eq_decide_div_mod_eq, Nat.shiftRight_eq_div_pow]
      show z.toNat ^^^ (x.toNat >>> n % 2) * v.toNat = _
      rcases Nat.mod_two_eq_zero_or_one (x.toNat >>> n) with h2 | h2 <;> simp [h, h2]
    · have h : v.getLsbD 0 = decide (v.toNat % 2 = 1) := by
        rw [BitVec.getLsbD, Nat.testBit_eq_decide_div_mod_eq]; simp
      show v.toNat >>> 1 ^^^ (v.toNat % 2) * _ = (timesX v).toNat
      rcases Nat.mod_two_eq_zero_or_one v.toNat with h2 | h2 <;> simp [timesX, -BitVec.getLsbD_eq_getElem, h, h2, gcmR]

/-- Repeated squaring on numbers. -/
def natPow2 : Nat → Nat → Nat
  | 0, x => x
  | n + 1, x => evalThen (natLoop 128 x 0 x) fun y => natPow2 n y

theorem natPow2_eq (n : Nat) (x : Block) : natPow2 n x.toNat = (blockPow2 n x).toNat := by
  induction n generalizing x with
  | zero => rfl
  | succ n ih => simp only [natPow2, evalThen_eq, blockPow2, ← ih, blockSq, gf128Mul]; rw [← natLoop_eq]; rfl

/-- The polynomial `x`. -/
def blockX : Block := BitVec.twoPow 128 126

theorem pow2_blockX : blockPow2 128 blockX = blockX := by
  apply BitVec.eq_of_toNat_eq
  rw [← natPow2_eq]
  exact Nat.eq_of_beq_eq_true (by decide +kernel)

theorem blockX_mul (x : Block) : gf128Mul x blockX = timesX x := by
  rw [blockX, ← timesX_twoPow 126 (by omega), gf128Mul_timesX]
  exact congrArg timesX (gf128Mul_one x)

/-- Every block is its own power of exponent 2^128. -/
theorem blockPow2_fixed (x : Block) : blockPow2 128 x = x := by
  have h := map_gf128Mul (blockPow2 128) (blockPow2_xor 128)
    (fun a => by rw [← blockX_mul, blockPow2_mul, pow2_blockX, blockX_mul]) x blockOne
  rwa [gf128Mul_one, blockPow2_one, gf128Mul_one] at h

/-! ## Idempotents and inverses -/

/-- The exclusive or of `z` and of the entries of `t` at the places where `y` has a bit. -/
def natSelect : List Nat → Nat → Nat → Nat
  | [], _, z => z
  | c :: t, y, z =>
    evalThen (Nat.xor z (Nat.mul (Nat.mod y 2) c)) fun z => evalThen (Nat.shiftRight y 1) fun y => natSelect t y z

theorem natSelect_xor (t : List Nat) (x y z w : Nat) :
    natSelect t (x ^^^ y) (z ^^^ w) = natSelect t x z ^^^ natSelect t y w := by
  induction t generalizing x y z w with
  | nil => rfl
  | cons c t ih =>
    simp only [natSelect, evalThen_eq]
    rw [← ih]
    congr 1
    · exact Nat.shiftRight_xor_distrib
    · have h : (x ^^^ y) % 2 = (x % 2 + y % 2) % 2 := by
        have h1 := Nat.testBit_xor x y 0
        simp only [Nat.testBit_zero] at h1
        rcases Nat.mod_two_eq_zero_or_one x with h2 | h2 <;> rcases Nat.mod_two_eq_zero_or_one y with h3 | h3 <;>
          simp [h2, h3] at h1 ⊢ <;> omega
      show z ^^^ w ^^^ (x ^^^ y) % 2 * c = (z ^^^ x % 2 * c) ^^^ (w ^^^ y % 2 * c)
      rcases Nat.mod_two_eq_zero_or_one x with h2 | h2 <;> rcases Nat.mod_two_eq_zero_or_one y with h3 | h3 <;> rw [h, h2, h3] <;> simp
      · ac_rfl
      · ac_rfl
      · rw [show z ^^^ c ^^^ (w ^^^ c) = z ^^^ w ^^^ (c ^^^ c) by ac_rfl]; simp

/-- A linear map that undoes `x ↦ x² + x` but for the bit of the identity: entry `i` is what bit `i` contributes. -/
def rootTable : List Nat :=
  [0x0, 0x4a2ade42a1db558927495c4d4e62fc1, 0x35bd0e43ef6cf78dcef750ee63bd3171, 0x41d77801d619af2a38dab35b297373a6,
    0x36dc3b3404788e15d4cfd6f8f5447461, 0x7adc3b3404788e15d4cfd6f8f5447467, 0x5f67891c31b7edb03c86875f90384d1c, 0x646cca29e3d6cc8fd093e2fc4c0f4ad5,
    0x51eae8be2fe60df61bf9191de1788d94, 0x36e717e02724b8e1d1527df73b8e8241, 0x5f86cdbc744e28fe3430f49ddf071154, 0x2561da5c536a901fe562896ae4899333,
    0x99a6e1cca2f8641a0b0910804c90841, 0x2cfbb4409945165e45d21862e0409b32, 0xd94d9da18080030c4db699e5dc0, 0x197d9b438cafcf2f8e88275824a90133] ++ (
  [0x645919a4b35879f7d7a68d71cb5770d5, 0x7348a7e5645f93d076e747a9d181ec26, 0x602105ae977251e64834e0c2dd2d5a94, 0x2c14dbb71e26fc964f314b9433eb3eb2,
    0x44eaa59bd8819a999287fa5ed58ad81, 0x77dcb1c60e3ad5c9e2190477682adba7, 0x701c741cbd9fc8b06b94eadf79b8c426, 0x46f806225397f491bb49eab33e4cf467,
    0x79b07befedd921e9cd751ec18ebeebe7, 0x56f3167fe31302df9eb885b869165d55, 0x6462e2cc93c28627d2d0526e0d66c2d5, 0x1a24eaaa541c8b0f9092b01169688933,
    0x4bf6a9a1f02e1f698fec4b1a74166be7, 0x21ce3a83c07744de74dad50f0d583b32, 0x634efa836deeebf650dae654442b4894, 0x224d20acccef41ee67fd0ac2e3641972] ++ (
  [0x4bf8b9d33b8f38198de17cdee54751e7, 0x698e6217d7fa8627ef6aa903c013fa95, 0x457534e82f16f649aa2d862c91005ba7, 0x144558bb6c9dfcd7bc4c239cf48626f3,
    0x3cfddc25f2ae2df86391fd8d3387a7c0, 0x2bd77bb364af6b3fc733d8875e039333, 0x26d44eb77ddd535ff0b1c738de72bb33, 0x6aef57603cdbfceff55228f556d54755,
    0x285aabc679b16ad7d6c2852abfdb1eb3, 0x38e6217d7f479d8109554569546afc0, 0x79880aa666d696d9c926622882fff1e7, 0x312705524db61730583bcf844c342240,
    0x5c33b52f8947e9462158188b7248d294, 0x3bdc8ad604b36599e246fae899f68fc1, 0x72ccff3fd3d186182e1ce9a41041041, 0x5252e8c1d3a8e3be0d2c5beb59e57554] ++ (
  [0x489a0b11781e0c1196cc4fdebc394c27, 0x1af0929920b9589f9fb368dce89d2373, 0x2f76850d57908a5e54a716d46cf0bb32, 0x3f46b4c41d7d395874f4e33b9d331780,
    0x7986f6afcfc951e9cb9188c1a5beebe7, 0x258e6f54bc4bf6f7ef54f70e70ef2ef3, 0x55aabdbeec28a2078079924a4cd2f295, 0x229a33517c61d3ee69739a8be16c1972,
    0x49a065cd7758d5196f0e3578d383201, 0x428019a10caacb8824c8241264b2fba6, 0x4622ba58b211bb21b69fb337b1785627, 0x5cea6fd5b105659e2d1ccaeb5d2c7d54,
    0x36e9eb0be64d6b99d3ec2e5e502bb781, 0x5ce7c3e3d68e47f62e5390ab45fe70d4, 0x329f337db88e12004e8e904902080000, 0x48afd66e759a994991d0e977a9aa5ba7] ++ (
  [0x4a2ade42a1db559927495c4d4e62fc1, 0x41d77801d619af2838dab35b297373a6, 0x7adc3b3404788e11d4cfd6f8f5447467, 0x646cca29e3d6cc87d093e2fc4c0f4ad5,
    0x36e717e02724b8f1d1527df73b8e8241, 0x2561da5c536a903fe562896ae4899333, 0x2cfbb4409945161e45d21862e0409b32, 0x197d9b438cafcfaf8e88275824a90133,
    0x7348a7e5645f92d076e747a9d181ec26, 0x2c14dbb71e26fe964f314b9433eb3eb2, 0x77dcb1c60e3ad1c9e2190477682adba7, 0x46f806225397fc91bb49eab33e4cf467,
    0x56f3167fe31312df9eb885b869165d55, 0x1a24eaaa541cab0f9092b01169688933, 0x21ce3a83c07704de74dad50f0d583b32, 0x224d20acccefc1ee67fd0ac2e3641972] ++ (
  [0x698e6217d7fb8627ef6aa903c013fa95, 0x144558bb6c9ffcd7bc4c239cf48626f3, 0x2bd77bb364ab6b3fc733d8875e039333, 0x6aef57603cd3fceff55228f556d54755,
    0x38e6217d7e479d8109554569546afc0, 0x312705524d961730583bcf844c342240, 0x3bdc8ad604f36599e246fae899f68fc1, 0x5252e8c1d328e3be0d2c5beb59e57554,
    0x1af0929921b9589f9fb368dce89d2373, 0x3f46b4c41f7d395874f4e33b9d331780, 0x258e6f54b84bf6f7ef54f70e70ef2ef3, 0x229a33517461d3ee69739a8be16c1972,
    0x428019a11caacb8824c8241264b2fba6, 0x5cea6fd59105659e2d1ccaeb5d2c7d54, 0x5ce7c3e3968e47f62e5390ab45fe70d4, 0x48afd66ef59a994991d0e977a9aa5ba7] ++ (
  [0x41d77800d619af2838dab35b297373a6, 0x646cca2be3d6cc87d093e2fc4c0f4ad5, 0x2561da58536a903fe562896ae4899333, 0x197d9b4b8cafcfaf8e88275824a90133,
    0x2c14dba71e26fe964f314b9433eb3eb2, 0x46f806025397fc91bb49eab33e4cf467, 0x1a24eaea541cab0f9092b01169688933, 0x224d202cccefc1ee67fd0ac2e3641972,
    0x144559bb6c9ffcd7bc4c239cf48626f3, 0x6aef55603cd3fceff55228f556d54755, 0x312701524d961730583bcf844c342240, 0x5252e0c1d328e3be0d2c5beb59e57554,
    0x3f46a4c41f7d395874f4e33b9d331780, 0x229a13517461d3ee69739a8be16c1972, 0x5cea2fd59105659e2d1ccaeb5d2c7d54, 0x48af566ef59a994991d0e977a9aa5ba7] ++ (
  [0x646dca2be3d6cc87d093e2fc4c0f4ad5, 0x197f9b4b8cafcfaf8e88275824a90133, 0x46fc06025397fc91bb49eab33e4cf467, 0x2245202cccefc1ee67fd0ac2e3641972,
    0x6aff55603cd3fceff55228f556d54755, 0x5272e0c1d328e3be0d2c5beb59e57554, 0x22da13517461d3ee69739a8be16c1972, 0x482f566ef59a994991d0e977a9aa5ba7,
    0x187f9b4b8cafcfaf8e88275824a90133, 0x2045202cccefc1ee67fd0ac2e3641972, 0x5672e0c1d328e3be0d2c5beb59e57554, 0x402f566ef59a994991d0e977a9aa5ba7,
    0x3045202cccefc1ee67fd0ac2e3641972, 0x602f566ef59a994991d0e977a9aa5ba7, 0x202f566ef59a994991d0e977a9aa5ba7, 0x10d04d25f93556e69f58ce2f8d035a94])))))))

/-- That `rootTable` does so on the first `n` blocks of one bit. -/
def rootChecks : Nat → Bool
  | 0 => true
  | n + 1 =>
    evalThen (Nat.pow 2 n) (fun p =>
      Nat.beq (natSelect rootTable (Nat.xor (natLoop 128 p 0 p) p) 0) (Nat.mod p 170141183460469231731687303715884105728)) && rootChecks n

theorem rootChecks_all : rootChecks 128 = true := by decide +kernel

theorem rootChecks_spec (n : Nat) (h : rootChecks n = true) (i : Nat) (hi : i < n) :
    natSelect rootTable (natLoop 128 (2 ^ i) 0 (2 ^ i) ^^^ 2 ^ i) 0 = 2 ^ i % 2 ^ 127 := by
  induction n with
  | zero => omega
  | succ n ih =>
    simp only [rootChecks, evalThen_eq, Bool.and_eq_true] at h
    rcases Nat.lt_succ_iff_lt_or_eq.mp hi with h1 | rfl
    · exact ih h.2 h1
    · exact Nat.eq_of_beq_eq_true h.1

/-- The linear map of `rootTable` on blocks. -/
def blockRoot (y : Block) : Block := BitVec.ofNat 128 (natSelect rootTable y.toNat 0)

theorem blockRoot_xor (x y : Block) : blockRoot (x ^^^ y) = blockRoot x ^^^ blockRoot y := by
  have h := natSelect_xor rootTable x.toNat y.toNat 0 0
  rw [Nat.xor_self] at h
  rw [blockRoot, BitVec.toNat_xor, h, BitVec.ofNat_xor]
  rfl

theorem blockRoot_sq_xor (x : Block) : blockRoot (blockSq x ^^^ x) = x &&& ~~~blockOne := by
  refine additive_ext (f := fun x => blockRoot (blockSq x ^^^ x)) (g := fun x => x &&& ~~~blockOne) ?_ ?_ ?_ x
  · intro a b
    simp only [blockSq_xor]
    rw [← blockRoot_xor]
    congr 1
    ac_rfl
  · intro a b; ext i; simp [Bool.and_xor_distrib_right]
  · intro i hi
    have h := rootChecks_spec 128 rootChecks_all i hi
    have hp : (BitVec.twoPow 128 i).toNat = 2 ^ i := by simp [BitVec.toNat_twoPow, Nat.mod_eq_of_lt (Nat.pow_lt_pow_right (by omega : 1 < 2) hi)]
    apply BitVec.eq_of_toNat_eq
    have hl : natLoop 128 (2 ^ i) 0 (2 ^ i) = (blockSq (BitVec.twoPow 128 i)).toNat := by
      rw [← hp]; exact natLoop_eq 128 _ 0#128 _
    simp only [blockRoot, BitVec.toNat_xor, hp, ← hl, h]
    rcases Nat.lt_succ_iff_lt_or_eq.mp hi with h1 | rfl
    · rw [Nat.mod_eq_of_lt (Nat.pow_lt_pow_right (by omega) h1), ← hp, BitVec.ofNat_toNat, BitVec.setWidth_eq]
      congr 1
      apply BitVec.eq_of_getLsbD_eq
      intro j hj
      rw [show blockOne = BitVec.twoPow 128 127 from rfl]
      simp [hj]
      omega
    · rfl

/-- Only 0 and the identity are their own squares. -/
theorem blockSq_eq_self (x : Block) (h : blockSq x = x) : x = 0#128 ∨ x = blockOne := by
  have h1 := blockRoot_sq_xor x
  rw [h, BitVec.xor_self] at h1
  have h2 : blockRoot 0#128 = 0#128 := by simpa using blockRoot_xor 0#128 0#128
  rw [h2] at h1
  have hb : ∀ i, i < 128 → i ≠ 127 → x.getLsbD i = false := by
    intro i hi hn
    have h3 := congrArg (BitVec.getLsbD · i) h1
    rw [show blockOne = BitVec.twoPow 128 127 from rfl] at h3
    simpa [hi, hn] using h3
  cases ht : x.getLsbD 127 with
  | false =>
    left
    apply BitVec.eq_of_getLsbD_eq
    intro i hi
    by_cases hn : i = 127
    · subst hn; simpa using ht
    · simpa using hb i hi hn
  | true =>
    right
    apply BitVec.eq_of_getLsbD_eq
    intro i hi
    rw [show blockOne = BitVec.twoPow 128 127 from rfl, BitVec.getLsbD_twoPow]
    by_cases hn : i = 127
    · subst hn; simpa using ht
    · simpa [Ne.symm hn] using hb i hi hn

/-- `a` to the power `2^n - 1`. -/
def blockPowPred (a : Block) : Nat → Block
  | 0 => blockOne
  | n + 1 => gf128Mul (blockSq (blockPowPred a n)) a

theorem blockPow2_sq (n : Nat) (x : Block) : blockPow2 n (blockSq x) = blockSq (blockPow2 n x) := by
  induction n generalizing x with
  | zero => rfl
  | succ n ih => rw [blockPow2, ih, blockPow2]

theorem blockPowPred_mul (a : Block) (n : Nat) : gf128Mul (blockPowPred a n) a = blockPow2 n a := by
  induction n with
  | zero => rw [blockPowPred, gf128Mul_comm, gf128Mul_one]; rfl
  | succ n ih =>
    rw [blockPowPred, gf128Mul_assoc, ← blockSq, ← blockSq_mul, ih, ← blockPow2_sq]; rfl

/-- Every block but 0 has an inverse. -/
theorem gf128Mul_inverse (a : Block) (h : a ≠ 0#128) : ∃ b, gf128Mul b a = blockOne := by
  have key : ∀ n, blockPow2 (n + 1) a = a → ∃ b, gf128Mul b a = blockOne := by
    intro n hn
    have h1 : gf128Mul (blockPowPred a (n + 1)) a = a := (blockPowPred_mul a (n + 1)).trans hn
    have h2 : blockSq (blockPowPred a (n + 1)) = blockPowPred a (n + 1) := by
      rw [blockSq]
      conv => lhs; rhs; rw [blockPowPred]
      rw [gf128Mul_left_comm, h1, ← blockPowPred]
    rcases blockSq_eq_self _ h2 with h3 | h3
    · rw [h3] at h1; exact absurd (h1.symm.trans (gf128Zero_mul a)) h
    · exact ⟨_, h3⟩
  exact key 127 (blockPow2_fixed a)

/-- The product of two blocks is zero only where one of them is. -/
theorem gf128Mul_eq_zero (x y : Block) (h : gf128Mul x y = 0#128) : x = 0#128 ∨ y = 0#128 := by
  by_cases hy : y = 0#128
  · exact .inr hy
  · obtain ⟨b, hb⟩ := gf128Mul_inverse y hy
    left
    rw [← gf128Mul_one x, ← hb, gf128Mul_left_comm, h]
    exact gf128Mul_zero b

end Sys2Proof.Machine
end

