-- ==== Sys2Proof/Laws/Container.lean ====
section
/-! SUPPORT. Laws of the container: its length, and that each slice of R82 gives back the field that stands there. -/

namespace Sys2Proof.Machine

theorem containerOf_length (salt : Bytes 16) (nonce : Bytes 12) (x : ByteString) :
    (containerOf salt nonce x).length = x.length + 28 := by
  simp [containerOf, salt.2, nonce.2]; omega

theorem containerSalt_containerOf (salt : Bytes 16) (nonce : Bytes 12) (x : ByteString)
    (h : 44 ≤ (containerOf salt nonce x).length) : containerSalt (containerOf salt nonce x) h = salt := by
  apply Subtype.ext
  simp [containerSalt, containerOf, slice, salt.2]

theorem containerNonce_containerOf (salt : Bytes 16) (nonce : Bytes 12) (x : ByteString)
    (h : 44 ≤ (containerOf salt nonce x).length) : containerNonce (containerOf salt nonce x) h = nonce := by
  apply Subtype.ext
  simp [containerNonce, containerOf, slice, salt.2, nonce.2]

theorem containerSealOutput_containerOf (salt : Bytes 16) (nonce : Bytes 12) (x : ByteString) :
    containerSealOutput (containerOf salt nonce x) = x := by
  have h : (salt.1 ++ nonce.1).length = 28 := by simp [salt.2, nonce.2]
  unfold containerSealOutput containerOf
  rw [List.drop_append_of_le_length (by omega), ← h, List.drop_length]
  rfl

/-- The plaintext is 44 bytes shorter than the container (R149, R153). -/
theorem containerSealOutput_length_sub (c : ByteString) : (containerSealOutput c).length - 16 = c.length - 44 := by
  simp [containerSealOutput]; omega

end Sys2Proof.Machine
end

