-- ==== Sys2Proof/Laws/Gcm.lean ====
section
/-! SUPPORT. Laws of GHASH, of blocks as byte strings, and of the default `Open` (44_aead_reference_aes_gcm.md R218, R221, R223, R225). -/

namespace Sys2Proof.Machine

/-! ## GHASH -/

/-- GHASH is additive in its accumulator (R221). -/
theorem ghashFrom_xor (h : Block) (n : Nat) (x : ByteString) (y d : Block) :
    ghashFrom h n x (y ^^^ d) = ghashFrom h n x y ^^^ (fun y => gf128Mul y h)^[n] d := by
  induction n generalizing x y d with
  | zero => rfl
  | succ n ih =>
    rw [ghashFrom, ghashFrom, show y ^^^ d ^^^ blockOf (x.take 16) = (y ^^^ blockOf (x.take 16)) ^^^ d by ac_rfl, gf128Add_mul, ih]
    rfl

/-- GHASH runs over a string in parts. -/
theorem ghashFrom_add (h : Block) (a b : Nat) (x : ByteString) (y : Block) :
    ghashFrom h (a + b) x y = ghashFrom h b (x.drop (16 * a)) (ghashFrom h a x y) := by
  induction a generalizing x y with
  | zero => simp [ghashFrom]
  | succ a ih =>
    rw [show a + 1 + b = a + b + 1 by omega, ghashFrom, ghashFrom, ih, List.drop_drop]
    congr 2
    omega

/-- The first blocks alone decide GHASH of the first blocks. -/
theorem ghashFrom_append (h : Block) (a : Nat) (x z : ByteString) (y : Block) (hx : x.length = 16 * a) :
    ghashFrom h a (x ++ z) y = ghashFrom h a x y := by
  induction a generalizing x y with
  | zero => rfl
  | succ a ih =>
    rw [ghashFrom, ghashFrom, List.take_append_of_le_length (by omega), List.drop_append_of_le_length (by omega),
      ih _ _ (by simp; omega)]

/-- Multiplying by a block other than 0 again and again never gives 0. -/
theorem iterate_mul_ne_zero (h d : Block) (hh : h ≠ 0#128) (hd : d ≠ 0#128) (k : Nat) : (fun y => gf128Mul y h)^[k] d ≠ 0#128 := by
  induction k generalizing d with
  | zero => exact hd
  | succ k ih =>
    rw [Function.iterate_succ_apply]
    exact ih _ fun e => (gf128Mul_eq_zero _ _ e).elim hd hh

/-! ## Blocks as byte strings -/

theorem blockOf_snoc (l : ByteString) (y : Byte) : blockOf (l ++ [y]) = blockOf l <<< 8 ||| y.setWidth 128 := by simp [blockOf]

theorem blockOf_snoc_toNat (l : ByteString) (y : Byte) (h : l.length ≤ 15) (hl : (blockOf l).toNat < 256 ^ l.length) :
    (blockOf (l ++ [y])).toNat = 256 * (blockOf l).toNat + y.toNat := by
  have hy := y.isLt
  have hp : 256 ^ l.length ≤ 256 ^ 15 := Nat.pow_le_pow_right (by omega) h
  rw [blockOf_snoc, BitVec.toNat_or, BitVec.toNat_shiftLeft, BitVec.toNat_setWidth, Nat.mod_eq_of_lt (a := y.toNat) (by omega),
    Nat.mod_eq_of_lt (by rw [Nat.shiftLeft_eq]; omega), ← Nat.shiftLeft_add_eq_or_of_lt (by omega), Nat.shiftLeft_eq]
  omega

theorem blockOf_lt (l : ByteString) (h : l.length ≤ 16) : (blockOf l).toNat < 256 ^ l.length := by
  induction l using List.reverseRecOn with
  | nil => simp [blockOf]
  | append_singleton l y ih =>
    rw [List.length_append, List.length_singleton] at h ⊢
    have h1 := ih (by omega)
    rw [blockOf_snoc_toNat l y (by omega) h1, Nat.pow_succ]
    have := y.isLt
    omega

/-- Strings of the same length of at most 16 bytes that give the same block are the same (R218). -/
theorem blockOf_inj (a b : ByteString) (h : a.length = b.length) (ha : a.length ≤ 16) (he : blockOf a = blockOf b) : a = b := by
  induction a using List.reverseRecOn generalizing b with
  | nil => exact (List.length_eq_zero_iff.mp h.symm).symm
  | append_singleton a y ih =>
    rcases List.eq_nil_or_concat b with rfl | ⟨b', z, rfl⟩
    · simp at h
    · simp only [List.concat_eq_append, List.length_append, List.length_singleton] at h ha he ⊢
      have hn := congrArg BitVec.toNat he
      rw [blockOf_snoc_toNat a y (by omega) (blockOf_lt a (by omega)), blockOf_snoc_toNat b' z (by omega) (blockOf_lt b' (by omega))] at hn
      have h1 := y.isLt
      have h2 := z.isLt
      rw [ih b' (by omega) (by omega) (BitVec.eq_of_toNat_eq (by omega)), BitVec.eq_of_toNat_eq (x := y) (y := z) (by omega)]

/-- Blocks with the same bytes are the same (R218). -/
theorem blockBytes_inj (a b : Block) (h : blockBytes a = blockBytes b) : a = b := by
  apply BitVec.eq_of_getLsbD_eq
  intro j hj
  have hi : blockByte a (15 - j / 8) = blockByte b (15 - j / 8) := by
    have hb := congrArg (fun z : Bytes 16 => z.1[15 - j / 8]?) h
    simpa [blockBytes, Bytes.ofFn, show 15 - j / 8 < 16 by omega] using hb
  have hb := congrArg (BitVec.getLsbD · (j % 8)) hi
  simp only [blockByte, BitVec.getLsbD_setWidth, BitVec.getLsbD_ushiftRight] at hb
  rw [show 8 * (15 - (15 - j / 8)) + j % 8 = j by omega] at hb
  simpa [show j % 8 < 8 by omega] using hb

/-! ## The default `Open` -/

/-- The default `Open` of a ciphertext and a tag succeeds exactly when the tag is the recomputed one (R225). -/
theorem gcmOpen_isSome (k : Bytes 32) (n : Bytes 12) (ct : ByteString) (t : Bytes 16) :
    (gcmOpen k n (ct ++ t.1)).isSome = true ↔ gcmTag k n ct = t := by
  have h : (gcmOpen k n (ct ++ t.1)).isSome = true ↔ (gcmOpenTag k n (ct ++ t.1)).1 = (ct ++ t.1).drop ((ct ++ t.1).length - 16) := by
    unfold gcmOpen
    split <;> simp_all
  rw [h]
  simp [gcmOpenTag, t.2, Subtype.ext_iff]

end Sys2Proof.Machine
end

