-- ==== Sys2Proof/Laws/Memory.lean ====
section
/-! SUPPORT. Laws of the buffers: the canonical form is kept by every operation, a read finds what a write put there, and whole strings go in and
come out unchanged. -/

namespace Sys2Proof.Machine

@[simp] theorem Memory.read_nil (a : Nat) : Memory.read [] a = none := rfl

@[simp] theorem Memory.read_cons (x : Nat) (v : Byte) (m : Memory) (a : Nat) :
    Memory.read ((x, v) :: m) a = if a = x then some v else Memory.read m a := rfl

theorem Memory.read_write (m : Memory) (a : Nat) (b : Byte) (x : Nat) :
    (m.write a b).read x = if x = a then some b else m.read x := by
  induction m with
  | nil => simp [Memory.write]
  | cons c m ih =>
    obtain ⟨y, v⟩ := c
    simp only [Memory.write]
    split
    · simp
    · split
      · next h => subst h; simp only [Memory.read_cons]; split <;> rfl
      · next h =>
        simp only [Memory.read_cons, ih]
        split
        · next h1 => subst h1; rw [if_neg (by omega)]
        · rfl

@[simp] theorem Memory.read_write_same (m : Memory) (a : Nat) (b : Byte) : (m.write a b).read a = some b := by
  simp [Memory.read_write]

theorem Memory.read_write_other (m : Memory) (a : Nat) (b : Byte) (x : Nat) (h : x ≠ a) :
    (m.write a b).read x = m.read x := by simp [Memory.read_write, h]

/-- What every offset reads after a string was stored. -/
theorem Memory.read_writeBytes (m : Memory) (off : Nat) (bs : ByteString) (x : Nat) :
    (m.writeBytes off bs).read x = if off ≤ x ∧ x < off + bs.length then bs[x - off]? else m.read x := by
  induction bs generalizing m off with
  | nil => rw [if_neg (by simp)]; rfl
  | cons b bs ih =>
    rw [Memory.writeBytes, ih, Memory.read_write, List.length_cons]
    by_cases hx : x = off
    · subst hx; rw [if_neg (by omega)]; simp
    · by_cases h : off + 1 ≤ x ∧ x < off + 1 + bs.length
      · rw [if_pos h, if_pos (by omega)]
        obtain ⟨k, rfl⟩ : ∃ k, x = off + 1 + k := ⟨x - (off + 1), by omega⟩
        rw [show off + 1 + k - (off + 1) = k by omega, show off + 1 + k - off = k + 1 by omega, List.getElem?_cons_succ]
      · rw [if_neg h, if_neg hx, if_neg (by omega)]

/-! ## The canonical form -/

theorem Memory.wfFrom_mono {lo lo' : Nat} (h : lo ≤ lo') (m : Memory) (hm : Memory.wfFrom lo' m = true) :
    Memory.wfFrom lo m = true := by
  cases m with
  | nil => rfl
  | cons c m => simp only [Memory.wfFrom, Bool.and_eq_true, decide_eq_true_eq] at *; exact ⟨by omega, hm.2⟩

theorem Memory.wfFrom_write (lo : Nat) (m : Memory) (a : Nat) (b : Byte) (h : lo ≤ a) (hm : Memory.wfFrom lo m = true) :
    Memory.wfFrom lo (m.write a b) = true := by
  induction m generalizing lo with
  | nil => simp [Memory.write, Memory.wfFrom, h]
  | cons c m ih =>
    obtain ⟨y, v⟩ := c
    simp only [Memory.wfFrom, Bool.and_eq_true, decide_eq_true_eq] at hm
    simp only [Memory.write]
    split
    · next ha => simpa [Memory.wfFrom, h, hm.2] using ha
    · split
      · next _ he => subst he; simpa [Memory.wfFrom, h] using hm.2
      · next h1 h2 => simpa [Memory.wfFrom, hm.1] using ih (y + 1) (by omega) hm.2

theorem Memory.wf_nil : Memory.wf [] = true := rfl

theorem Memory.wf_write (m : Memory) (a : Nat) (b : Byte) (h : m.wf = true) : (m.write a b).wf = true :=
  Memory.wfFrom_write 0 m a b (Nat.zero_le a) h

theorem Memory.wf_writeBytes (m : Memory) (off : Nat) (bs : ByteString) (h : m.wf = true) : (m.writeBytes off bs).wf = true := by
  induction bs generalizing m off with
  | nil => exact h
  | cons b bs ih => exact ih _ _ (Memory.wf_write m off b h)

theorem Memory.wfFrom_ofBytesAt (off : Nat) (bs : ByteString) : Memory.wfFrom off (Memory.ofBytesAt off bs) = true := by
  induction bs generalizing off with
  | nil => rfl
  | cons b bs ih => simp [Memory.ofBytesAt, Memory.wfFrom, ih]

theorem Memory.wf_ofBytes (bs : ByteString) : (Memory.ofBytes bs).wf = true := Memory.wfFrom_ofBytesAt 0 bs

/-! ## Whole strings -/

theorem Memory.read_ofBytesAt (off : Nat) (bs : ByteString) (x : Nat) :
    (Memory.ofBytesAt off bs).read x = if off ≤ x then bs[x - off]? else none := by
  induction bs generalizing off with
  | nil => simp [Memory.ofBytesAt]
  | cons b bs ih =>
    rw [Memory.ofBytesAt, Memory.read_cons, ih]
    by_cases hx : x = off
    · subst hx; simp
    · rw [if_neg hx]
      by_cases h : off + 1 ≤ x
      · rw [if_pos h, if_pos (by omega)]
        obtain ⟨k, rfl⟩ : ∃ k, x = off + 1 + k := ⟨x - (off + 1), by omega⟩
        rw [show off + 1 + k - (off + 1) = k by omega, show off + 1 + k - off = k + 1 by omega, List.getElem?_cons_succ]
      · rw [if_neg h, if_neg (by omega)]

@[simp] theorem Memory.read_ofBytes (bs : ByteString) (x : Nat) : (Memory.ofBytes bs).read x = bs[x]? := by
  simp [Memory.ofBytes, Memory.read_ofBytesAt]

/-- A `MemRead` succeeds with the string `v` exactly when every offset of it reads `v`'s byte. -/
theorem Memory.readBytes_eq_some (m : Memory) (off n : Nat) (v : Bytes n) (h : ∀ i, i < n → m.read (off + i) = v.1[i]?) :
    m.readBytes off n = some v := by
  induction n generalizing off with
  | zero => obtain ⟨l, hl⟩ := v; obtain rfl := List.length_eq_zero_iff.mp hl; rfl
  | succ n ih =>
    obtain ⟨l, hl⟩ := v
    cases l with
    | nil => cases hl
    | cons b l =>
      have h0 := h 0 (by omega)
      have hl' : l.length = n := by simpa using hl
      have ht := ih (off + 1) ⟨l, hl'⟩ fun i hi => by
        have := h (i + 1) (by omega)
        simpa [Nat.add_comm, Nat.add_left_comm, Nat.add_assoc] using this
      simp only [Nat.add_zero, List.getElem?_cons_zero] at h0
      simp only [Memory.readBytes, h0, ht]

/-- What a successful `MemRead` found, byte by byte. -/
theorem Memory.readBytes_spec (m : Memory) (off n : Nat) (v : Bytes n) (h : m.readBytes off n = some v) :
    ∀ i, i < n → m.read (off + i) = v.1[i]? := by
  induction n generalizing off with
  | zero => intro i hi; omega
  | succ n ih =>
    simp only [Memory.readBytes] at h
    split at h
    · next b r hb hr =>
      simp only [Option.some.injEq] at h
      subst h
      intro i hi
      cases i with
      | zero => simpa using hb
      | succ i => simpa [Nat.add_comm, Nat.add_left_comm, Nat.add_assoc] using ih (off + 1) r hr i (by omega)
    · cases h

/-- `MemRead` of a slice of a whole string. -/
theorem Memory.readBytes_ofBytes_slice (bs : ByteString) (off n : Nat) (v : Bytes n) (h : (bs.drop off).take n = v.1) :
    (Memory.ofBytes bs).readBytes off n = some v :=
  Memory.readBytes_eq_some _ _ _ _ fun i hi => by
    rw [Memory.read_ofBytes, ← h, List.getElem?_take_of_lt hi, List.getElem?_drop]

/-- `MemRead` of a whole string gives the string back. -/
@[simp] theorem Memory.readBytes_ofBytes (bs : ByteString) : (Memory.ofBytes bs).readBytes 0 bs.length = some ⟨bs, rfl⟩ :=
  Memory.readBytes_ofBytes_slice bs 0 bs.length ⟨bs, rfl⟩ (by simp)

/-- Storing past every listed offset appends. -/
theorem Memory.write_end (m : Memory) (a : Nat) (b : Byte) (h : ∀ c ∈ m, c.1 < a) : m.write a b = m ++ [(a, b)] := by
  induction m with
  | nil => rfl
  | cons c m ih =>
    obtain ⟨y, v⟩ := c
    have hy : y < a := h (y, v) (by simp)
    rw [Memory.write, if_neg (by omega), if_neg (by omega), ih fun c hc => h c (by simp [hc])]
    rfl

theorem Memory.writeBytes_end (m : Memory) (off : Nat) (bs : ByteString) (h : ∀ c ∈ m, c.1 < off) :
    m.writeBytes off bs = m ++ Memory.ofBytesAt off bs := by
  induction bs generalizing m off with
  | nil => simp [Memory.writeBytes, Memory.ofBytesAt]
  | cons b bs ih =>
    rw [Memory.writeBytes, Memory.write_end m off b h, ih, Memory.ofBytesAt, List.append_assoc]
    · rfl
    · intro c hc
      rcases List.mem_append.mp hc with hc | hc
      · exact Nat.lt_succ_of_lt (h c hc)
      · obtain rfl := List.mem_singleton.mp hc; exact Nat.lt_succ_self _

theorem Memory.ofBytesAt_append (off : Nat) (a b : ByteString) :
    Memory.ofBytesAt off (a ++ b) = Memory.ofBytesAt off a ++ Memory.ofBytesAt (off + a.length) b := by
  induction a generalizing off with
  | nil => simp [Memory.ofBytesAt]
  | cons x a ih => simp [Memory.ofBytesAt, ih, Nat.add_comm, Nat.add_assoc]

theorem Memory.mem_ofBytesAt_lt (off : Nat) (a : ByteString) : ∀ c ∈ Memory.ofBytesAt off a, c.1 < off + a.length := by
  induction a generalizing off with
  | nil => intro c hc; simp [Memory.ofBytesAt] at hc
  | cons x a ih =>
    intro c hc
    rw [Memory.ofBytesAt, List.mem_cons] at hc
    rcases hc with rfl | hc
    · simp
    · have := ih (off + 1) c hc; rw [List.length_cons]; omega

/-- Storing a string right after a whole string makes the longer whole string (R53, R82). -/
theorem Memory.writeBytes_ofBytes (a b : ByteString) :
    (Memory.ofBytes a).writeBytes a.length b = Memory.ofBytes (a ++ b) := by
  rw [Memory.ofBytes, Memory.writeBytes_end _ _ _ (by simpa using Memory.mem_ofBytesAt_lt 0 a), Memory.ofBytes,
    Memory.ofBytesAt_append, Nat.zero_add]

theorem Memory.writeBytes_nil (b : ByteString) : Memory.writeBytes [] 0 b = Memory.ofBytes b := Memory.writeBytes_ofBytes [] b

end Sys2Proof.Machine
end

