-- ==== Sys2Proof/Laws/State.lean ====
section
/-! SUPPORT. One lemma per field per named update of the state, true by rfl, so that no later proof unfolds an update. -/

namespace Sys2Proof.Machine

/-! ## Engine.emptied -/

@[simp] theorem Engine.emptied_salt (e : Engine) : (e.emptied).salt = none := rfl
@[simp] theorem Engine.emptied_nonce (e : Engine) : (e.emptied).nonce = none := rfl
@[simp] theorem Engine.emptied_key (e : Engine) : (e.emptied).key = none := rfl
@[simp] theorem Engine.emptied_tag (e : Engine) : (e.emptied).tag = none := rfl
@[simp] theorem Engine.emptied_pp (e : Engine) : (e.emptied).pp = none := rfl
@[simp] theorem Engine.emptied_inp (e : Engine) : (e.emptied).inp = none := rfl
@[simp] theorem Engine.emptied_out (e : Engine) : (e.emptied).out = e.out := rfl
@[simp] theorem Engine.emptied_cmd (e : Engine) : (e.emptied).cmd = none := rfl
@[simp] theorem Engine.emptied_phase (e : Engine) : (e.emptied).phase = e.phase := rfl
@[simp] theorem Engine.emptied_status (e : Engine) : (e.emptied).status = e.status := rfl
@[simp] theorem Engine.emptied_ppLen (e : Engine) : (e.emptied).ppLen = none := rfl
@[simp] theorem Engine.emptied_inLen (e : Engine) : (e.emptied).inLen = none := rfl
@[simp] theorem Engine.emptied_outLen (e : Engine) : (e.emptied).outLen = e.outLen := rfl
@[simp] theorem Engine.emptied_staged (e : Engine) : (e.emptied).staged = none := rfl
@[simp] theorem Engine.emptied_kdfWork (e : Engine) : (e.emptied).kdfWork = none := rfl
@[simp] theorem Engine.emptied_aeadWork (e : Engine) : (e.emptied).aeadWork = none := rfl

/-! ## Engine.raised -/

@[simp] theorem Engine.raised_salt (k : ErrorKind) (e : Engine) : (e.raised k).salt = none := rfl
@[simp] theorem Engine.raised_nonce (k : ErrorKind) (e : Engine) : (e.raised k).nonce = none := rfl
@[simp] theorem Engine.raised_key (k : ErrorKind) (e : Engine) : (e.raised k).key = none := rfl
@[simp] theorem Engine.raised_tag (k : ErrorKind) (e : Engine) : (e.raised k).tag = none := rfl
@[simp] theorem Engine.raised_pp (k : ErrorKind) (e : Engine) : (e.raised k).pp = none := rfl
@[simp] theorem Engine.raised_inp (k : ErrorKind) (e : Engine) : (e.raised k).inp = none := rfl
@[simp] theorem Engine.raised_out (k : ErrorKind) (e : Engine) : (e.raised k).out = none := rfl
@[simp] theorem Engine.raised_cmd (k : ErrorKind) (e : Engine) : (e.raised k).cmd = none := rfl
@[simp] theorem Engine.raised_phase (k : ErrorKind) (e : Engine) : (e.raised k).phase = .done := rfl
@[simp] theorem Engine.raised_status (k : ErrorKind) (e : Engine) : (e.raised k).status = some k.code := rfl
@[simp] theorem Engine.raised_ppLen (k : ErrorKind) (e : Engine) : (e.raised k).ppLen = none := rfl
@[simp] theorem Engine.raised_inLen (k : ErrorKind) (e : Engine) : (e.raised k).inLen = none := rfl
@[simp] theorem Engine.raised_outLen (k : ErrorKind) (e : Engine) : (e.raised k).outLen = some 0 := rfl
@[simp] theorem Engine.raised_staged (k : ErrorKind) (e : Engine) : (e.raised k).staged = none := rfl
@[simp] theorem Engine.raised_kdfWork (k : ErrorKind) (e : Engine) : (e.raised k).kdfWork = none := rfl
@[simp] theorem Engine.raised_aeadWork (k : ErrorKind) (e : Engine) : (e.raised k).aeadWork = none := rfl

/-! ## Engine.completed -/

@[simp] theorem Engine.completed_salt (e : Engine) : (e.completed).salt = none := rfl
@[simp] theorem Engine.completed_nonce (e : Engine) : (e.completed).nonce = none := rfl
@[simp] theorem Engine.completed_key (e : Engine) : (e.completed).key = none := rfl
@[simp] theorem Engine.completed_tag (e : Engine) : (e.completed).tag = none := rfl
@[simp] theorem Engine.completed_pp (e : Engine) : (e.completed).pp = none := rfl
@[simp] theorem Engine.completed_inp (e : Engine) : (e.completed).inp = none := rfl
@[simp] theorem Engine.completed_out (e : Engine) : (e.completed).out = e.out := rfl
@[simp] theorem Engine.completed_cmd (e : Engine) : (e.completed).cmd = none := rfl
@[simp] theorem Engine.completed_phase (e : Engine) : (e.completed).phase = .done := rfl
@[simp] theorem Engine.completed_status (e : Engine) : (e.completed).status = some statusOk := rfl
@[simp] theorem Engine.completed_ppLen (e : Engine) : (e.completed).ppLen = none := rfl
@[simp] theorem Engine.completed_inLen (e : Engine) : (e.completed).inLen = none := rfl
@[simp] theorem Engine.completed_outLen (e : Engine) : (e.completed).outLen = e.outLen := rfl
@[simp] theorem Engine.completed_staged (e : Engine) : (e.completed).staged = none := rfl
@[simp] theorem Engine.completed_kdfWork (e : Engine) : (e.completed).kdfWork = none := rfl
@[simp] theorem Engine.completed_aeadWork (e : Engine) : (e.completed).aeadWork = none := rfl

/-! ## Engine.collected -/

@[simp] theorem Engine.collected_salt (e : Engine) : (e.collected).salt = e.salt := rfl
@[simp] theorem Engine.collected_nonce (e : Engine) : (e.collected).nonce = e.nonce := rfl
@[simp] theorem Engine.collected_key (e : Engine) : (e.collected).key = e.key := rfl
@[simp] theorem Engine.collected_tag (e : Engine) : (e.collected).tag = e.tag := rfl
@[simp] theorem Engine.collected_pp (e : Engine) : (e.collected).pp = e.pp := rfl
@[simp] theorem Engine.collected_inp (e : Engine) : (e.collected).inp = e.inp := rfl
@[simp] theorem Engine.collected_out (e : Engine) : (e.collected).out = none := rfl
@[simp] theorem Engine.collected_cmd (e : Engine) : (e.collected).cmd = e.cmd := rfl
@[simp] theorem Engine.collected_phase (e : Engine) : (e.collected).phase = .idle := rfl
@[simp] theorem Engine.collected_status (e : Engine) : (e.collected).status = none := rfl
@[simp] theorem Engine.collected_ppLen (e : Engine) : (e.collected).ppLen = e.ppLen := rfl
@[simp] theorem Engine.collected_inLen (e : Engine) : (e.collected).inLen = e.inLen := rfl
@[simp] theorem Engine.collected_outLen (e : Engine) : (e.collected).outLen = none := rfl
@[simp] theorem Engine.collected_staged (e : Engine) : (e.collected).staged = e.staged := rfl
@[simp] theorem Engine.collected_kdfWork (e : Engine) : (e.collected).kdfWork = e.kdfWork := rfl
@[simp] theorem Engine.collected_aeadWork (e : Engine) : (e.collected).aeadWork = e.aeadWork := rfl

/-! ## Engine.loaded -/

@[simp] theorem Engine.loaded_salt (e : Engine) (c : Command) (ph : Phase) : (e.loaded c ph).salt = e.salt := rfl
@[simp] theorem Engine.loaded_nonce (e : Engine) (c : Command) (ph : Phase) : (e.loaded c ph).nonce = e.nonce := rfl
@[simp] theorem Engine.loaded_key (e : Engine) (c : Command) (ph : Phase) : (e.loaded c ph).key = e.key := rfl
@[simp] theorem Engine.loaded_tag (e : Engine) (c : Command) (ph : Phase) : (e.loaded c ph).tag = e.tag := rfl
@[simp] theorem Engine.loaded_pp (e : Engine) (c : Command) (ph : Phase) : (e.loaded c ph).pp = some (Memory.ofBytes c.pp) := rfl
@[simp] theorem Engine.loaded_inp (e : Engine) (c : Command) (ph : Phase) : (e.loaded c ph).inp = some (Memory.ofBytes c.inp) := rfl
@[simp] theorem Engine.loaded_out (e : Engine) (c : Command) (ph : Phase) : (e.loaded c ph).out = e.out := rfl
@[simp] theorem Engine.loaded_cmd (e : Engine) (c : Command) (ph : Phase) : (e.loaded c ph).cmd = some c.op := rfl
@[simp] theorem Engine.loaded_phase (e : Engine) (c : Command) (ph : Phase) : (e.loaded c ph).phase = ph := rfl
@[simp] theorem Engine.loaded_status (e : Engine) (c : Command) (ph : Phase) : (e.loaded c ph).status = e.status := rfl
@[simp] theorem Engine.loaded_ppLen (e : Engine) (c : Command) (ph : Phase) : (e.loaded c ph).ppLen = some c.ppLen := rfl
@[simp] theorem Engine.loaded_inLen (e : Engine) (c : Command) (ph : Phase) : (e.loaded c ph).inLen = some c.inLen := rfl
@[simp] theorem Engine.loaded_outLen (e : Engine) (c : Command) (ph : Phase) : (e.loaded c ph).outLen = e.outLen := rfl
@[simp] theorem Engine.loaded_staged (e : Engine) (c : Command) (ph : Phase) : (e.loaded c ph).staged = e.staged := rfl
@[simp] theorem Engine.loaded_kdfWork (e : Engine) (c : Command) (ph : Phase) : (e.loaded c ph).kdfWork = e.kdfWork := rfl
@[simp] theorem Engine.loaded_aeadWork (e : Engine) (c : Command) (ph : Phase) : (e.loaded c ph).aeadWork = e.aeadWork := rfl

/-! ## Engine.reset -/

@[simp] theorem Engine.reset_salt : Engine.reset.salt = none := rfl
@[simp] theorem Engine.reset_nonce : Engine.reset.nonce = none := rfl
@[simp] theorem Engine.reset_key : Engine.reset.key = none := rfl
@[simp] theorem Engine.reset_tag : Engine.reset.tag = none := rfl
@[simp] theorem Engine.reset_pp : Engine.reset.pp = none := rfl
@[simp] theorem Engine.reset_inp : Engine.reset.inp = none := rfl
@[simp] theorem Engine.reset_out : Engine.reset.out = none := rfl
@[simp] theorem Engine.reset_cmd : Engine.reset.cmd = none := rfl
@[simp] theorem Engine.reset_phase : Engine.reset.phase = .idle := rfl
@[simp] theorem Engine.reset_status : Engine.reset.status = none := rfl
@[simp] theorem Engine.reset_ppLen : Engine.reset.ppLen = none := rfl
@[simp] theorem Engine.reset_inLen : Engine.reset.inLen = none := rfl
@[simp] theorem Engine.reset_outLen : Engine.reset.outLen = none := rfl
@[simp] theorem Engine.reset_staged : Engine.reset.staged = none := rfl
@[simp] theorem Engine.reset_kdfWork : Engine.reset.kdfWork = none := rfl
@[simp] theorem Engine.reset_aeadWork : Engine.reset.aeadWork = none := rfl

/-! ## State.resetFor -/

@[simp] theorem State.resetFor_engine (n : Nat) : (State.resetFor n).engine = Engine.reset := rfl
@[simp] theorem State.resetFor_others (n : Nat) : (State.resetFor n).others = List.replicate (n - 1) Engine.reset := rfl
@[simp] theorem State.resetFor_rng (n : Nat) : (State.resetFor n).rng = .unbound := rfl
@[simp] theorem State.resetFor_port (n : Nat) : (State.resetFor n).port = none := rfl
@[simp] theorem State.resetFor_script (n : Nat) : (State.resetFor n).script = [] := rfl
@[simp] theorem State.resetFor_responses (n : Nat) : (State.resetFor n).responses = [] := rfl
@[simp] theorem State.resetFor_completions (n : Nat) : (State.resetFor n).completions = 0 := rfl

/-! ## resetBlock -/

@[simp] theorem resetBlock_engine (s : State) : (resetBlock s).engine = Engine.reset := rfl
@[simp] theorem resetBlock_others (s : State) : (resetBlock s).others = s.others.map fun _ => Engine.reset := rfl
@[simp] theorem resetBlock_rng (s : State) : (resetBlock s).rng = s.rng := rfl
@[simp] theorem resetBlock_port (s : State) : (resetBlock s).port = none := rfl
@[simp] theorem resetBlock_script (s : State) : (resetBlock s).script = s.script := rfl
@[simp] theorem resetBlock_responses (s : State) : (resetBlock s).responses = s.responses := rfl
@[simp] theorem resetBlock_completions (s : State) : (resetBlock s).completions = s.completions := rfl

/-! ## passTurn -/

theorem passTurn_single {s : State} (h : s.others = []) : passTurn s = s := by simp [passTurn, h]
theorem passTurn_cons {s : State} {e : Engine} {es : List Engine} (h : s.others = e :: es) :
    passTurn s = { s with engine := e, others := es ++ [s.engine] } := by simp [passTurn, h]
/-- The instances are the same ones, one place further round. -/
theorem passTurn_instances (s : State) : (passTurn s).engine :: (passTurn s).others = (s.others ++ [s.engine]) := by
  unfold passTurn
  split <;> simp [*]
@[simp] theorem passTurn_others_length (s : State) : (passTurn s).others.length = s.others.length := by
  unfold passTurn
  split <;> simp [*]

@[simp] theorem passTurn_rng (s : State) : (passTurn s).rng = s.rng := by unfold passTurn; split <;> rfl
@[simp] theorem passTurn_port (s : State) : (passTurn s).port = s.port := by unfold passTurn; split <;> rfl
@[simp] theorem passTurn_script (s : State) : (passTurn s).script = s.script := by unfold passTurn; split <;> rfl
@[simp] theorem passTurn_responses (s : State) : (passTurn s).responses = s.responses := by unfold passTurn; split <;> rfl
@[simp] theorem passTurn_completions (s : State) : (passTurn s).completions = s.completions := by unfold passTurn; split <;> rfl

/-! ## The engines that responses are read from -/

/-- `raise` leaves an engine that depends on the error kind alone (R265, R262). -/
theorem Engine.raised_eq (k : ErrorKind) (e : Engine) : e.raised k = responseEngine (.error k) := rfl

/-- `complete OK` leaves an engine that depends on `OUT` and `OUT_LEN` alone (R266). -/
theorem Engine.completed_eq (e : Engine) (b : ByteString) (ho : e.out = some (Memory.ofBytes b)) (hl : e.outLen = some b.length) :
    e.completed = responseEngine (.ok b) := by
  simp [Engine.completed, Engine.emptied, responseEngine, Engine.reset, ho, hl]

@[simp] theorem responseEngine_phase (r : Except ErrorKind ByteString) : (responseEngine r).phase = .done := by cases r <;> rfl
@[simp] theorem responseEngine_outLen (r : Except ErrorKind ByteString) : (responseEngine r).outLen = some (responseOf r).outLen := by
  cases r <;> rfl
@[simp] theorem responseEngine_status (r : Except ErrorKind ByteString) : (responseEngine r).status = some (responseOf r).status := by
  cases r <;> rfl

/-- After the collect an engine that held a response is in its reset state (R268, R40). -/
@[simp] theorem responseEngine_collected (r : Except ErrorKind ByteString) : (responseEngine r).collected = Engine.reset := by
  cases r <;> rfl

@[simp] theorem loadedEngine_phase (i : Instr) (p m : ByteString) (ph : Phase) : (loadedEngine i p m ph).phase = ph := rfl
@[simp] theorem saltedEngine_phase (i : Instr) (p m : ByteString) (s : Bytes 16) (n : Bytes 12) (ph : Phase) :
    (saltedEngine i p m s n ph).phase = ph := rfl
@[simp] theorem keyedEngine_phase (cfg : Config) (i : Instr) (p m : ByteString) (s : Bytes 16) (n : Bytes 12) (k : Bytes 32) (ph : Phase) :
    (keyedEngine cfg i p m s n k ph).phase = ph := rfl

end Sys2Proof.Machine
end

