-- ==== Sys2Proof/Laws/Ops.lean ====
section
/-! SUPPORT. One lemma per shared operation that says everything it can do when it answers a next state. Proofs cite these instead of unfolding the
operation. -/

namespace Sys2Proof.Machine

/-! ## Operand reads -/

@[simp] theorem need_some {α : Type} (a : α) (f : Fault) (k : α → Result) : need (some a) f k = k a := rfl

theorem need_next {α : Type} {o : Option α} {f : Fault} {k : α → Result} {t : State} (h : need o f k = .next t) :
    ∃ a, o = some a ∧ k a = .next t := by
  cases o with
  | none => cases h
  | some a => exact ⟨a, rfl, h⟩

theorem memWrite_next {m : Memory} {off n : Nat} {v : ByteString} {k : Memory → Result} {t : State}
    (h : memWrite m off n v k = .next t) : v.length = n ∧ k (m.writeBytes off v) = .next t := by
  unfold memWrite at h
  split at h
  · next hv => exact ⟨hv, h⟩
  · cases h

theorem withPassphrase_next {s t : State} {k : ByteString → Result} (h : withPassphrase s k = .next t) :
    ∃ n m p, s.engine.ppLen = some n ∧ s.engine.pp = some m ∧ Memory.readBytes m 0 n = some p ∧ k p.1 = .next t := by
  obtain ⟨n, hn, h⟩ := need_next h
  obtain ⟨m, hm, h⟩ := need_next h
  obtain ⟨p, hp, h⟩ := need_next h
  exact ⟨n, m, p, hn, hm, hp, h⟩

theorem withInput_next {s t : State} {off n : Nat} {k : Bytes n → Result} (h : withInput s off n k = .next t) :
    ∃ m b, s.engine.inp = some m ∧ Memory.readBytes m off n = some b ∧ k b = .next t := by
  obtain ⟨m, hm, h⟩ := need_next h
  obtain ⟨b, hb, h⟩ := need_next h
  exact ⟨m, b, hm, hb, h⟩

/-! ## The end of a command -/

theorem raise_next {k : ErrorKind} {s t : State} (h : raise k s = .next t) :
    t = { s with engine := responseEngine (.error k), completions := s.completions + 1 } := by
  simp only [raise, Host.Outcome.next.injEq] at h
  exact h.symm

theorem completeOk_next {s t : State} (h : completeOk s = .next t) :
    t = { s with engine := s.engine.completed, completions := s.completions + 1 } := by
  simp only [completeOk, Host.Outcome.next.injEq] at h
  exact h.symm

/-- The response's `out` is what the host reads of `OUT`, and it is there where `OUT_VALID = 1` (R57, R87). -/
theorem withResponseOut_next {s t : State} {n : Nat} {k : Option ByteString → Result} (hn : s.engine.outLen = some n)
    (h : withResponseOut s n k = .next t) :
    (s.engine.outValidFlag = true → s.engine.hostOut.isSome = true) ∧ k s.engine.hostOut = .next t := by
  unfold withResponseOut at h
  split at h
  · next hv =>
    obtain ⟨m, hm, h⟩ := need_next h
    obtain ⟨b, hb, h⟩ := need_next h
    have ho : s.engine.hostOut = some b.1 := by simp [Engine.hostOut, hv, hm, hn, hb]
    exact ⟨fun _ => by simp [ho], by rw [ho]; exact h⟩
  · next hv =>
    have ho : s.engine.hostOut = none := by simp [Engine.hostOut, hv]
    exact ⟨fun e => absurd e hv, by rw [ho]; exact h⟩

theorem collect_next {s t : State} (h : collect s = .next t) :
    s.engine.phase = .done ∧ ∃ st n, s.engine.status = some st ∧ s.engine.outLen = some n ∧
      (s.engine.outValidFlag = true → s.engine.hostOut.isSome = true) ∧
      t = { s with engine := s.engine.collected, responses := s.responses ++ [⟨st, n, s.engine.hostOut⟩] } := by
  unfold collect at h
  split at h
  · next hd =>
    obtain ⟨st, hs, h⟩ := need_next h
    obtain ⟨n, hn, h⟩ := need_next h
    simp only [Engine.hostStatus, Engine.hostOutLen, Engine.doneFlag, hd, decide_true, if_true] at hs hn
    obtain ⟨ho, h⟩ := withResponseOut_next hn h
    simp only [Host.Outcome.next.injEq] at h
    exact ⟨hd, st, n, hs, hn, ho, h.symm⟩
  · cases h

theorem discard_next {s t : State} (h : discard s = .next t) :
    s.engine.phase = .done ∧ t = { s with engine := s.engine.collected } := by
  unfold discard at h
  split at h
  · next hd => simp only [Host.Outcome.next.injEq] at h; exact ⟨hd, h.symm⟩
  · cases h

/-! ## Issue -/

theorem issue_next {cfg : Config} {i : Instr} {c : Command} {s t : State} (h : issue cfg i c s = .next t) :
    s.engine.phase = .idle ∧ c = commandOf i c.pp c.inp ∧ Accepted cfg i c.pp c.inp ∧
      t = { s with engine := s.engine.loaded c (firstPhase i), port := none } := by
  unfold issue at h
  split at h
  · cases h
  next h1 =>
  split at h
  · cases h
  next h2 =>
  split at h
  · cases h
  next h3 =>
  split at h
  · cases h
  next h4 =>
  split at h
  · cases h
  next h5 =>
  simp only [Command.ppShape, Command.inShape, Command.ppBounded, Command.inBounded, beq_iff_eq, decide_eq_true_eq, not_not,
    Host.Outcome.next.injEq, ne_eq] at h1 h2 h3 h4 h5 h
  obtain ⟨hp, hi⟩ := h3
  refine ⟨h1, ?_, ⟨by omega, by omega⟩, h.symm⟩
  cases c
  simp_all [commandOf]

/-! ## The unit operations -/

theorem deriveOp_next {cfg : Config} {ph : Phase} {s t : State} (h : deriveOp cfg ph s = .next t) :
    ∃ n m p salt, s.engine.ppLen = some n ∧ s.engine.pp = some m ∧ Memory.readBytes m 0 n = some p ∧ s.engine.salt = some salt ∧
      ((∃ e, deriveKey cfg p.1 salt.1 = .error e ∧
          t = { s with engine := responseEngine (.error e), completions := s.completions + 1 }) ∨
       (∃ key, deriveKey cfg p.1 salt.1 = .ok key ∧
          t = { s with engine := { s.engine with key := some key, kdfWork := some (cfg.kdfWork p.1 salt), phase := ph } })) := by
  obtain ⟨n, m, p, hn, hm, hp, h⟩ := withPassphrase_next h
  obtain ⟨salt, hs, h⟩ := need_next h
  refine ⟨n, m, p, salt, hn, hm, hp, hs, ?_⟩
  split at h
  · next e he => exact .inl ⟨e, he, raise_next h⟩
  · next key hk => simp only [Host.Outcome.next.injEq] at h; exact .inr ⟨key, hk, h.symm⟩

theorem sealOperation_next {cfg : Config} {s t : State} (h : sealOperation cfg s = .next t) :
    ∃ key nonce n m, ∃ x : Bytes n, s.engine.key = some key ∧ s.engine.nonce = some nonce ∧ s.engine.inLen = some n ∧
      s.engine.inp = some m ∧ Memory.readBytes m 0 n = some x ∧
      t = { s with
        engine := { s.engine with
          tag := some (sealTag (cfg.sealFn key nonce x.1)), staged := some (cfg.sealFn key nonce x.1).1,
          aeadWork := some (cfg.sealWork key nonce x.1), phase := .e4 } } := by
  obtain ⟨key, hk, h⟩ := need_next h
  obtain ⟨nonce, hn, h⟩ := need_next h
  obtain ⟨n, hl, h⟩ := need_next h
  obtain ⟨m, x, hm, hx, h⟩ := withInput_next h
  simp only [Host.Outcome.next.injEq] at h
  exact ⟨key, nonce, n, m, x, hk, hn, hl, hm, hx, h.symm⟩

theorem openOperation_next {cfg : Config} {s t : State} (h : openOperation cfg s = .next t) :
    ∃ key nonce n m, ∃ x : Bytes (n - 28), s.engine.key = some key ∧ s.engine.nonce = some nonce ∧ s.engine.inLen = some n ∧
      s.engine.inp = some m ∧ Memory.readBytes m 28 (n - 28) = some x ∧ 16 ≤ x.1.length ∧
      ((cfg.openFn key nonce x.1 = none ∧
          t = { s with engine := responseEngine (.error .decryptionFailed), completions := s.completions + 1 }) ∨
       (∃ r, cfg.openFn key nonce x.1 = some r ∧
          t = { s with
            engine := { s.engine with
              tag := some (cfg.openTag key nonce x.1), staged := some r.1, aeadWork := some (cfg.openWork key nonce x.1),
              phase := .d5 } })) := by
  obtain ⟨key, hk, h⟩ := need_next h
  obtain ⟨nonce, hn, h⟩ := need_next h
  obtain ⟨n, hl, h⟩ := need_next h
  obtain ⟨m, x, hm, hx, h⟩ := withInput_next h
  split at h
  · cases h
  next hlen =>
  refine ⟨key, nonce, n, m, x, hk, hn, hl, hm, hx, by omega, ?_⟩
  split at h
  · next ho => exact .inl ⟨ho, raise_next h⟩
  · next r hr => simp only [Host.Outcome.next.injEq] at h; exact .inr ⟨r, hr, h.symm⟩

/-! ## The codec's own steps -/

theorem drawStep_next {s t : State} (h : drawStep s = .next t) :
    t = s ∨
    (∃ rng, t = { s with rng := rng, engine := responseEngine (.error .randomSourceUnavailable), completions := s.completions + 1 } ∧
      ((RngSource.draw 16 s.rng = (.fail, rng)) ∨
        ∃ salt r, RngSource.draw 16 s.rng = (.got salt, r) ∧ RngSource.draw 12 r = (.fail, rng))) ∨
    (∃ salt r nonce rng, RngSource.draw 16 s.rng = (.got salt, r) ∧ RngSource.draw 12 r = (.got nonce, rng) ∧
      t = { s with rng := rng, engine := { s.engine with salt := some salt, nonce := some nonce, phase := .e2 } }) := by
  unfold drawStep at h
  split at h
  · simp only [Host.Outcome.next.injEq] at h; exact .inl h.symm
  · next rng hd => exact .inr (.inl ⟨rng, raise_next h, .inl hd⟩)
  · next salt r hd =>
    split at h
    · simp only [Host.Outcome.next.injEq] at h; exact .inl h.symm
    · next rng hd' => exact .inr (.inl ⟨rng, raise_next h, .inr ⟨salt, r, hd, hd'⟩⟩)
    · next nonce rng hd' =>
      simp only [Host.Outcome.next.injEq] at h
      exact .inr (.inr ⟨salt, r, nonce, rng, hd, hd', h.symm⟩)

theorem lengthStep_next {s t : State} (h : lengthStep s = .next t) :
    ∃ n, s.engine.inLen = some n ∧
      ((n < 44 ∧ t = { s with engine := responseEngine (.error .tooShort), completions := s.completions + 1 }) ∨
       (44 ≤ n ∧ t = { s with engine := { s.engine with phase := .d2 } })) := by
  obtain ⟨n, hn, h⟩ := need_next h
  refine ⟨n, hn, ?_⟩
  split at h
  · next hl => exact .inl ⟨hl, raise_next h⟩
  · next hl => simp only [Host.Outcome.next.injEq] at h; exact .inr ⟨by simpa [minContainerLen] using hl, h.symm⟩

theorem sliceStep_next {s t : State} (h : sliceStep s = .next t) :
    ∃ n m, ∃ salt : Bytes 16, ∃ nonce : Bytes 12, ∃ x : Bytes (n - 28), s.engine.inLen = some n ∧ s.engine.inp = some m ∧
      Memory.readBytes m 0 16 = some salt ∧ Memory.readBytes m 16 12 = some nonce ∧ Memory.readBytes m 28 (n - 28) = some x ∧
      t = { s with engine := { s.engine with salt := some salt, nonce := some nonce, phase := .d3 } } := by
  obtain ⟨n, hn, h⟩ := need_next h
  obtain ⟨m, salt, hm, hs, h⟩ := withInput_next h
  obtain ⟨m', nonce, hm', hn', h⟩ := withInput_next h
  obtain ⟨m'', x, hm'', hx, h⟩ := withInput_next h
  rw [hm] at hm' hm''
  cases hm'
  cases hm''
  simp only [Host.Outcome.next.injEq] at h
  exact ⟨n, m, salt, nonce, x, hn, hm, hs, hn', hx, h.symm⟩

/-- What `E4` stores, as one whole string (R80, R53). -/
theorem emitted_eq (salt : Bytes 16) (nonce : Bytes 12) (x : ByteString) :
    ((Memory.writeBytes [] 0 salt.1).writeBytes 16 nonce.1).writeBytes 28 x = Memory.ofBytes (containerOf salt nonce x) := by
  have h1 : (Memory.ofBytes salt.1).writeBytes 16 nonce.1 = Memory.ofBytes (salt.1 ++ nonce.1) := by
    have := Memory.writeBytes_ofBytes salt.1 nonce.1
    rwa [salt.2] at this
  have h2 : (Memory.ofBytes (salt.1 ++ nonce.1)).writeBytes 28 x = Memory.ofBytes (salt.1 ++ nonce.1 ++ x) := by
    have := Memory.writeBytes_ofBytes (salt.1 ++ nonce.1) x
    rwa [List.length_append, salt.2, nonce.2] at this
  rw [Memory.writeBytes_nil, h1, h2]
  rfl

theorem emitStep_next {s t : State} (h : emitStep s = .next t) :
    ∃ salt nonce n x, s.engine.salt = some salt ∧ s.engine.nonce = some nonce ∧ s.engine.inLen = some n ∧ s.engine.staged = some x ∧
      x.length = n + 16 ∧
      t = { s with engine := responseEngine (.ok (containerOf salt nonce x)), completions := s.completions + 1 } := by
  obtain ⟨salt, hs, h⟩ := need_next h
  obtain ⟨nonce, hn, h⟩ := need_next h
  obtain ⟨n, hl, h⟩ := need_next h
  obtain ⟨x, hx, h⟩ := need_next h
  obtain ⟨-, h⟩ := memWrite_next h
  obtain ⟨-, h⟩ := memWrite_next h
  obtain ⟨hlen, h⟩ := memWrite_next h
  refine ⟨salt, nonce, n, x, hs, hn, hl, hx, hlen, ?_⟩
  have ht := completeOk_next h
  rw [ht]
  congr 1
  apply Engine.completed_eq
  · simp only [emitted_eq]
  · simp [containerOf, salt.2, nonce.2, hlen]; omega

theorem releaseStep_next {s t : State} (h : releaseStep s = .next t) :
    ∃ n r, s.engine.inLen = some n ∧ s.engine.staged = some r ∧ r.length = n - 44 ∧
      t = { s with engine := responseEngine (.ok r), completions := s.completions + 1 } := by
  obtain ⟨n, hl, h⟩ := need_next h
  obtain ⟨r, hr, h⟩ := need_next h
  obtain ⟨hlen, h⟩ := memWrite_next h
  refine ⟨n, r, hl, hr, hlen, ?_⟩
  have ht := completeOk_next h
  rw [ht]
  congr 1
  apply Engine.completed_eq
  · simp only [Memory.writeBytes_nil]
  · simp [hlen]

/-! ## The operations and the step -/

/-- Everything a unit operation can do: it answers only in its own phases, with no command presented. -/
theorem deriveUnit_next {cfg : Config} {s t : State} (h : deriveUnit cfg s = .next t) :
    s.port = none ∧ ((s.engine.phase = .e2 ∧ deriveOp cfg .e3 s = .next t) ∨ (s.engine.phase = .d3 ∧ deriveOp cfg .d4 s = .next t)) := by
  unfold deriveUnit at h
  split at h
  · cases h
  · next hp =>
    refine ⟨hp, ?_⟩
    split at h
    · next he => exact .inl ⟨he, h⟩
    · next he => exact .inr ⟨he, h⟩
    · cases h

theorem sealUnit_next {cfg : Config} {s t : State} (h : sealUnit cfg s = .next t) :
    s.port = none ∧ s.engine.phase = .e3 ∧ sealOperation cfg s = .next t := by
  unfold sealUnit at h
  split at h
  · cases h
  · next hp =>
    split at h
    · next he => exact ⟨hp, he, h⟩
    · cases h

theorem openUnit_next {cfg : Config} {s t : State} (h : openUnit cfg s = .next t) :
    s.port = none ∧ s.engine.phase = .d4 ∧ openOperation cfg s = .next t := by
  unfold openUnit at h
  split at h
  · cases h
  · next hp =>
    split at h
    · next he => exact ⟨hp, he, h⟩
    · cases h

/-- Everything ENCRYPT can do, by phase. -/
theorem encryptCommand_next {cfg : Config} {s t : State} (h : encryptCommand cfg s = .next t) :
    (∃ c, s.port = some c ∧ issue cfg .encrypt c s = .next t) ∨
    (s.port = none ∧
      ((s.engine.phase = .e1 ∧ drawStep s = .next t) ∨ (s.engine.phase = .e2 ∧ deriveOp cfg .e3 s = .next t) ∨
       (s.engine.phase = .e3 ∧ sealOperation cfg s = .next t) ∨ (s.engine.phase = .e4 ∧ emitStep s = .next t))) := by
  unfold encryptCommand at h
  split at h
  · next c hp => exact .inl ⟨c, hp, h⟩
  · next hp =>
    refine .inr ⟨hp, ?_⟩
    split at h <;> first | cases h | simp_all

/-- Everything DECRYPT can do, by phase. -/
theorem decryptCommand_next {cfg : Config} {s t : State} (h : decryptCommand cfg s = .next t) :
    (∃ c, s.port = some c ∧ issue cfg .decrypt c s = .next t) ∨
    (s.port = none ∧
      ((s.engine.phase = .d1 ∧ lengthStep s = .next t) ∨ (s.engine.phase = .d2 ∧ sliceStep s = .next t) ∨
       (s.engine.phase = .d3 ∧ deriveOp cfg .d4 s = .next t) ∨ (s.engine.phase = .d4 ∧ openOperation cfg s = .next t) ∨
       (s.engine.phase = .d5 ∧ releaseStep s = .next t))) := by
  unfold decryptCommand at h
  split at h
  · next c hp => exact .inl ⟨c, hp, h⟩
  · next hp =>
    refine .inr ⟨hp, ?_⟩
    split at h <;> first | cases h | simp_all

/-- Everything an engine step can do: it runs the operation it fetched, or has nothing to run. -/
theorem engineStep_next {run : Instr → State → Result} {s t : State} (h : engineStep run s = .next t) :
    (∃ i rest, decode (fetchOp s) = .ok (i, rest) ∧ run i s = .next t) ∨ (decode (fetchOp s) = .error .noBytes ∧ t = s) := by
  unfold engineStep at h
  split at h
  · next i rest hd => exact .inl ⟨i, rest, hd, h⟩
  · next hd => simp only [Host.Outcome.next.injEq] at h; exact .inr ⟨hd, h.symm⟩
  · cases h

theorem passTurnAfter_next {r : Result} {t : State} (h : passTurnAfter r = .next t) : ∃ u, r = .next u ∧ t = passTurn u := by
  cases r with
  | next u => simp only [passTurnAfter, Host.Outcome.next.injEq] at h; exact ⟨u, rfl, h.symm⟩
  | fault f => cases h
  | refused f => cases h

/-- With one instance the turn comes back at once. -/
theorem passTurnAfter_single {r : Result} (h : ∀ t, r = .next t → t.others = []) : passTurnAfter r = r := by
  cases r with
  | next u => rw [passTurnAfter, passTurn_single (h u rfl)]
  | fault f => rfl
  | refused f => rfl

/-- Everything a step can do: a presented command goes to the engine; else the host acts; else the engine whose turn it is runs on and passes the
turn. -/
theorem stepBy_next {run : Instr → State → Result} {s t : State} (h : stepBy run s = .next t) :
    (s.port.isSome ∧ engineStep run s = .next t) ∨
    (s.port = none ∧ s.script = [] ∧ ∃ u, engineStep run s = .next u ∧ t = passTurn u) ∨
    (s.port = none ∧ ∃ a rest, s.script = a :: rest ∧ hostStep run a { s with script := rest } = .next t) := by
  unfold stepBy at h
  split at h
  · next c hp => exact .inl ⟨by simp [hp], h⟩
  · next hp =>
    split at h
    · next hs => exact .inr (.inl ⟨hp, hs, passTurnAfter_next h⟩)
    · next a rest hs => exact .inr (.inr ⟨hp, a, rest, hs, h⟩)

/-- `exec` is the machine's meaning at the default parameters (R8). -/
theorem exec_eq_execWith (i : Instr) (s : State) : exec i s = execWith defaultConfig i s := by cases i <;> rfl

end Sys2Proof.Machine
end

