-- ==== Sys2Proof/Laws/PerInstr.lean ====
section
/-! SUPPORT. Statements about every instruction as syntax, one lemma per constructor. -/

namespace Sys2Proof.Laws.OneByteEncoding

/-- An operation is well-formed, one byte long (R89), and the word of its table row is read as it (R83). -/
def Statement (i : Instr) : Prop :=
  i.wf = true ∧ (encode i).length = 1 ∧ decodeTableWord 8 (opcode i).toNat = some i

theorem encrypt : Statement .encrypt := ⟨rfl, rfl, by decide⟩
theorem decrypt : Statement .decrypt := ⟨rfl, rfl, by decide⟩
theorem derive : Statement .derive := ⟨rfl, rfl, by decide⟩
theorem sealOp : Statement .sealOp := ⟨rfl, rfl, by decide⟩
theorem openOp : Statement .openOp := ⟨rfl, rfl, by decide⟩

end Sys2Proof.Laws.OneByteEncoding
end

