-- ==== Sys2Proof/Laws/Phases.lean ====
section
/-! SUPPORT. What one engine step does to an engine of the invariant, phase by phase (10_state.md R31, R41): the specification lemma of each row of the
phase table, at any value of the open parameters. -/

namespace Sys2Proof.Machine

variable {cfg : Config} {s : State}

theorem withPassphrase_ofBytes (k : ByteString → Result) (p : ByteString) (hl : s.engine.ppLen = some p.length)
    (hp : s.engine.pp = some (Memory.ofBytes p)) : withPassphrase s k = k p := by
  simp [withPassphrase, hl, hp]

theorem withInput_ofBytes (off n : Nat) (k : Bytes n → Result) (c : ByteString) (v : Bytes n) (hc : s.engine.inp = some (Memory.ofBytes c))
    (hv : (c.drop off).take n = v.1) : withInput s off n k = k v := by
  simp [withInput, hc, Memory.readBytes_ofBytes_slice c off n v hv]

/-- The engine in `E4` (R41): the staged SealOutput and its tag beside the key. -/
abbrev sealedEngine (cfg : Config) (p m : ByteString) (salt : Bytes 16) (nonce : Bytes 12) (key : Bytes 32) : Engine :=
  { keyedEngine cfg .encrypt p m salt nonce key .e4 with
    tag := some (sealTag (cfg.sealFn key nonce m)), staged := some (cfg.sealFn key nonce m).1,
    aeadWork := some (cfg.sealWork key nonce m) }

/-- The engine in `D5` (R41): the staged plaintext and the recomputed tag beside the key. -/
abbrev openedEngine (cfg : Config) (p c : ByteString) (salt : Bytes 16) (nonce : Bytes 12) (key : Bytes 32) (r : ByteString) : Engine :=
  { keyedEngine cfg .decrypt p c salt nonce key .d5 with
    tag := some (cfg.openTag key nonce (containerSealOutput c)), staged := some r,
    aeadWork := some (cfg.openWork key nonce (containerSealOutput c)) }

theorem engineStep_issueEncrypt (p m : ByteString) (hp : s.port = some (commandOf .encrypt p m)) (he : s.engine = Engine.reset)
    (ha : Accepted cfg .encrypt p m) :
    engineStep (execWith cfg) s = .next { s with engine := loadedEngine .encrypt p m .e1, port := none } := by
  have hs : engineStep (execWith cfg) s = issue cfg .encrypt (commandOf .encrypt p m) s := by
    simp [engineStep, fetchOp, hp, commandOf, opcode, decode, decodeOp, execWith, encryptCommand]
  have h1 : (commandOf .encrypt p m).ppBounded cfg = true := decide_eq_true ha.1
  have h2 : (commandOf .encrypt p m).inBounded cfg .encrypt = true := decide_eq_true ha.2
  rw [hs]
  unfold issue
  rw [if_neg (by rw [he]; simp), if_neg (by simp [commandOf]), if_neg (by simp [commandOf, Command.ppShape, Command.inShape]),
    if_neg (not_not.mpr h1), if_neg (not_not.mpr h2)]
  simp only [he]
  rfl

theorem engineStep_issueDecrypt (p c : ByteString) (hp : s.port = some (commandOf .decrypt p c)) (he : s.engine = Engine.reset)
    (ha : Accepted cfg .decrypt p c) :
    engineStep (execWith cfg) s = .next { s with engine := loadedEngine .decrypt p c .d1, port := none } := by
  have hs : engineStep (execWith cfg) s = issue cfg .decrypt (commandOf .decrypt p c) s := by
    simp [engineStep, fetchOp, hp, commandOf, opcode, decode, decodeOp, execWith, decryptCommand]
  have h1 : (commandOf .decrypt p c).ppBounded cfg = true := decide_eq_true ha.1
  have h2 : (commandOf .decrypt p c).inBounded cfg .decrypt = true := decide_eq_true ha.2
  rw [hs]
  unfold issue
  rw [if_neg (by rw [he]; simp), if_neg (by simp [commandOf]), if_neg (by simp [commandOf, Command.ppShape, Command.inShape]),
    if_neg (not_not.mpr h1), if_neg (not_not.mpr h2)]
  simp only [he]
  rfl

theorem engineStep_e1 (hp : s.port = none) (he : s.engine.phase = .e1) : engineStep (execWith cfg) s = drawStep s := by
  simp [engineStep, fetchOp, hp, he, Phase.selects, opcode, decode, decodeOp, execWith, encryptCommand]

theorem engineStep_e2 (p m : ByteString) (salt : Bytes 16) (nonce : Bytes 12) (hp : s.port = none)
    (he : s.engine = saltedEngine .encrypt p m salt nonce .e2) :
    engineStep (execWith cfg) s =
      match deriveKey cfg p salt.1 with
      | .ok key => .next { s with engine := keyedEngine cfg .encrypt p m salt nonce key .e3 }
      | .error e => .next { s with engine := responseEngine (.error e), completions := s.completions + 1 } := by
  have hs : engineStep (execWith cfg) s = deriveOp cfg .e3 s := by
    simp [engineStep, fetchOp, hp, he, Phase.selects, opcode, decode, decodeOp, execWith, deriveUnit]
  rw [hs]
  unfold deriveOp withSalt
  rw [withPassphrase_ofBytes _ p (by rw [he]; rfl) (by rw [he]; rfl), show s.engine.salt = some salt by rw [he]; rfl, need_some]
  cases deriveKey cfg p salt.1
  · rfl
  · simp only [he]; rfl

theorem engineStep_e3 (p m : ByteString) (salt : Bytes 16) (nonce : Bytes 12) (key : Bytes 32) (hp : s.port = none)
    (he : s.engine = keyedEngine cfg .encrypt p m salt nonce key .e3) :
    engineStep (execWith cfg) s = .next { s with engine := sealedEngine cfg p m salt nonce key } := by
  have hs : engineStep (execWith cfg) s = sealOperation cfg s := by
    simp [engineStep, fetchOp, hp, he, Phase.selects, opcode, decode, decodeOp, execWith, sealUnit]
  rw [hs]
  unfold sealOperation withKey withNonce withInLen
  rw [show s.engine.key = some key by rw [he]; rfl, need_some, show s.engine.nonce = some nonce by rw [he]; rfl, need_some,
    show s.engine.inLen = some m.length by rw [he]; rfl, need_some, withInput_ofBytes 0 m.length _ m ⟨m, rfl⟩ (by rw [he]; rfl) (by simp)]
  simp only [he]
  rfl

theorem engineStep_e4 (p m : ByteString) (salt : Bytes 16) (nonce : Bytes 12) (key : Bytes 32) (hp : s.port = none)
    (he : s.engine = sealedEngine cfg p m salt nonce key) :
    engineStep (execWith cfg) s = .next { s with
      engine := responseEngine (.ok (containerOf salt nonce (cfg.sealFn key nonce m).1)), completions := s.completions + 1 } := by
  have hph : s.engine.phase = .e4 := by rw [he]; rfl
  have hs : engineStep (execWith cfg) s = emitStep s := by
    simp [engineStep, fetchOp, hp, hph, Phase.selects, opcode, decode, decodeOp, execWith, encryptCommand]
  have hx : ∃ t, emitStep s = .next t := by
    unfold emitStep withSalt withNonce withInLen withStaged
    rw [show s.engine.salt = some salt by rw [he]; rfl, need_some, show s.engine.nonce = some nonce by rw [he]; rfl, need_some,
      show s.engine.inLen = some m.length by rw [he]; rfl, need_some,
      show s.engine.staged = some (cfg.sealFn key nonce m).1 by rw [he], need_some]
    simp only [memWrite, salt.2, nonce.2, (cfg.sealFn key nonce m).2, if_true, completeOk]
    exact ⟨_, rfl⟩
  obtain ⟨t, ht⟩ := hx
  rw [hs, ht]
  obtain ⟨a, b, n, x, h1, h2, h3, h4, h5, rfl⟩ := emitStep_next ht
  rw [he] at h1 h2 h4
  simp only [keyedEngine, saltedEngine, Option.some.injEq] at h1 h2 h4
  subst h1 h2 h4
  rfl

theorem engineStep_d1 (p c : ByteString) (hp : s.port = none) (he : s.engine = loadedEngine .decrypt p c .d1) :
    engineStep (execWith cfg) s =
      if c.length < 44 then .next { s with engine := responseEngine (.error .tooShort), completions := s.completions + 1 }
      else .next { s with engine := loadedEngine .decrypt p c .d2 } := by
  have hs : engineStep (execWith cfg) s = lengthStep s := by
    simp [engineStep, fetchOp, hp, he, Phase.selects, opcode, decode, decodeOp, execWith, decryptCommand]
  rw [hs]
  unfold lengthStep withInLen
  rw [show s.engine.inLen = some c.length by rw [he]; rfl, need_some]
  simp only [minContainerLen]
  split
  · rfl
  · simp only [he]; rfl

theorem engineStep_d2 (p c : ByteString) (h : 44 ≤ c.length) (hp : s.port = none) (he : s.engine = loadedEngine .decrypt p c .d2) :
    engineStep (execWith cfg) s =
      .next { s with engine := saltedEngine .decrypt p c (containerSalt c h) (containerNonce c h) .d3 } := by
  have hs : engineStep (execWith cfg) s = sliceStep s := by
    simp [engineStep, fetchOp, hp, he, Phase.selects, opcode, decode, decodeOp, execWith, decryptCommand]
  rw [hs]
  unfold sliceStep withInLen
  rw [show s.engine.inLen = some c.length by rw [he]; rfl, need_some,
    withInput_ofBytes 0 16 _ c (containerSalt c h) (by rw [he]; rfl) (by simp [containerSalt, slice]),
    withInput_ofBytes 16 12 _ c (containerNonce c h) (by rw [he]; rfl) (by simp [containerNonce, slice]),
    withInput_ofBytes 28 (c.length - 28) _ c ⟨c.drop 28, by simp⟩ (by rw [he]; rfl) (by simp)]
  simp only [he]
  rfl

theorem engineStep_d3 (p c : ByteString) (salt : Bytes 16) (nonce : Bytes 12) (hp : s.port = none)
    (he : s.engine = saltedEngine .decrypt p c salt nonce .d3) :
    engineStep (execWith cfg) s =
      match deriveKey cfg p salt.1 with
      | .ok key => .next { s with engine := keyedEngine cfg .decrypt p c salt nonce key .d4 }
      | .error e => .next { s with engine := responseEngine (.error e), completions := s.completions + 1 } := by
  have hs : engineStep (execWith cfg) s = deriveOp cfg .d4 s := by
    simp [engineStep, fetchOp, hp, he, Phase.selects, opcode, decode, decodeOp, execWith, deriveUnit]
  rw [hs]
  unfold deriveOp withSalt
  rw [withPassphrase_ofBytes _ p (by rw [he]; rfl) (by rw [he]; rfl), show s.engine.salt = some salt by rw [he]; rfl, need_some]
  cases deriveKey cfg p salt.1
  · rfl
  · simp only [he]; rfl

theorem engineStep_d4 (p c : ByteString) (salt : Bytes 16) (nonce : Bytes 12) (key : Bytes 32) (h : 44 ≤ c.length) (hp : s.port = none)
    (he : s.engine = keyedEngine cfg .decrypt p c salt nonce key .d4) :
    engineStep (execWith cfg) s =
      match cfg.openFn key nonce (containerSealOutput c) with
      | some r => .next { s with engine := openedEngine cfg p c salt nonce key r.1 }
      | none => .next { s with engine := responseEngine (.error .decryptionFailed), completions := s.completions + 1 } := by
  have hs : engineStep (execWith cfg) s = openOperation cfg s := by
    simp [engineStep, fetchOp, hp, he, Phase.selects, opcode, decode, decodeOp, execWith, openUnit]
  rw [hs]
  unfold openOperation withKey withNonce withInLen
  rw [show s.engine.key = some key by rw [he]; rfl, need_some, show s.engine.nonce = some nonce by rw [he]; rfl, need_some,
    show s.engine.inLen = some c.length by rw [he]; rfl, need_some,
    withInput_ofBytes 28 (c.length - 28) _ c ⟨c.drop 28, by simp⟩ (by rw [he]; rfl) (by simp), if_neg (by simp; omega)]
  simp only [containerSealOutput]
  cases cfg.openFn key nonce (c.drop 28)
  · rfl
  · simp only [he]; rfl

theorem engineStep_d5 (p c : ByteString) (salt : Bytes 16) (nonce : Bytes 12) (key : Bytes 32) (r : ByteString)
    (hr : r.length = c.length - 44) (hp : s.port = none) (he : s.engine = openedEngine cfg p c salt nonce key r) :
    engineStep (execWith cfg) s = .next { s with engine := responseEngine (.ok r), completions := s.completions + 1 } := by
  have hph : s.engine.phase = .d5 := by rw [he]; rfl
  have hs : engineStep (execWith cfg) s = releaseStep s := by
    simp [engineStep, fetchOp, hp, hph, Phase.selects, opcode, decode, decodeOp, execWith, decryptCommand]
  have hx : ∃ t, releaseStep s = .next t := by
    unfold releaseStep withInLen withStaged
    rw [show s.engine.inLen = some c.length by rw [he]; rfl, need_some, show s.engine.staged = some r by rw [he], need_some]
    simp only [memWrite, hr, if_true, completeOk]
    exact ⟨_, rfl⟩
  obtain ⟨t, ht⟩ := hx
  rw [hs, ht]
  obtain ⟨n, x, h3, h4, h5, rfl⟩ := releaseStep_next ht
  rw [he] at h4
  simp only [Option.some.injEq] at h4
  subst h4
  rfl

/-- An idle engine and one at `DONE` have nothing to run (R30, R31). -/
theorem engineStep_waits (hp : s.port = none) (he : s.engine.phase = .idle ∨ s.engine.phase = .done) :
    engineStep (execWith cfg) s = .next s := by
  rcases he with he | he <;> simp [engineStep, fetchOp, hp, he, Phase.selects, decode]

/-! ## The step, by what the host does -/

/-- With a command at the port, the step is the engine's. -/
theorem stepWith_port (h : s.port.isSome = true) : stepWith cfg s = engineStep (execWith cfg) s := by
  unfold stepWith stepBy
  revert h
  cases s.port <;> simp

/-- With nothing at the port and nothing planned, the step is that of the engine whose turn it is, and the turn passes. -/
theorem stepWith_idle_host (hp : s.port = none) (hs : s.script = []) :
    stepWith cfg s = passTurnAfter (engineStep (execWith cfg) s) := by
  unfold stepWith stepBy
  simp [hp, hs]

/-- With nothing at the port, the step is the host's next act. -/
theorem stepWith_host {a : HostAction} {acts : List HostAction} (hp : s.port = none) (hs : s.script = a :: acts) :
    stepWith cfg s = hostStep (execWith cfg) a { s with script := acts } := by
  unfold stepWith stepBy
  simp [hs, hp]

/-- What the host reads of `OUT` in a response (R57, R87). -/
theorem responseEngine_hostOut (r : Except ErrorKind ByteString) : (responseEngine r).hostOut = (responseOf r).out := by
  cases r with
  | error k => cases k <;> rfl
  | ok b => simp [Engine.hostOut, responseEngine, responseOf, Engine.outValidFlag, Engine.reset]

/-- A collect of a response never faults: its registers are all there (R21, R87, R268). -/
theorem collect_response (r : Except ErrorKind ByteString) (he : s.engine = responseEngine r) :
    collect s = .next { s with engine := Engine.reset, responses := s.responses ++ [responseOf r] } := by
  unfold collect withResponseOut
  rw [he, if_pos (by simp)]
  cases r with
  | error k => cases k <;> rfl
  | ok b => simp [responseEngine, responseOf, Engine.hostStatus, Engine.hostOutLen, Engine.outValidFlag, Engine.doneFlag, Engine.reset, Engine.collected]

theorem runSteps_succ (f : State → Result) (n : Nat) (t : State) (h : f s = .next t) : runSteps f (n + 1) s = runSteps f n t := by
  simp [runSteps, h]

end Sys2Proof.Machine
end

