-- ==== Sys2Proof/Laws/Turns.lean ====
section
/-! SUPPORT. What a turn does (60_exceptions.md R274, 10_state.md R42): one step of an instance of the invariant whose source answers, and the turns of
several instances one after the other when nothing is planned. -/

namespace Sys2Proof.Machine

variable {cfg : Config} {s : State}

/-! ## How often a source answers -/

theorem AnswersTimes_mono {k j : Nat} {src : RngSource} (h : src.AnswersTimes (k + j)) : src.AnswersTimes k := by
  induction k generalizing src with
  | zero => trivial
  | succ k ih =>
    rw [show k + 1 + j = k + j + 1 by omega] at h
    exact fun n => ⟨(h n).1, ih (h n).2⟩

/-- How many draws an instance can still make, by the phase it is in (R141). -/
def Phase.drawsLeft : Phase → Nat
  | .e1 => 2
  | _ => 0

/-- With two answers to come, `E1` ends: by a failure or by going on, and the source has moved on by at most two. -/
theorem drawStep_answered {k : Nat} (ha : s.rng.AnswersTimes (k + 2)) :
    (∃ after, after.AnswersTimes k ∧ drawStep s = .next { s with
      rng := after, engine := responseEngine (.error .randomSourceUnavailable), completions := s.completions + 1 }) ∨
    ∃ salt nonce after, after.AnswersTimes k ∧ drawStep s = .next { s with
      rng := after, engine := { s.engine with salt := some salt, nonce := some nonce, phase := .e2 } } := by
  obtain ⟨h1, h2⟩ := ha 16
  unfold drawStep
  revert h1 h2
  rcases RngSource.draw 16 s.rng with ⟨d, r⟩
  intro h1 h2
  cases d with
  | noAnswer => exact absurd rfl h1
  | fail => exact .inl ⟨r, AnswersTimes_mono (j := 1) h2, rfl⟩
  | got salt =>
    obtain ⟨h3, h4⟩ := h2 12
    revert h3 h4
    dsimp only
    rcases RngSource.draw 12 r with ⟨d, r'⟩
    intro h3 h4
    cases d with
    | noAnswer => exact absurd rfl h3
    | fail => exact .inl ⟨r', h4, rfl⟩
    | got nonce => exact .inr ⟨salt, nonce, r', h4, rfl⟩

/-! ## One turn -/

/-- `e'` is what instance `e` is after a step of its own, nothing presented to it and the source answering its draws. -/
def EngineTurn (cfg : Config) (e e' : Engine) : Prop :=
  ∃ u t : State, u.engine = e ∧ u.port = none ∧ u.rng.AnswersTimes e.phase.drawsLeft ∧ engineStep (execWith cfg) u = .next t ∧ t.engine = e'

/-- How many steps of its own a command has left at most, by the phase it is in (R31). -/
def Phase.stepsLeft : Phase → Nat
  | .idle => 0
  | .e1 => 4
  | .e2 => 3
  | .e3 => 2
  | .e4 => 1
  | .d1 => 5
  | .d2 => 4
  | .d3 => 3
  | .d4 => 2
  | .d5 => 1
  | .done => 0

/-- An instance that waits stays as it is; a busy one comes at least one step nearer to `DONE`. -/
structure Advances (e e' : Engine) : Prop where
  waits : e.busyFlag = false → e' = e
  nearer : e.busyFlag = true → e'.phase ≠ .idle ∧ e'.phase.stepsLeft + 1 ≤ e.phase.stepsLeft

theorem Advances.of_phases {e e' : Engine} (p p' : Phase) (he : e.phase = p) (he' : e'.phase = p')
    (h : (p ≠ .idle ∧ p ≠ .done) ∧ p' ≠ .idle ∧ p'.stepsLeft + 1 ≤ p.stepsLeft) : Advances e e' := by
  subst he he'
  exact ⟨fun hb => absurd h.1 (by simpa [Engine.busyFlag] using hb), fun _ => h.2⟩

theorem Advances.of_waits {e e' : Engine} (hb : e.busyFlag = false) (h : e' = e) : Advances e e' :=
  ⟨fun _ => h, fun hb' => by rw [hb] at hb'; cases hb'⟩

/-- A step of an instance of the invariant: it answers, keeps the invariant, changes no other instance and nothing the host planned, makes at most the
draws its phase has left, and takes a busy instance one step nearer to `DONE`. -/
theorem engineStep_turn (hi : EngineInv cfg s.engine) (hp : s.port = none) (k : Nat) (ha : s.rng.AnswersTimes (k + s.engine.phase.drawsLeft)) :
    ∃ t, engineStep (execWith cfg) s = .next t ∧ EngineInv cfg t.engine ∧ t.others = s.others ∧ t.port = none ∧ t.script = s.script ∧
      t.rng.AnswersTimes (k + t.engine.phase.drawsLeft) ∧ Advances s.engine t.engine := by
  generalize hE : s.engine = E at hi ha
  cases hi with
  | idle =>
    exact ⟨s, engineStep_waits hp (.inl (by rw [hE]; rfl)), by rw [hE]; exact .idle, rfl, hp, rfl, by rw [hE]; exact ha, .of_waits rfl hE⟩
  | done r =>
    exact ⟨s, engineStep_waits hp (.inr (by rw [hE]; simp)), by rw [hE]; exact .done r, rfl, hp, rfl, by rw [hE]; exact ha,
      .of_waits (by simp [Engine.busyFlag]) hE⟩
  | e1 p m h =>
    rw [engineStep_e1 hp (by rw [hE]; rfl)]
    obtain ⟨after, hk, hd⟩ | ⟨salt, nonce, after, hk, hd⟩ := drawStep_answered (k := k) ha
    · exact ⟨_, hd, .done (.error _), rfl, hp, rfl, hk, .of_phases .e1 .done rfl rfl (by decide)⟩
    · rw [hE] at hd
      exact ⟨_, hd, .e2 p m salt nonce h, rfl, hp, rfl, hk, .of_phases .e1 .e2 rfl rfl (by decide)⟩
  | e2 p m salt nonce h =>
    have hs := engineStep_e2 (cfg := cfg) p m salt nonce hp hE
    cases hk : deriveKey cfg p salt.1 with
    | error e => rw [hk] at hs; exact ⟨_, hs, .done (.error _), rfl, hp, rfl, ha, .of_phases .e2 .done rfl rfl (by decide)⟩
    | ok key => rw [hk] at hs; exact ⟨_, hs, .e3 p m salt nonce key h hk, rfl, hp, rfl, ha, .of_phases .e2 .e3 rfl rfl (by decide)⟩
  | e3 p m salt nonce key h hk =>
    exact ⟨_, engineStep_e3 p m salt nonce key hp hE, .e4 p m salt nonce key h hk, rfl, hp, rfl, ha, .of_phases .e3 .e4 rfl rfl (by decide)⟩
  | e4 p m salt nonce key h hk =>
    exact ⟨_, engineStep_e4 p m salt nonce key hp hE, .done (.ok _), rfl, hp, rfl, ha, .of_phases .e4 .done rfl rfl (by decide)⟩
  | d1 p c h =>
    have hs := engineStep_d1 (cfg := cfg) p c hp hE
    by_cases hl : c.length < 44
    · rw [if_pos hl] at hs
      exact ⟨_, hs, .done (.error _), rfl, hp, rfl, ha, .of_phases .d1 .done rfl rfl (by decide)⟩
    · rw [if_neg hl] at hs
      exact ⟨_, hs, .d2 p c h (by omega), rfl, hp, rfl, ha, .of_phases .d1 .d2 rfl rfl (by decide)⟩
  | d2 p c h hl =>
    exact ⟨_, engineStep_d2 p c hl hp hE, .d3 p c h hl, rfl, hp, rfl, ha, .of_phases .d2 .d3 rfl rfl (by decide)⟩
  | d3 p c h hl =>
    have hs := engineStep_d3 (cfg := cfg) p c _ _ hp hE
    cases hk : deriveKey cfg p (containerSalt c hl).1 with
    | error e => rw [hk] at hs; exact ⟨_, hs, .done (.error _), rfl, hp, rfl, ha, .of_phases .d3 .done rfl rfl (by decide)⟩
    | ok key => rw [hk] at hs; exact ⟨_, hs, .d4 p c key h hl hk, rfl, hp, rfl, ha, .of_phases .d3 .d4 rfl rfl (by decide)⟩
  | d4 p c key h hl hk =>
    have hs := engineStep_d4 p c _ _ key hl hp hE
    cases ho : cfg.openFn key (containerNonce c hl) (containerSealOutput c) with
    | none => rw [ho] at hs; exact ⟨_, hs, .done (.error _), rfl, hp, rfl, ha, .of_phases .d4 .done rfl rfl (by decide)⟩
    | some r => rw [ho] at hs; exact ⟨_, hs, .d5 p c key r h hl hk ho, rfl, hp, rfl, ha, .of_phases .d4 .d5 rfl rfl (by decide)⟩
  | d5 p c key r h hl hk hr =>
    exact ⟨_, engineStep_d5 p c _ _ key r.1 (by rw [r.2]; simp [containerSealOutput]; omega) hp hE, .done (.ok _), rfl, hp, rfl, ha,
      .of_phases .d5 .done rfl rfl (by decide)⟩

theorem EngineTurn.keeps {e e' : Engine} (hi : EngineInv cfg e) (h : EngineTurn cfg e e') : EngineInv cfg e' ∧ Advances e e' := by
  obtain ⟨u, t, rfl, hp, ha, hs, rfl⟩ := h
  obtain ⟨t', hs', hi', -, -, -, -, hadv⟩ := engineStep_turn hi hp 0 (by rwa [Nat.zero_add])
  rw [hs] at hs'
  cases hs'
  exact ⟨hi', hadv⟩

/-! ## The turns of several instances -/

theorem runSteps_add (f : State → Result) (n m : Nat) (s : State) :
    runSteps f (n + m) s = match runSteps f n s with
      | .next t => runSteps f m t
      | .fault r => .fault r
      | .refused r => .refused r := by
  induction n generalizing s with
  | zero => simp [runSteps]
  | succ n ih =>
    rw [Nat.add_right_comm]
    simp only [runSteps]
    cases f s with
    | next t => exact ih t
    | fault r => rfl
    | refused r => rfl

theorem forall₂_trans {α : Type} {R S T : α → α → Prop} (h : ∀ a b c, R a b → S b c → T a c) {l m n : List α}
    (h1 : List.Forall₂ R l m) (h2 : List.Forall₂ S m n) : List.Forall₂ T l n := by
  induction h1 generalizing n with
  | nil => cases h2; exact .nil
  | cons hab _ ih => cases h2 with | cons hbc h2 => exact .cons (h _ _ _ hab hbc) (ih h2)

/-- How many draws some instances can still make. -/
def drawsLeft (l : List Engine) : Nat := (l.map fun e => e.phase.drawsLeft).sum

theorem drawsLeft_le (l : List Engine) : drawsLeft l ≤ 2 * l.length := by
  induction l with
  | nil => exact Nat.le_refl _
  | cons e l ih =>
    have h : e.phase.drawsLeft ≤ 2 := by cases e.phase <;> decide
    simp only [drawsLeft, List.map_cons, List.sum_cons, List.length_cons] at *
    omega

/-- What the turns of the instances need: nothing presented, nothing planned, every instance of the invariant, and a source that answers what they can
still ask. -/
structure TurnsReady (cfg : Config) (s : State) : Prop where
  port : s.port = none
  script : s.script = []
  inv : ∀ e ∈ s.engine :: s.others, EngineInv cfg e
  rng : s.rng.AnswersTimes (drawsLeft (s.engine :: s.others))

/-- The turns of the first instances in order: each makes its step and goes behind the others. -/
theorem runSteps_turns (front back : List Engine) (hf : s.engine :: s.others = front ++ back) (hr : TurnsReady cfg s) :
    ∃ t front', runSteps (stepWith cfg) front.length s = .next t ∧ t.engine :: t.others = back ++ front' ∧
      List.Forall₂ (EngineTurn cfg) front front' ∧ TurnsReady cfg t := by
  induction front generalizing s back with
  | nil => exact ⟨s, [], rfl, by simpa using hf, .nil, hr⟩
  | cons e front ih =>
    simp only [List.cons_append, List.cons.injEq] at hf
    obtain ⟨rfl, ho⟩ := hf
    have ha := hr.rng
    rw [drawsLeft, List.map_cons, List.sum_cons, Nat.add_comm] at ha
    obtain ⟨u, hu, hui, huo, hup, hus, hur, -⟩ := engineStep_turn (hr.inv _ (by simp)) hr.port _ ha
    have hs : stepWith cfg s = .next (passTurn u) := by rw [stepWith_idle_host hr.port hr.script, hu]; rfl
    have hpi := passTurn_instances u
    rw [huo, ho] at hpi
    obtain ⟨t, front', h1, h2, h3, h4⟩ := ih (s := passTurn u) (back ++ [u.engine]) (by rw [hpi, List.append_assoc]) {
      port := by simpa using hup
      script := by simpa using hus.trans hr.script
      inv := by
        intro e he
        rw [hpi, ← ho] at he
        rcases List.mem_append.mp he with he | he
        · exact hr.inv e (by simp [he])
        · rw [List.mem_singleton.mp he]; exact hui
      rng := by
        rw [hpi, ← ho, passTurn_rng]
        simpa [drawsLeft] using hur }
    refine ⟨t, u.engine :: front', ?_, by simpa using h2, .cons ⟨s, u, rfl, hr.port, AnswersTimes_mono (Nat.add_comm _ _ ▸ ha), hu, rfl⟩ h3, h4⟩
    rw [List.length_cons, runSteps_succ _ _ _ hs]
    exact h1

/-- What an instance is after `k` turns of its own. -/
inductive EngineTurns (cfg : Config) : Nat → Engine → Engine → Prop where
  | none (e : Engine) : EngineTurns cfg 0 e e
  | next {k : Nat} {e e' e'' : Engine} (h : EngineTurn cfg e e') (hs : EngineTurns cfg k e' e'') : EngineTurns cfg (k + 1) e e''

/-- `k` rounds: every instance makes `k` turns, and each stands where it stood. -/
theorem runSteps_rounds (k : Nat) (hr : TurnsReady cfg s) :
    ∃ t, runSteps (stepWith cfg) (k * (s.others.length + 1)) s = .next t ∧ TurnsReady cfg t ∧
      List.Forall₂ (EngineTurns cfg k) (s.engine :: s.others) (t.engine :: t.others) := by
  induction k generalizing s with
  | zero => exact ⟨s, by simp [runSteps], hr, List.forall₂_same.mpr fun e _ => .none e⟩
  | succ k ih =>
    obtain ⟨u, front, hu, huf, hue, hur⟩ := runSteps_turns (s.engine :: s.others) [] (by simp) hr
    rw [List.nil_append] at huf
    rw [← huf] at hue
    have hl : u.others.length = s.others.length := by simpa using hue.length_eq.symm
    obtain ⟨t, ht, htr, hte⟩ := ih hur
    rw [hl] at ht
    refine ⟨t, ?_, htr, ?_⟩
    · rw [Nat.succ_mul, Nat.add_comm, runSteps_add, show s.others.length + 1 = (s.engine :: s.others).length from rfl, hu]
      exact ht
    · exact forall₂_trans (S := EngineTurns cfg k) (fun _ _ _ h hs => .next h hs) hue hte

end Sys2Proof.Machine
end

