-- ==== Sys2Proof/Tests/Slice0.lean ====
section
/-! SUPPORT. Tests: decoding, ill-formed commands, one-step checks against the vectors of spec/95_test_vectors.md and the known answers inside the rules, and
one witness for the hypotheses of each statement of Sys2Proof/Certificates/Slice0/Obligations.lean that has any. -/

namespace Sys2Proof.Tests

open Sys2Proof Sys2Proof.Machine

/-! ## Common inputs of spec/95 -/

/-- `S1`: bytes 00 to 0f. -/
def salt1 : Bytes 16 := beBytes 16 0x000102030405060708090a0b0c0d0e0f
/-- `N1`: bytes 10 to 1b. -/
def nonce1 : Bytes 12 := beBytes 12 0x101112131415161718191a1b
/-- `P1`: "correct-horse". -/
def pass1 : ByteString := (beBytes 13 0x636f72726563742d686f727365).1
/-- `M1`: "hello world". -/
def msg1 : ByteString := (beBytes 11 0x68656c6c6f20776f726c64).1
/-- The key of vector K1. -/
def key1 : Bytes 32 := beBytes 32 0x320750f50df8f0086e0cf09e97d0802f5b31754896053352151addbe6a458115
/-- The SealOutput of vector A1. -/
def sealed1 : ByteString := (beBytes 27 0x04280f3f7e03a2c0b74461abffe61537b8bf0875faf671d27b494b).1
/-- Random stream A, its first 28 bytes and two more. -/
def streamA : ByteString := (beBytes 30 0x000102030405060708090a0b0c0d0e0f101112131415161718191a1b1c1d).1

/-- The block with an engine, a source and a script. -/
def st (e : Engine) (rng : RngSource := .unbound) (script : List HostAction := []) : State :=
  { State.reset with engine := e, rng := rng, script := script }

/-- An idle block to which a command is presented. -/
def presented (c : Command) : State := { State.reset with port := some c }

/-- Whether a result is a next state in which `p` holds. -/
def nextIs (r : Result) (p : State → Bool) : Bool :=
  match r with
  | .next t => p t
  | .fault _ => false
  | .refused _ => false

/-- Whether a result is the refusal `f`. -/
def refusedAs (r : Result) (f : Refusal) : Bool :=
  match r with
  | .next _ => false
  | .fault _ => false
  | .refused g => decide (g = f)

/-! ## Decoding: the words of 30_encoding.md R83, bit by bit -/

theorem test_word_encrypt : decode [0b00000001#8] = .ok (.encrypt, []) := by decide
theorem test_word_decrypt : decode [0b00000010#8] = .ok (.decrypt, []) := by decide
theorem test_word_derive : decode [0b00010000#8] = .ok (.derive, []) := by decide
theorem test_word_seal : decode [0b00100000#8] = .ok (.sealOp, []) := by decide
theorem test_word_open : decode [0b00100001#8] = .ok (.openOp, []) := by decide
/-- Values next to the codes are reserved (R88). -/
theorem test_words_reserved :
    decodeOp 0x00#8 = .error (.reservedOp 0x00#8) ∧ decodeOp 0x03#8 = .error (.reservedOp 0x03#8) ∧
    decodeOp 0x11#8 = .error (.reservedOp 0x11#8) ∧ decodeOp 0x22#8 = .error (.reservedOp 0x22#8) ∧
    decodeOp 0xff#8 = .error (.reservedOp 0xff#8) := by decide
theorem test_no_bytes : decode [] = .error .noBytes := by decide

/-! ## Ill-formed commands, one for each check of WellFormed.lean -/

theorem test_wellformed_good : (commandOf .encrypt pass1 msg1).wf defaultConfig .encrypt = true := by decide
theorem test_illformed_passphrase_length : (Command.mk 0x01#8 2 0 [0x61#8] []).ppShape = false := by decide
theorem test_illformed_input_length : (Command.mk 0x01#8 1 1 [0x61#8] []).inShape = false := by decide
theorem test_illformed_passphrase_bound : (Command.mk 0x01#8 2305843009213693952 0 [] []).ppBounded defaultConfig = false := by decide
theorem test_illformed_plaintext_bound : (Command.mk 0x01#8 0 68719476705 [] []).inBounded defaultConfig .encrypt = false := by decide
theorem test_illformed_container_bound :
    (Command.mk 0x02#8 0 68719476748 [] []).inBounded defaultConfig .decrypt = true ∧
    (Command.mk 0x02#8 0 68719476749 [] []).inBounded defaultConfig .decrypt = false := by decide
theorem test_illformed_unit_operation : (Command.mk 0x10#8 0 0 [] []).wf defaultConfig .derive = false := by decide

/-! ## Issue and refusal -/

/-- Vector C23: reserved codes and unit operations are refused at the host port. -/
theorem test_refused_at_the_port :
    refusedAs (step (presented ⟨0x10#8, 0, 0, [], []⟩)) .unitOpFromHost = true ∧
    refusedAs (step (presented ⟨0x20#8, 0, 0, [], []⟩)) .unitOpFromHost = true ∧
    refusedAs (step (presented ⟨0x21#8, 0, 0, [], []⟩)) .unitOpFromHost = true ∧
    refusedAs (step (presented ⟨0x00#8, 0, 0, [], []⟩)) (.reservedOp 0x00#8) = true := by decide

/-- Vector C24: a DECRYPT issued while a response waits. -/
theorem test_refused_while_done :
    refusedAs (step { presented (commandOf .decrypt pass1 sealed1) with engine := responseEngine (.ok msg1) }) .engineNotIdle = true := by
  decide

/-- Program 1, line 1 of the trace: `CMD = 01`, `PHASE = E1`, `BUSY = 1`. -/
theorem test_issue :
    nextIs (step (presented (commandOf .encrypt pass1 msg1)))
      (fun t => decide (t.engine.cmd = some 0x01#8) && decide (t.engine.phase = .e1) && t.engine.busyFlag && decide (t.engine.inLen = some 11)) =
      true := by decide

/-! ## One step of each operation -/

/-- Stream A: the first draw is `S1`, the second `N1` (spec/95, common inputs). -/
theorem test_encrypt_draws :
    nextIs (step (st (loadedEngine .encrypt pass1 msg1 .e1) (.substitute streamA)))
      (fun t => decide (t.engine.salt = some salt1) && decide (t.engine.nonce = some nonce1) && decide (t.rng = .substitute [0x1c#8, 0x1d#8])) =
      true := by decide

/-- Vector C1: the container of the staged SealOutput of A1. -/
theorem test_encrypt_emits :
    nextIs (step (st { saltedEngine .encrypt pass1 msg1 salt1 nonce1 .e4 with staged := some sealed1 }))
      (fun t => decide (t.engine.outLen = some 55) && t.engine.outValidFlag &&
        decide (t.engine.hostOut = some (beBytes 55
          0x000102030405060708090a0b0c0d0e0f101112131415161718191a1b04280f3f7e03a2c0b74461abffe61537b8bf0875faf671d27b494b).1)) =
      true := by decide

/-- Vectors C5 and C6: 43 bytes are `TooShort`, 44 bytes go on. -/
theorem test_decrypt_length :
    nextIs (step (st (loadedEngine .decrypt pass1 (List.replicate 43 0x00#8) .d1))) (fun t => decide (t.engine.status = some 0x01#8)) = true ∧
    nextIs (step (st (loadedEngine .decrypt pass1 (List.replicate 44 0x00#8) .d1))) (fun t => decide (t.engine.phase = .d2)) = true := by
  decide

/-- Vector C2, phase `D2`: the slices of container C1. -/
theorem test_decrypt_slices :
    nextIs (step (st (loadedEngine .decrypt pass1 (containerOf salt1 nonce1 sealed1) .d2)))
      (fun t => decide (t.engine.salt = some salt1) && decide (t.engine.nonce = some nonce1) && decide (t.engine.phase = .d3)) = true := by
  decide

/-- Vector C16, phase `E2`: an empty passphrase ends the command with `EmptyPassphrase`. -/
theorem test_derive_empty :
    nextIs (step (st (saltedEngine .encrypt [] msg1 salt1 nonce1 .e2))) (fun t => decide (t.engine.status = some 0x04#8)) = true := by
  decide

/-- Vector K14: a 15-byte salt is tested before the empty passphrase. -/
theorem test_derive_salt_first : deriveKey defaultConfig [] salt1.1.tail = .error .invalidSalt := by decide

/-- The first row of R227: the tag of the empty message under the zero key and nonce, written to `TAG`. -/
theorem test_seal_tag :
    nextIs (step (st (unitEngine .sealOp)))
      (fun t => decide (t.engine.tag = some (beBytes 16 0x530f8afbc74536b9a963b4f1c4cb738b)) && decide (t.engine.phase = .e4)) = true := by
  decide +kernel

/-- Vector A1: the SealOutput of "hello world" under `k1` and `N1`. -/
theorem test_seal_hello : (gcmSeal key1 nonce1 msg1).1 = sealed1 := by decide +kernel

/-- The D4 state in which OPEN meets the tag `t` of an empty ciphertext under the zero key and nonce. -/
def openState (t : Bytes 16) : State :=
  st { Engine.reset.loaded (commandOf .decrypt [0x61#8] (List.replicate 28 0x00#8 ++ t.1)) .d4 with
    salt := some (Bytes.zero 16), nonce := some (Bytes.zero 12), key := some (Bytes.zero 32) }

/-- The tag of the first row of R227. -/
def zeroTag : Bytes 16 := beBytes 16 0x530f8afbc74536b9a963b4f1c4cb738b

/-- The first row of R227 opened: the empty plaintext, staged. -/
theorem test_open_succeeds :
    nextIs (step (openState zeroTag)) (fun t => decide (t.engine.staged = some []) && decide (t.engine.phase = .d5)) = true := by
  decide +kernel

/-- The same with another tag: `DecryptionFailed`, and `OUT_LEN` is 0 (R122, R128; vector A12 is such a case). -/
theorem test_open_fails :
    nextIs (step (openState (Bytes.zero 16)))
      (fun t => decide (t.engine.status = some 0x02#8) && decide (t.engine.outLen = some 0) && decide (t.engine.staged = none)) = true := by
  decide +kernel

/-! ## Tamper sensitivity: the regions of a container (R150, R151)

What R150 leaves to tests. The derivation of 100000 iterations is not evaluated here: each test starts where it has ended, in `D4` with the key that
95_test_vectors.md gives for the salt of the container, and makes the one step of `OPEN`. -/

/-- The container of vector C1. -/
def container1 : ByteString := containerOf salt1 nonce1 sealed1

/-- `DECRYPT` of the container `c` under `P1`, parsed, with the derived key `key`, before `OPEN`. -/
def opening (c : ByteString) (key : Bytes 32) : State :=
  if h : 44 ≤ c.length then
    st { saltedEngine .decrypt pass1 c (containerSalt c h) (containerNonce c h) .d4 with key := some key }
  else State.reset

/-- `OPEN` answers `DecryptionFailed` with `OUT_LEN` 0 and neither an `OUT` nor a staged plaintext (R122, R127). -/
def rejected (c : ByteString) (key : Bytes 32) : Bool :=
  nextIs (step (opening c key)) fun t =>
    decide (t.engine.status = some 0x02#8) && decide (t.engine.outLen = some 0) &&
      decide (t.engine.out = none) && decide (t.engine.staged = none)

/-- `c` with the bits `mask` of its byte `i` flipped. -/
def flip (c : ByteString) (i : Nat) (mask : Byte) : ByteString := c.set i (c.getD i 0 ^^^ mask)

/-- The keys that `P1` derives from the salts of K12 (first bit flipped) and K13 (all zero), and that `P2` derives from `salt1` (K2). -/
def keyK12 : Bytes 32 := beBytes 32 0xe039143702eff32441fe2b43b13e5c6197e761df9b4c1ed6fcf6fab8626ddf69
def keyK13 : Bytes 32 := beBytes 32 0xa7ab8bf39fc1c19e9874e4b1cb70042dd4d689b822e6ae820ede7b3b5a5e35db
def keyK2 : Bytes 32 := beBytes 32 0x2e09f85f9d2c606b96be22ba8e3b0a97ea45bef44d0089b424b1e836055e273e

/-- Vectors A8 and C2: the container as it was made opens, so what the tests below reject is the change. -/
theorem test_untampered_container_opens :
    nextIs (step (opening container1 key1)) (fun t => decide (t.engine.staged = some msg1) && decide (t.engine.phase = .d5)) = true := by
  decide +kernel

/-- Vector C12, salt region: byte 0, for which `P1` gives the key of K12. -/
theorem test_flipped_salt_bit_is_rejected : rejected (flip container1 0 0x01#8) keyK12 = true := by decide +kernel

/-- Vectors C12 and A10, nonce region: byte 16. -/
theorem test_flipped_nonce_bit_is_rejected : rejected (flip container1 16 0x01#8) key1 = true := by decide +kernel

/-- Vectors C12 and A7, ciphertext region: byte 28. -/
theorem test_flipped_ciphertext_bit_is_rejected : rejected (flip container1 28 0x01#8) key1 = true := by decide +kernel

/-- Vectors C12 and A6, tag region: its first byte, and the lowest and the highest bit of its last. -/
theorem test_flipped_tag_bit_is_rejected :
    rejected (flip container1 39 0x01#8) key1 = true ∧ rejected (flip container1 54 0x01#8) key1 = true ∧
      rejected (flip container1 54 0x80#8) key1 = true := by decide +kernel

/-- Vector C9: the last byte removed. -/
theorem test_truncated_container_is_rejected : rejected (container1.take 54) key1 = true := by decide +kernel

/-- Vector C10: one byte appended. -/
theorem test_extended_container_is_rejected : rejected (container1 ++ [0x00#8]) key1 = true := by decide +kernel

/-- Vector C11: unrelated data of the least legal length. -/
theorem test_unrelated_data_is_rejected : rejected (List.replicate 44 0x00#8) keyK13 = true := by decide +kernel

/-- Vectors A9 and C3: the key of another passphrase (R151). -/
theorem test_wrong_key_is_rejected : rejected container1 keyK2 = true := by decide +kernel

/-! ## The end of a command, collect and reset -/

theorem test_collect :
    nextIs (step (st (responseEngine (.ok msg1)) .unbound [.collect]))
      (fun t => decide (t.engine = Engine.reset) && decide (t.responses = [⟨0x00#8, 11, some msg1⟩])) = true := by decide

/-- A response whose `OUT` is gone, or shorter than `OUT_LEN`, is no response: the read of `OUT` is a fault (R21, R13). -/
theorem test_collect_faults_on_an_absent_out :
    step (st { responseEngine (.ok msg1) with out := none } .unbound [.collect]) = .fault (.emptyRegister .out) ∧
    step (st { responseEngine (.ok msg1) with outLen := some 12 } .unbound [.collect]) = .fault (.outsideBuffer .out 0 12) :=
  ⟨rfl, rfl⟩

/-- A failed command's response is collected with no `OUT` to read (R87). -/
theorem test_collect_of_a_failure :
    nextIs (step (st (responseEngine (.error .tooShort)) .unbound [.collect])) (fun t => decide (t.responses = [⟨0x01#8, 0, none⟩])) = true := by
  decide

theorem test_collect_needs_done : refusedAs (step (st Engine.reset .unbound [.collect])) .nothingToCollect = true := by decide

/-- With nothing planned, a second instance goes on beside one that waits for ever on a silent source (R274): its length check, then its slices. -/
theorem test_instances_take_turns :
    let s := { st (loadedEngine .encrypt pass1 msg1 .e1) (.scripted []) with others := [loadedEngine .decrypt pass1 (List.replicate 44 0x00#8) .d1] }
    nextIs (runSteps step 4 s)
      (fun t => decide (t.engine.phase = .e1) && decide (t.others.map (·.phase) = [.d3])) = true := by decide

theorem test_reset_ends_a_command :
    nextIs (step (st (saltedEngine .encrypt pass1 msg1 salt1 nonce1 .e2) .unbound [.reset]))
      (fun t => decide (t.engine = Engine.reset) && decide (t.completions = 0)) = true := by decide

/-! ## The rows of the opcode table, run from reset -/

theorem test_rows_of_the_port :
    nextIs (step (State.reset.withFetchWord 8 0x01)) (fun t => decide (t.engine.phase = .e1)) = true ∧
    nextIs (step (State.reset.withFetchWord 8 0x02)) (fun t => decide (t.engine.phase = .d1)) = true ∧
    nextIs (step (State.reset.withFetchWord 8 0x10)) (fun t => decide (t.engine.status = some 0x04#8)) = true := by decide

/-! ## The algorithms -/

/-- The checks of R211. -/
theorem test_gf8 : xtime 0x57#8 = 0xae#8 ∧ gf8Mul 0x57#8 0x13#8 = 0xfe#8 ∧ gf8Mul 0x57#8 0x83#8 = 0xc1#8 ∧ gf8Mul 0x53#8 0xca#8 = 0x01#8 := by
  decide +kernel
/-- A row and a column of the table of R212. -/
theorem test_sbox : sbox 0x53#8 = 0xed#8 ∧ sbox 0x35#8 = 0x96#8 ∧ sbox 0xff#8 = 0x16#8 := by decide +kernel
/-- The check of R215, as the first column of a block. -/
theorem test_mixColumns : (mixColumns 0xdb135345000000000000000000000000#128) >>> 96 = 0x8e4da1bc#128 := by decide +kernel
/-- The checks of R220, and `inc32` wrapping in the last four bytes (R219). -/
theorem test_block_arithmetic :
    gf128Mul 0x40000000000000000000000000000000#128 0x40000000000000000000000000000000#128 = 0x20000000000000000000000000000000#128 ∧
    gf128Mul 0x00000000000000000000000000000001#128 0x40000000000000000000000000000000#128 = 0xe1000000000000000000000000000000#128 ∧
    inc32 0x101112131415161718191a1bffffffff#128 = 0x101112131415161718191a1b00000000#128 := by decide +kernel
/-- The block counts of R175. -/
theorem test_shaPad :
    (shaPad (List.replicate 0 0x00#8)).length = 64 ∧ (shaPad (List.replicate 55 0x00#8)).length = 64 ∧
    (shaPad (List.replicate 56 0x00#8)).length = 128 ∧ (shaPad (List.replicate 64 0x00#8)).length = 128 := by decide +kernel
/-- The known answer of R177. -/
theorem test_sha256 :
    sha256 [0x61#8, 0x62#8, 0x63#8] = beBytes 32 0xba7816bf8f01cfea414140de5dae2223b00361a396177a9cb410ff61f20015ad := by decide +kernel
/-- Vector K3: the key with one iteration, which is `U_1`. -/
theorem test_pbkdf2 :
    pbkdf2 pass1 salt1.1 1 32 = (beBytes 32 0xa91da944d629feb85a0735b83bdfc8a458e5292bc2ea6e848903a8a229dca436).1 := by decide +kernel
/-- "pässwörd", as in R67. -/
theorem test_utf8 : utf8 ['p', 'ä', 's', 's', 'w', 'ö', 'r', 'd'] = (beBytes 10 0x70c3a4737377c3b67264).1 := by decide

/-! ## Witnesses: each theorem meets all hypotheses of the statement it names, clause by clause -/

theorem witness_DecodeOfEncode : Instr.openOp.wf = true := rfl

theorem witness_DecodedBytesAreTheCode : decode [0x21#8, 0x07#8] = .ok (.openOp, [0x07#8]) := by decide

theorem witness_StepRunsTheFetchedOperation :
    (decode (fetchOp (presented (commandOf .encrypt pass1 msg1))) = .ok (.encrypt, []) ∧
      (presented (commandOf .encrypt pass1 msg1)).port.isSome = true ∧ Instr.encrypt.wf = true) ∧
    (decode (fetchOp (st (unitEngine .sealOp))) = .ok (.sealOp, []) ∧ (st (unitEngine .sealOp)).script = []) ∧
    (decode (fetchOp (st (unitEngine .derive) .unbound [.run, .collect])) = .ok (.derive, []) ∧
      (st (unitEngine .derive) .unbound [.run, .collect]).port = none ∧
      (st (unitEngine .derive) .unbound [.run, .collect]).script = .run :: [.collect]) ∧
    (decode (fetchOp { st (unitEngine .sealOp) with others := [Engine.reset] }) = .ok (.sealOp, []) ∧
      { st (unitEngine .sealOp) with others := [Engine.reset] }.port = none ∧
      { st (unitEngine .sealOp) with others := [Engine.reset] }.script = []) := by decide

/-- The longest plaintext, and one byte more; the shortest command; a unit operation. -/
theorem witness_CommandAcceptedExactly :
    (∃ c : Command, (presented c).port = some c ∧ c.ppShape = true ∧ c.inShape = true ∧ (presented c).engine.phase = .idle ∧
      c.ppLen ≤ defaultMaxPassphraseLen ∧ c.op = 0x01#8 ∧ c.inLen = defaultMaxPlaintextLen) ∧
    (∃ c : Command, (presented c).port = some c ∧ c.ppShape = true ∧ c.inShape = true ∧ c.op = 0x01#8 ∧
      c.inLen = defaultMaxPlaintextLen + 1) ∧
    (∃ c : Command, (presented c).port = some c ∧ c.ppShape = true ∧ c.inShape = true ∧ (presented c).engine.phase = .idle ∧
      c.ppLen = 0 ∧ c.op = 0x02#8 ∧ c.inLen = 0) := by
  refine ⟨⟨⟨0x01#8, 0, defaultMaxPlaintextLen, [], List.replicate defaultMaxPlaintextLen 0⟩, rfl, rfl, ?_, rfl, Nat.zero_le _, rfl, rfl⟩,
    ⟨⟨0x01#8, 0, defaultMaxPlaintextLen + 1, [], List.replicate (defaultMaxPlaintextLen + 1) 0⟩, rfl, rfl, ?_, rfl, rfl⟩,
    ⟨⟨0x02#8, 0, 0, [], []⟩, by decide⟩⟩ <;>
  simp [Command.inShape]

theorem witness_OtherCodesAreRefused :
    (presented ⟨0x22#8, 0, 0, [], []⟩).port = some ⟨0x22#8, 0, 0, [], []⟩ ∧ 0x22#8 ∉ [0x01#8, 0x02#8, 0x10#8, 0x20#8, 0x21#8] ∧
    (presented ⟨0x21#8, 0, 0, [], []⟩).port = some ⟨0x21#8, 0, 0, [], []⟩ ∧ 0x21#8 ∈ [0x10#8, 0x20#8, 0x21#8] := by decide

theorem witness_EncryptIssueLoadsTheCommand :
    (presented (commandOf .encrypt pass1 msg1)).port = some (commandOf .encrypt pass1 msg1) ∧
    (presented (commandOf .encrypt pass1 msg1)).engine.phase = .idle ∧ pass1.length ≤ defaultMaxPassphraseLen ∧
    msg1.length ≤ defaultMaxPlaintextLen := by decide

theorem witness_DecryptIssueLoadsTheCommand :
    (presented (commandOf .decrypt pass1 sealed1)).port = some (commandOf .decrypt pass1 sealed1) ∧
    (presented (commandOf .decrypt pass1 sealed1)).engine.phase = .idle ∧ pass1.length ≤ defaultMaxPassphraseLen ∧
    sealed1.length ≤ defaultMaxPlaintextLen + 44 := by decide

/-- An ENCRYPT of `M1` under `P1` that is about to draw. -/
def drawing (rng : RngSource) : State := st (loadedEngine .encrypt pass1 msg1 .e1) rng

/-- A source of two good answers. -/
def goodSource : RngSource := .scripted [.bytes salt1.1, .bytes nonce1.1]

theorem witness_DrawsBoth : goodSource.DrawsBoth salt1 nonce1 (.scripted []) := ⟨.scripted [.bytes nonce1.1], by decide, by decide⟩

theorem witness_EncryptDrawsSaltThenNonce :
    (drawing goodSource).port = none ∧ (drawing goodSource).engine.phase = .e1 ∧
    (drawing goodSource).rng.DrawsBoth salt1 nonce1 (.scripted []) := ⟨rfl, rfl, witness_DrawsBoth⟩

/-- The first draw fails (vector C14); the second fails (vector C15). -/
theorem witness_EncryptFailedDrawEndsTheCommand :
    ((drawing .unbound).port = none ∧ (drawing .unbound).engine.phase = .e1 ∧ (drawing .unbound).rng.DrawFails .unbound) ∧
    ((drawing (.scripted [.bytes salt1.1, .fail])).port = none ∧ (drawing (.scripted [.bytes salt1.1, .fail])).engine.phase = .e1 ∧
      (drawing (.scripted [.bytes salt1.1, .fail])).rng.DrawFails (.scripted [])) :=
  ⟨⟨rfl, rfl, .inl rfl⟩, rfl, rfl, .inr ⟨salt1, .scripted [.fail], by decide, by decide⟩⟩

/-- An ENCRYPT in `E4` with the SealOutput of A1 staged. -/
def emitting : State := st { saltedEngine .encrypt pass1 msg1 salt1 nonce1 .e4 with staged := some sealed1 }

theorem witness_EncryptCompletesWithTheContainer :
    emitting.port = none ∧ emitting.engine.phase = .e4 ∧ emitting.engine.salt = some salt1 ∧ emitting.engine.nonce = some nonce1 ∧
    emitting.engine.inLen = some 11 ∧ emitting.engine.staged = some sealed1 ∧ sealed1.length = 11 + 16 := by decide

theorem witness_EncryptStoresTheFieldsAtTheirOffsets :
    emitting.port = none ∧ emitting.engine.phase = .e4 ∧ emitting.engine.salt = some salt1 ∧ emitting.engine.nonce = some nonce1 ∧
    emitting.engine.staged = some sealed1 ∧ ∃ t, exec .encrypt emitting = .next t := ⟨rfl, rfl, rfl, rfl, rfl, _, rfl⟩

/-- A DECRYPT of a string of `n` zero bytes in `D1`. -/
def measuring (n : Nat) : State := st (loadedEngine .decrypt pass1 (List.replicate n 0x00#8) .d1)

/-- Both sides of the limit. -/
theorem witness_DecryptChecksTheLengthFirst :
    (measuring 43).port = none ∧ (measuring 43).engine.phase = .d1 ∧ (measuring 43).engine.inLen = some 43 ∧ 43 < 44 ∧
    (measuring 44).port = none ∧ (measuring 44).engine.phase = .d1 ∧ (measuring 44).engine.inLen = some 44 ∧ 44 ≤ 44 := by decide

/-- An engine loaded with strings holds them. -/
theorem loaded_holds (i : Instr) (p m : ByteString) (ph : Phase) :
    (loadedEngine i p m ph).HoldsPassphrase p ∧ (loadedEngine i p m ph).HoldsInput m :=
  ⟨⟨rfl, _, rfl, Memory.readBytes_ofBytes p⟩, ⟨rfl, _, rfl, Memory.readBytes_ofBytes m⟩⟩

/-- The shortest container that is sliced. -/
theorem witness_DecryptSlicesTheContainer :
    let s := st (loadedEngine .decrypt pass1 (List.replicate 44 0x00#8) .d2)
    44 ≤ (List.replicate 44 0x00#8).length ∧ s.port = none ∧ s.engine.phase = .d2 ∧ s.engine.HoldsInput (List.replicate 44 0x00#8) :=
  ⟨by decide, rfl, rfl, (loaded_holds _ _ _ _).2⟩

theorem witness_DecryptCompletesWithThePlaintext :
    let s := st { loadedEngine .decrypt pass1 (List.replicate 55 0x00#8) .d5 with staged := some msg1 }
    s.port = none ∧ s.engine.phase = .d5 ∧ s.engine.inLen = some 55 ∧ s.engine.staged = some msg1 ∧ msg1.length = 55 - 44 := by decide

theorem witness_CommandsInvokeTheUnitOperations :
    (st (loadedEngine .encrypt [] [] .e2)).port = none ∧ (st (loadedEngine .encrypt [] [] .e2)).engine.phase = .e2 ∧
    (st (loadedEngine .encrypt [] [] .e3)).engine.phase = .e3 ∧ (st (loadedEngine .decrypt [] [] .d3)).engine.phase = .d3 ∧
    (st (loadedEngine .decrypt [] [] .d4)).engine.phase = .d4 := by decide

/-- A one-byte passphrase, in each of the two phases. -/
theorem witness_DeriveWritesTheKey :
    let s := fun ph => st (saltedEngine .encrypt [0x61#8] [] salt1 nonce1 ph)
    (s .e2).port = none ∧ (s .e2).engine.HoldsPassphrase [0x61#8] ∧ (s .e2).engine.salt = some salt1 ∧ [0x61#8] ≠ [] ∧
    (s .e2).engine.phase = .e2 ∧ (s .d3).port = none ∧ (s .d3).engine.HoldsPassphrase [0x61#8] ∧ (s .d3).engine.salt = some salt1 ∧
    (s .d3).engine.phase = .d3 :=
  ⟨rfl, (loaded_holds .encrypt _ _ .e2).1, rfl, by decide, rfl, rfl, (loaded_holds .encrypt _ _ .d3).1, rfl, rfl⟩

theorem witness_DeriveRejectsTheEmptyPassphrase :
    let s := st (saltedEngine .encrypt [] msg1 salt1 nonce1 .e2)
    let s' := st (saltedEngine .decrypt [] msg1 salt1 nonce1 .d3)
    (s.port = none ∧ s.engine.phase = .e2 ∧ s.engine.HoldsPassphrase [] ∧ s.engine.salt = some salt1) ∧
    (s'.port = none ∧ s'.engine.phase = .d3 ∧ s'.engine.HoldsPassphrase [] ∧ s'.engine.salt = some salt1) :=
  ⟨⟨rfl, rfl, (loaded_holds .encrypt _ _ .e2).1, rfl⟩, rfl, rfl, (loaded_holds .decrypt _ _ .d3).1, rfl⟩

/-- 15 and 17 bytes; 16 bytes with an empty passphrase; 16 bytes with a passphrase; 16 bytes under `accept`. -/
theorem witness_DeriveTestsTheSaltFirst :
    (List.replicate 15 0x00#8).length ≠ 16 ∧ (List.replicate 17 0x00#8).length ≠ 16 ∧
    (salt1.1.length = 16 ∧ ([] : ByteString) = [] ∧ defaultConfig.emptyPassphrasePolicy = .reject) ∧
    (salt1.1.length = 16 ∧ pass1 ≠ []) ∧
    { defaultConfig with emptyPassphrasePolicy := .accept }.emptyPassphrasePolicy = .accept := by decide

/-- The shortest input. -/
theorem witness_SealWritesTheTagAndStagesTheOutput :
    let s := st { saltedEngine .encrypt pass1 [] salt1 nonce1 .e3 with key := some key1 }
    s.port = none ∧ s.engine.phase = .e3 ∧ s.engine.key = some key1 ∧ s.engine.nonce = some nonce1 ∧ s.engine.HoldsInput [] :=
  ⟨rfl, rfl, rfl, rfl, (loaded_holds .encrypt pass1 [] .e3).2⟩

/-- The container of `openState`. -/
def openInput (t : Bytes 16) : ByteString := List.replicate 28 0x00#8 ++ t.1

theorem openState_meets (t : Bytes 16) :
    (openState t).port = none ∧ (openState t).engine.phase = .d4 ∧ 44 ≤ (openInput t).length ∧
    (openState t).engine.key = some (Bytes.zero 32) ∧ (openState t).engine.nonce = some (Bytes.zero 12) ∧
    (openState t).engine.HoldsInput (openInput t) :=
  ⟨rfl, rfl, by simp [openInput, t.2], rfl, rfl, (loaded_holds .decrypt [0x61#8] (openInput t) .d4).2⟩

/-- The shortest container whose tag is right, by the first row of R227. -/
theorem witness_OpenStagesTheVerifiedPlaintext :
    ((openState zeroTag).port = none ∧ (openState zeroTag).engine.phase = .d4 ∧ 44 ≤ (openInput zeroTag).length ∧
      (openState zeroTag).engine.key = some (Bytes.zero 32) ∧ (openState zeroTag).engine.nonce = some (Bytes.zero 12) ∧
      (openState zeroTag).engine.HoldsInput (openInput zeroTag)) ∧
    (gcmTag (Bytes.zero 32) (Bytes.zero 12) (containerCiphertext (openInput zeroTag))).1 = containerTag (openInput zeroTag) :=
  ⟨openState_meets _, by decide +kernel⟩

/-- The shortest container with another tag. -/
theorem witness_OpenFailsOnAnotherTag :
    ((openState (Bytes.zero 16)).port = none ∧ (openState (Bytes.zero 16)).engine.phase = .d4 ∧ 44 ≤ (openInput (Bytes.zero 16)).length ∧
      (openState (Bytes.zero 16)).engine.key = some (Bytes.zero 32) ∧ (openState (Bytes.zero 16)).engine.nonce = some (Bytes.zero 12) ∧
      (openState (Bytes.zero 16)).engine.HoldsInput (openInput (Bytes.zero 16))) ∧
    (gcmTag (Bytes.zero 32) (Bytes.zero 12) (containerCiphertext (openInput (Bytes.zero 16)))).1 ≠ containerTag (openInput (Bytes.zero 16)) :=
  ⟨openState_meets _, by decide +kernel⟩

/-- Each unit operation going on. -/
theorem witness_UnitOperationFrame :
    (Instr.derive.hostIssued = false ∧
      ∃ t, exec .derive (st (saltedEngine .encrypt [0x61#8] [] salt1 nonce1 .e2)) = .next t ∧ t.engine.phase ≠ .done) ∧
    (Instr.sealOp.hostIssued = false ∧ ∃ t, exec .sealOp (st (unitEngine .sealOp)) = .next t ∧ t.engine.phase ≠ .done) ∧
    (Instr.openOp.hostIssued = false ∧ nextIs (exec .openOp (openState zeroTag)) (fun t => decide (t.engine.phase ≠ .done)) = true) :=
  ⟨⟨rfl, _, rfl, by decide⟩, ⟨rfl, _, rfl, by decide⟩, rfl, by decide +kernel⟩

/-- A draw, a length check and a slice. -/
theorem witness_CommandStepFrame :
    (Instr.encrypt.hostIssued = true ∧ (drawing goodSource).port = none ∧ (drawing goodSource).engine.phase ∈ [Phase.e1, .e4, .d1, .d2, .d5] ∧
      nextIs (exec .encrypt (drawing goodSource)) (fun t => decide (t.engine.phase ≠ .done)) = true) ∧
    (Instr.decrypt.hostIssued = true ∧ (measuring 44).port = none ∧ (measuring 44).engine.phase ∈ [Phase.e1, .e4, .d1, .d2, .d5] ∧
      nextIs (exec .decrypt (measuring 44)) (fun t => decide (t.engine.phase ≠ .done)) = true) ∧
    nextIs (exec .decrypt (st (loadedEngine .decrypt pass1 (List.replicate 44 0x00#8) .d2))) (fun t => decide (t.engine.phase ≠ .done)) = true := by
  decide

/-- A command that ends in success, and one that ends in failure. -/
theorem witness_LastStepLeavesOnlyTheResponse :
    nextIs (exec .encrypt emitting) (fun t => decide (t.engine.phase = .done)) = true ∧ emitting.engine.phase ≠ .e1 ∧
    nextIs (exec .decrypt (measuring 43)) (fun t => decide (t.engine.phase = .done)) = true := by decide

theorem witness_OtherInstancesAreIndependent : ∃ t, exec .encrypt emitting = .next t := ⟨_, rfl⟩

/-- A row of the table, and the wait on a source that never answers, or not a second time. -/
theorem witness_PhaseFollowsTheTable :
    (∃ t, exec .sealOp (st (unitEngine .sealOp)) = .next t) ∧
    exec .encrypt (drawing (.scripted [])) = .next (drawing (.scripted [])) ∧
    exec .encrypt (drawing (.scripted [.bytes salt1.1])) = .next (drawing (.scripted [.bytes salt1.1])) :=
  ⟨⟨_, rfl⟩, rfl, rfl⟩

/-- An ENCRYPT and a DECRYPT that end. -/
theorem witness_StatusOfEachCommand :
    (nextIs (exec .encrypt emitting) (fun t => decide (t.engine.phase = .done)) = true ∧ emitting.engine.phase ∈ [Phase.e1, .e2, .e3, .e4]) ∧
    (nextIs (exec .decrypt (measuring 43)) (fun t => decide (t.engine.phase = .done)) = true ∧
      (measuring 43).engine.phase ∈ [Phase.d1, .d2, .d3, .d4, .d5]) := by decide

/-- Two short inputs under two passphrases fail alike. -/
theorem witness_FailureCarriesOnlyItsKind :
    ∃ t t', exec .decrypt (measuring 43) = .next t ∧ exec .decrypt (st (loadedEngine .decrypt [] [0x61#8] .d1)) = .next t' ∧
      t.engine.phase = .done ∧ t'.engine.phase = .done ∧ t.engine.status = t'.engine.status ∧ t.engine.status ≠ some 0x00#8 :=
  ⟨_, _, rfl, rfl, by decide, by decide, by decide, by decide⟩

theorem witness_CollectReturnsTheResponse :
    let s := st (responseEngine (.ok msg1)) .unbound [.collect, .collect]
    s.port = none ∧ s.script = .collect :: [.collect] ∧ s.engine = responseEngine (.ok msg1) := by decide

theorem witness_DiscardFreesTheEngine :
    let s := st (responseEngine (.error .decryptionFailed)) .unbound [.discard]
    s.port = none ∧ s.script = [.discard] ∧ s.engine = responseEngine (.error .decryptionFailed) := by decide

/-- Alone, and with another instance that comes to its turn. -/
theorem witness_DoneWaitsForTheHost :
    (let s := st (responseEngine (.ok msg1))
     s.engine.phase = .done ∧ ∃ t, step s = .next t) ∧
    (let s := { st (responseEngine (.ok msg1)) with others := [Engine.reset] }
     s.engine.phase = .done ∧ ∃ t, step s = .next t) := ⟨⟨rfl, _, rfl⟩, rfl, _, rfl⟩

theorem witness_ResetEmptiesEveryInstance :
    let s := st (loadedEngine .encrypt pass1 msg1 .e1) .unbound [.reset]
    s.port = none ∧ s.script = .reset :: [] := by decide

theorem witness_OutIsGatedByOutValid : (openState zeroTag).engine.outValidFlag = false := by decide

/-- Two busy engines with different keys. -/
theorem witness_HostViewHidesTheInside :
    let e := { loadedEngine .encrypt pass1 msg1 .e3 with key := some key1 }
    let f := { loadedEngine .decrypt [] [] .d4 with key := some (Bytes.zero 32) }
    e.status = f.status ∧ e.outLen = f.outLen ∧ e.out = f.out ∧ e.busyFlag = true ∧ f.busyFlag = true := by decide

/-! ### Whole commands -/

/-- A configuration whose cipher hides nothing but opens what it sealed: the ciphertext is the plaintext and the tag is 16 zero bytes. -/
def plainConfig : Config :=
  { defaultConfig with
    kdf := fun _ _ => Bytes.zero 32
    sealFn := fun _ _ m => ⟨m ++ List.replicate 16 0, by simp⟩
    openFn := fun _ _ x => if List.replicate 16 0 = x.drop (x.length - 16) then some ⟨x.take (x.length - 16), by simp⟩ else none }

theorem plainConfig_roundTrip : plainConfig.RoundTripLaw := by
  intro k n m
  simp [plainConfig]

/-- A substitute, however short, answers every request, and so does the unbound port. -/
theorem substitute_answers (k : Nat) (b : ByteString) : (RngSource.substitute b).AnswersTimes k := by
  induction k generalizing b with
  | zero => trivial
  | succ k ih =>
    refine fun n => ⟨?_, ih _⟩
    simp only [RngSource.draw, Draw.ofAnswer]
    split <;> simp

theorem unbound_answers (k : Nat) : RngSource.unbound.AnswersTimes k := by
  induction k with
  | zero => trivial
  | succ k ih => exact fun n => ⟨by simp [RngSource.draw], ih⟩

/-- Two draws answered, the stream used up; the first draw failing; the host waiting, nothing planned, and another instance in the middle of a DECRYPT. -/
theorem witness_EncryptRunAgreesWithTheFunction :
    let c := commandOf .encrypt pass1 msg1
    let src := RngSource.substitute (salt1.1 ++ nonce1.1)
    let waiting := { presented c with rng := src, script := [.run, .run, .run, .run], others := [loadedEngine .decrypt pass1 sealed1 .d1] }
    let alone := { presented c with rng := src }
    let beside := { alone with others := [loadedEngine .decrypt pass1 sealed1 .d1] }
    waiting.engine = Engine.reset ∧ waiting.port = some c ∧ Accepted defaultConfig .encrypt pass1 msg1 ∧
    src.DrawsBoth salt1 nonce1 (.substitute []) ∧ RngSource.unbound.DrawFails .unbound ∧
    waiting.script = [.run, .run, .run, .run] ∧ (alone.script = [] ∧ alone.others = []) ∧
    (beside.script = [] ∧ (∀ e ∈ beside.others, EngineInv defaultConfig e) ∧
      (RngSource.substitute []).AnswersTimes (2 * beside.others.length) ∧ RngSource.unbound.AnswersTimes (2 * beside.others.length)) := by
  refine ⟨rfl, rfl, ⟨by decide, by decide⟩, ⟨.substitute nonce1.1, by decide, by decide⟩, .inl rfl, rfl, ⟨rfl, rfl⟩, rfl, ?_,
    substitute_answers _ _, unbound_answers _⟩
  intro e he
  rw [List.mem_singleton.mp he]
  exact .d1 pass1 sealed1 ⟨by decide, by decide⟩

/-- The same ways for a DECRYPT, with another instance that waits for its random bytes. -/
theorem witness_DecryptRunAgreesWithTheFunction :
    let c := commandOf .decrypt pass1 sealed1
    let waiting := { presented c with script := [.run, .run, .run, .run, .run] }
    let beside := { presented c with others := [loadedEngine .encrypt pass1 msg1 .e1] }
    waiting.engine = Engine.reset ∧ waiting.port = some c ∧ Accepted defaultConfig .decrypt pass1 sealed1 ∧
    waiting.script = [.run, .run, .run, .run, .run] ∧ ((presented c).script = [] ∧ (presented c).others = []) ∧
    (beside.script = [] ∧ (∀ e ∈ beside.others, EngineInv defaultConfig e) ∧ beside.rng.AnswersTimes (2 * beside.others.length)) := by
  refine ⟨rfl, rfl, ⟨by decide, by decide⟩, rfl, ⟨rfl, rfl⟩, rfl, ?_, unbound_answers _⟩
  intro e he
  rw [List.mem_singleton.mp he]
  exact .e1 pass1 msg1 ⟨by decide, by decide⟩

theorem witness_EncryptThenDecryptRoundTrip :
    let c := containerOf salt1 nonce1 (plainConfig.sealFn (Bytes.zero 32) nonce1 msg1).1
    let s := st Engine.reset goodSource
      [.present (commandOf .encrypt pass1 msg1), .run, .run, .run, .run, .collect, .present (commandOf .decrypt pass1 c),
        .run, .run, .run, .run, .run, .collect]
    plainConfig.RoundTripLaw ∧ Accepted plainConfig .encrypt pass1 msg1 ∧ s.rng.DrawsBoth salt1 nonce1 (.scripted []) ∧
    deriveKey plainConfig pass1 salt1.1 = .ok (Bytes.zero 32) ∧ s.engine = Engine.reset ∧ s.port = none :=
  ⟨plainConfig_roundTrip, ⟨by decide, by decide⟩, witness_DrawsBoth, by decide, rfl, rfl⟩

/-- A block in the middle of an ENCRYPT satisfies the invariant. -/
theorem drawing_inv (rng : RngSource) : (drawing rng).Inv defaultConfig :=
  ⟨EngineInv.e1 pass1 msg1 ⟨by decide, by decide⟩, fun e he => absurd he List.not_mem_nil, rfl⟩

/-- One instance in the middle of an ENCRYPT; and two, the second at the start of a DECRYPT. -/
theorem witness_BusyEngineReachesDone :
    ((drawing goodSource).Inv defaultConfig ∧ (drawing goodSource).engine.busyFlag = true ∧ (drawing goodSource).port = none ∧
      (drawing goodSource).script = [] ∧ (drawing goodSource).rng.Answers) ∧
    (let s := { drawing .unbound with others := [loadedEngine .decrypt pass1 sealed1 .d1] }
     s.Inv { defaultConfig with nEngines := 2 } ∧ s.port = none ∧ s.script = [] ∧ s.rng.AnswersTimes (2 * (s.others.length + 1))) := by
  refine ⟨⟨drawing_inv _, rfl, rfl, rfl, .inl ⟨salt1, nonce1, _, witness_DrawsBoth⟩⟩, ⟨?_, ?_, rfl⟩, rfl, rfl, unbound_answers _⟩
  · exact .e1 pass1 msg1 ⟨by decide, by decide⟩
  · intro e he
    rw [List.mem_singleton.mp he]
    exact .d1 pass1 sealed1 ⟨by decide, by decide⟩

theorem witness_StepKeepsTheInvariant :
    (drawing goodSource).Inv defaultConfig ∧ ∃ t, step (drawing goodSource) = .next t := ⟨drawing_inv _, _, rfl⟩

theorem witness_InvariantRunsNeverFault : (drawing .unbound).Inv defaultConfig := drawing_inv _

theorem witness_StepKeepsBuffersCanonical :
    emitting.BuffersWf ∧ ∃ t, step emitting = .next t := by
  refine ⟨⟨⟨?_, ?_, ?_⟩, fun e he => by cases he⟩, _, rfl⟩
  · intro m hm; cases hm; exact Memory.wf_ofBytes pass1
  · intro m hm; cases hm; exact Memory.wf_ofBytes msg1
  · intro m hm; cases hm

theorem witness_DecryptUndoesEncrypt :
    plainConfig.RoundTripLaw ∧ ∃ c, refEncrypt plainConfig (some salt1) (some nonce1) msg1 pass1 = .ok c := ⟨plainConfig_roundTrip, _, rfl⟩

/-- The empty message too. -/
theorem witness_ContainerLength :
    (∃ c, refEncrypt plainConfig (some salt1) (some nonce1) [] pass1 = .ok c) ∧
    ∃ c, refEncrypt plainConfig (some salt1) (some nonce1) msg1 pass1 = .ok c := ⟨⟨_, rfl⟩, _, rfl⟩

theorem witness_ContainersDifferExactlyWhenTheDrawsDo :
    (∃ c, refEncrypt plainConfig (some salt1) (some nonce1) msg1 pass1 = .ok c) ∧
    (∃ c, refEncrypt plainConfig (some (Bytes.zero 16)) (some nonce1) msg1 pass1 = .ok c) ∧ salt1 ≠ Bytes.zero 16 :=
  ⟨⟨_, rfl⟩, ⟨_, rfl⟩, by decide⟩

/-- An expanded key, of no key that is known, under which the hash subkey is zero: rounds 0 to 13 add nothing, and round 14 adds what the zero block has
become. -/
def zeroSubkey : List Word32 := List.replicate 56 0x00000000#32 ++ List.replicate 4 0xd2d2d2d2#32

/-- Clause by clause: a tag other than the right one; a change of one byte in a first and only block, in a full block, and in a partial block after a full
one; the zero key, whose subkey is not zero; and an expanded key whose subkey is zero. -/
theorem witness_ExactTamperingLaws :
    Bytes.zero 16 ≠ gcmTag (Bytes.zero 32) (Bytes.zero 12) [] ∧
    (([] : ByteString).length % 16 = 0 ∧ [0x00#8].length ≤ 16 ∧ [0x01#8].length = [0x00#8].length ∧ [0x01#8] ≠ [0x00#8]) ∧
    ((List.replicate 16 0x61#8).length % 16 = 0 ∧ (List.replicate 16 0x61#8).length ≤ 16 ∧
      (List.replicate 16 0x62#8).length = (List.replicate 16 0x61#8).length ∧ List.replicate 16 0x62#8 ≠ List.replicate 16 0x61#8) ∧
    gcmH (keySchedule (Bytes.zero 32)) ≠ 0 ∧ gcmH zeroSubkey = 0 := by decide +kernel

/-- The boundary of each clause: one iteration; the first and the last length. -/
theorem witness_BlockFunctionXorsTheIterates : (1 : Nat) ≤ 1 := by decide
theorem witness_DerivedKeyIsTheFirstBytesOfTheBlocks : 0 ≤ (2 ^ 32 - 1) * 32 ∧ (2 ^ 32 - 1) * 32 ≤ (2 ^ 32 - 1) * 32 := by decide

/-- 63 bytes, and 65 bytes. -/
theorem witness_KeyCollisionsOfTheDefaultKdf :
    (List.replicate 63 0x61#8).length < 64 ∧ 64 < (List.replicate 65 0x61#8).length := by decide

theorem witness_SboxFollowsItsFormula : 0 < 8 ∧ 7 < 8 := by decide

theorem witness_SubstituteStreamIsCutInOrder : [0x00#8].length ≠ 16 := by decide

/-- One engine, and two. -/
theorem witness_ResetSatisfiesTheInvariant : 1 ≤ defaultConfig.nEngines ∧ 1 ≤ { defaultConfig with nEngines := 2 }.nEngines := by decide

end Sys2Proof.Tests
end

section
/-! PROOFS. Which machine `step` is, and the state it starts from (00_scope.md R8, 10_state.md R40 to R42). -/

namespace Sys2Proof.Machine

/-- Settles O5: `exec` is the meaning of every operation at the defaults (R8), and `step` and `stepWith` are the same step over a meaning. -/
theorem stepIsTheDefaultMachine : Obligations.StepIsTheDefaultMachine := by
  unfold Obligations.StepIsTheDefaultMachine
  intro s
  have hexec : exec = execWith defaultConfig := funext₂ exec_eq_execWith
  rw [step, stepWith, hexec]

/-- After reset every engine is idle and empty, and there are `N_ENGINES` of them (R40, R42). -/
theorem State.resetWith_inv (cfg : Config) (h : 1 ≤ cfg.nEngines) : (State.resetWith cfg).Inv cfg where
  engine := .idle
  others e he := by
    have hreset : e = Engine.reset := List.eq_of_mem_replicate he
    exact hreset ▸ .idle
  count := by
    simp only [State.resetWith, State.resetFor_others, List.length_replicate]
    omega

/-- Settles O45: each engine after reset is in row `IDLE` of R41, and the reset state that `step` starts from is the one of the defaults. -/
theorem resetSatisfiesTheInvariant : Obligations.ResetSatisfiesTheInvariant := by
  unfold Obligations.ResetSatisfiesTheInvariant
  have hdefault : State.reset = State.resetWith defaultConfig := rfl
  exact ⟨State.resetWith_inv, hdefault, hdefault ▸ State.resetWith_inv defaultConfig (by decide)⟩

end Sys2Proof.Machine
end

section
/-! PROOFS. The steps of one engine apart from everything around it: a step that draws nothing is known by the engine alone, so a sequence of them ends
in the same way under every host and beside every other engine (60_exceptions.md R274, 70_reset_and_hazards.md R283). -/

namespace Sys2Proof.Machine

variable {cfg : Config} {s : State}

/-! ## Steps of one engine -/

/-- The step of engine `e` with the source `src`, whatever else stands in the block and with the host: it becomes `e'`, the source becomes `src'`, `d`
completions are signalled, and nothing else changes. -/
def OwnStep (cfg : Config) (e : Engine) (src : RngSource) (d : Nat) (e' : Engine) (src' : RngSource) : Prop :=
  ∀ u : State, u.port = none → u.engine = e → u.rng = src →
    engineStep (execWith cfg) u = .next { u with rng := src', engine := e', completions := u.completions + d }

/-- The step of an engine that asks the random source for nothing, whatever the source is. -/
def QuietStep (cfg : Config) (e : Engine) (d : Nat) (e' : Engine) : Prop :=
  ∀ u : State, u.port = none → u.engine = e → engineStep (execWith cfg) u = .next { u with engine := e', completions := u.completions + d }

/-- `k` quiet steps of an engine, and the completions they signal in all. -/
inductive QuietRun (cfg : Config) : Nat → Engine → Nat → Engine → Prop where
  | stay (e : Engine) : QuietRun cfg 0 e 0 e
  | next {k d d' : Nat} {e e' e'' : Engine} (h : QuietStep cfg e d e') (hs : QuietRun cfg k e' d' e'') : QuietRun cfg (k + 1) e (d + d') e''

theorem QuietStep.ownStep {e e' : Engine} {d : Nat} (h : QuietStep cfg e d e') (src : RngSource) : OwnStep cfg e src d e' src := by
  rintro u hp he rfl
  exact h u hp he

theorem QuietRun.trans {k k' d d' : Nat} {e e' e'' : Engine} (h : QuietRun cfg k e d e') (h' : QuietRun cfg k' e' d' e'') :
    QuietRun cfg (k + k') e (d + d') e'' := by
  induction h with
  | stay e => simpa using h'
  | @next k d₁ d₂ _ _ _ hq _ ih =>
    rw [Nat.add_right_comm k, Nat.add_assoc d₁]
    exact .next hq (ih h')

/-- An engine that holds a response waits for the host (R31). -/
theorem quietStep_response (r : Except ErrorKind ByteString) : QuietStep cfg (responseEngine r) 0 (responseEngine r) := by
  rintro u hp he
  rw [engineStep_waits hp (.inr (by rw [he]; exact responseEngine_phase r)), ← he]
  rfl

theorem quietRun_response (k : Nat) (r : Except ErrorKind ByteString) : QuietRun cfg k (responseEngine r) 0 (responseEngine r) := by
  induction k with
  | zero => exact .stay _
  | succ k ih => exact .next (quietStep_response r) ih

/-! ## The same steps in a block whose host waits for the engine -/

/-- The next `k` steps are those of the engine whose turn it is: the host waits for them and then does `rest`, or nothing is planned and there is no other
engine. -/
def HostWaits (k : Nat) (rest : List HostAction) (s : State) : Prop :=
  s.port = none ∧ (s.script = List.replicate k .run ++ rest ∨ (s.script = [] ∧ rest = [] ∧ s.others = []))

theorem HostWaits.script_of_zero {rest : List HostAction} (h : HostWaits 0 rest s) : s.script = rest := by
  obtain ⟨-, hs | ⟨hs, hr, -⟩⟩ := h
  · exact hs
  · rw [hs, hr]

/-- While the host waits, a step of the block is the engine's own, and takes at most one act off the script. -/
theorem stepWith_of_hostWaits {k d : Nat} {rest : List HostAction} {e' : Engine} {src' : RngSource} (h : HostWaits (k + 1) rest s)
    (ho : OwnStep cfg s.engine s.rng d e' src') :
    ∃ acts, stepWith cfg s = .next { s with script := acts, rng := src', engine := e', completions := s.completions + d } ∧
      HostWaits k rest { s with script := acts, rng := src', engine := e', completions := s.completions + d } := by
  obtain ⟨hp, hs | ⟨hs, hr, hl⟩⟩ := h
  · refine ⟨List.replicate k .run ++ rest, ?_, hp, .inl rfl⟩
    rw [stepWith_host hp hs]
    exact ho _ hp rfl rfl
  · refine ⟨[], ?_, hp, .inr ⟨rfl, hr, hl⟩⟩
    rw [stepWith_idle_host hp hs, ho s hp rfl rfl, passTurnAfter, passTurn_single (by exact hl), hs]

/-- `k` quiet steps while the host waits for them. -/
theorem runSteps_of_quietRun {k d : Nat} {rest : List HostAction} {e e' : Engine} (h : QuietRun cfg k e d e') (hw : HostWaits k rest s)
    (he : s.engine = e) :
    runSteps (stepWith cfg) k s = .next { s with script := rest, engine := e', completions := s.completions + d } := by
  induction h generalizing s with
  | stay e => subst he; rw [← hw.script_of_zero]; rfl
  | next hq _ ih =>
    subst he
    obtain ⟨acts, hs, hw'⟩ := stepWith_of_hostWaits hw (hq.ownStep s.rng)
    rw [runSteps_succ _ _ _ hs, ih hw' rfl, ← Nat.add_assoc]

/-! ## The same steps beside other engines that take their turns -/

/-- The turns of an engine that draws nothing are its quiet steps, whatever the others do in between. -/
theorem QuietRun.eq_of_engineTurns {k d : Nat} {e e' e'' : Engine} (h : QuietRun cfg k e d e') (ht : EngineTurns cfg k e e'') : e'' = e' := by
  induction h with
  | stay e => cases ht; rfl
  | next hq _ ih =>
    obtain _ | ⟨⟨u, t, hu, hp, -, hs, rfl⟩, ht⟩ := ht
    rw [hq u hp hu] at hs
    cases hs
    exact ih ht

theorem answersTimes_drawsLeft {src : RngSource} {l : List Engine} (h : src.AnswersTimes (2 * l.length)) : src.AnswersTimes (drawsLeft l) := by
  obtain ⟨j, hj⟩ := Nat.exists_eq_add_of_le (drawsLeft_le l)
  exact AnswersTimes_mono (hj ▸ h)

/-- `k` turns of every engine, where the one whose turn it is draws nothing. -/
theorem runSteps_rounds_of_quietRun {k d : Nat} {e' : Engine} (h : QuietRun cfg k s.engine d e') (hr : TurnsReady cfg s) :
    ∃ t, runSteps (stepWith cfg) (k * (s.others.length + 1)) s = .next t ∧ t.engine = e' := by
  obtain ⟨t, ht, -, hf⟩ := runSteps_rounds k hr
  obtain _ | ⟨he, -⟩ := hf
  exact ⟨t, ht, h.eq_of_engineTurns he⟩

/-- After a turn that draws nothing more, the others take theirs on the source that was left to them. -/
theorem turnsReady_passTurn (hp : s.port = none) (hs : s.script = []) (hi : EngineInv cfg s.engine) (hn : s.engine.phase.drawsLeft = 0)
    (hinv : ∀ e ∈ s.others, EngineInv cfg e) (ha : s.rng.AnswersTimes (2 * s.others.length)) : TurnsReady cfg (passTurn s) where
  port := by simpa using hp
  script := by simpa using hs
  inv := by
    intro e he
    rw [passTurn_instances] at he
    rcases List.mem_append.mp he with he | he
    · exact hinv e he
    · rw [List.mem_singleton.mp he]; exact hi
  rng := by
    rw [passTurn_instances, passTurn_rng]
    simpa [drawsLeft, hn] using answersTimes_drawsLeft ha

/-- From the end of its turn on: the others' turns, which bring it back to its place, and then `k` turns of every engine. -/
theorem runSteps_passTurn_of_quietRun {k d : Nat} {e' : Engine} (h : QuietRun cfg k s.engine d e') (hr : TurnsReady cfg (passTurn s)) :
    ∃ t, runSteps (stepWith cfg) (s.others.length + k * (s.others.length + 1)) (passTurn s) = .next t ∧ t.engine = e' := by
  obtain ⟨u, front, hu, hfront, hturns, hready⟩ := runSteps_turns s.others [s.engine] (passTurn_instances s) hr
  rw [List.singleton_append, List.cons.injEq] at hfront
  obtain ⟨hengine, rfl⟩ := hfront
  obtain ⟨t, ht, hte⟩ := runSteps_rounds_of_quietRun (hengine ▸ h) hready
  rw [← hturns.length_eq] at ht
  exact ⟨t, by rw [runSteps_add, hu]; exact ht, hte⟩

/-- `k + 1` turns of every engine, where the one whose turn it is makes its draws in the first and draws nothing afterwards: it draws before any other
does, so the others meet the source it leaves behind. -/
theorem runSteps_rounds_of_ownStep {k d d' : Nat} {e e' : Engine} {after : RngSource} (h : QuietRun cfg k e d' e')
    (ho : OwnStep cfg s.engine s.rng d e after) (hi : EngineInv cfg e) (hn : e.phase.drawsLeft = 0) (hp : s.port = none) (hs : s.script = [])
    (hinv : ∀ f ∈ s.others, EngineInv cfg f) (ha : after.AnswersTimes (2 * s.others.length)) :
    ∃ t, runSteps (stepWith cfg) ((k + 1) * (s.others.length + 1)) s = .next t ∧ t.engine = e' := by
  have hstep : stepWith cfg s = .next (passTurn { s with rng := after, engine := e, completions := s.completions + d }) := by
    rw [stepWith_idle_host hp hs, ho s hp rfl rfl, passTurnAfter]
  have hk : (k + 1) * (s.others.length + 1) = s.others.length + k * (s.others.length + 1) + 1 := by ring
  rw [hk, runSteps_succ _ _ _ hstep]
  have hready := turnsReady_passTurn (s := { s with rng := after, engine := e, completions := s.completions + d }) hp hs hi hn hinv ha
  exact runSteps_passTurn_of_quietRun h hready

end Sys2Proof.Machine
end

section
/-! PROOFS. Whole commands against the two functions of 00_scope.md R17 (42_codec.md R141, R142, R146; 60_exceptions.md R264, R274). -/

namespace Sys2Proof.Machine

variable {cfg : Config} {s : State}

/-! ## ENCRYPT -/

/-- The draws as the pure function `Encrypt` is given them, and the source after them: what a whole ENCRYPT of `m` ends with (R17, R141). -/
def EncryptOutcome (cfg : Config) (p m : ByteString) (src after : RngSource) (r : Except ErrorKind ByteString) : Prop :=
  (∃ salt nonce, src.DrawsBoth salt nonce after ∧ r = refEncrypt cfg (some salt) (some nonce) m p) ∨
    (src.DrawFails after ∧ r = .error .randomSourceUnavailable)

theorem drawStep_of_drawsBoth {salt : Bytes 16} {nonce : Bytes 12} {after : RngSource} (h : s.rng.DrawsBoth salt nonce after) :
    drawStep s = .next { s with rng := after, engine := { s.engine with salt := some salt, nonce := some nonce, phase := .e2 } } := by
  obtain ⟨src, h1, h2⟩ := h
  simp only [drawStep, h1, h2]

theorem drawStep_of_drawFails {after : RngSource} (h : s.rng.DrawFails after) :
    drawStep s = .next { s with
      rng := after, engine := responseEngine (.error .randomSourceUnavailable), completions := s.completions + 1 } := by
  obtain h1 | ⟨salt, src, h1, h2⟩ := h
  · simp only [drawStep, h1, raise, Engine.raised_eq]
  · simp only [drawStep, h1, h2, raise, Engine.raised_eq]

theorem ownStep_draws (p m : ByteString) {salt : Bytes 16} {nonce : Bytes 12} {src after : RngSource} (h : src.DrawsBoth salt nonce after) :
    OwnStep cfg (loadedEngine .encrypt p m .e1) src 0 (saltedEngine .encrypt p m salt nonce .e2) after := by
  rintro u hp he rfl
  rw [engineStep_e1 hp (by rw [he]; rfl), drawStep_of_drawsBoth h, he]
  rfl

theorem ownStep_drawFails (p m : ByteString) {src after : RngSource} (h : src.DrawFails after) :
    OwnStep cfg (loadedEngine .encrypt p m .e1) src 1 (responseEngine (.error .randomSourceUnavailable)) after := by
  rintro u hp he rfl
  rw [engineStep_e1 hp (by rw [he]; rfl), drawStep_of_drawFails h]

/-- From `E2` on ENCRYPT computes the pure function of the drawn salt and nonce (R141). -/
theorem quietRun_encrypt (p m : ByteString) (salt : Bytes 16) (nonce : Bytes 12) :
    QuietRun cfg 3 (saltedEngine .encrypt p m salt nonce .e2) 1 (responseEngine (refEncrypt cfg (some salt) (some nonce) m p)) := by
  cases hk : deriveKey cfg p salt.1 with
  | error k =>
    have e2 : QuietStep cfg (saltedEngine .encrypt p m salt nonce .e2) 1 (responseEngine (.error k)) := fun u hp he => by
      rw [engineStep_e2 p m salt nonce hp he, hk]
    simpa only [refEncrypt, hk] using QuietRun.next e2 (quietRun_response 2 _)
  | ok key =>
    have e2 : QuietStep cfg (saltedEngine .encrypt p m salt nonce .e2) 0 (keyedEngine cfg .encrypt p m salt nonce key .e3) := fun u hp he => by
      rw [engineStep_e2 p m salt nonce hp he, hk]; rfl
    have e3 : QuietStep cfg (keyedEngine cfg .encrypt p m salt nonce key .e3) 0 (sealedEngine cfg p m salt nonce key) := fun u hp he =>
      engineStep_e3 p m salt nonce key hp he
    have e4 : QuietStep cfg (sealedEngine cfg p m salt nonce key) 1
        (responseEngine (.ok (containerOf salt nonce (cfg.sealFn key nonce m).1))) := fun u hp he => engineStep_e4 p m salt nonce key hp he
    simpa only [refEncrypt, hk] using QuietRun.next e2 (.next e3 (.next e4 (.stay _)))

/-- A whole ENCRYPT of its own: the draws in the first step, then three quiet steps to the response; `e` is the engine between them. -/
theorem encrypt_steps {p m : ByteString} {src after : RngSource} {r : Except ErrorKind ByteString} (ha : Accepted cfg .encrypt p m)
    (h : EncryptOutcome cfg p m src after r) :
    ∃ e d d', OwnStep cfg (loadedEngine .encrypt p m .e1) src d e after ∧ QuietRun cfg 3 e d' (responseEngine r) ∧ d + d' = 1 ∧
      EngineInv cfg e ∧ e.phase.drawsLeft = 0 := by
  obtain ⟨salt, nonce, hd, rfl⟩ | ⟨hd, rfl⟩ := h
  · exact ⟨_, 0, 1, ownStep_draws p m hd, quietRun_encrypt p m salt nonce, rfl, .e2 p m salt nonce ha, rfl⟩
  · exact ⟨_, 1, 0, ownStep_drawFails p m hd, quietRun_response 3 _, rfl, .done _, rfl⟩

/-- The step that issues an accepted ENCRYPT (R85). -/
theorem stepWith_issueEncrypt {p m : ByteString} (he : s.engine = Engine.reset) (hp : s.port = some (commandOf .encrypt p m))
    (ha : Accepted cfg .encrypt p m) : stepWith cfg s = .next { s with engine := loadedEngine .encrypt p m .e1, port := none } := by
  rw [stepWith_port (by rw [hp]; rfl), engineStep_issueEncrypt p m hp he ha]

/-- Settles O40: after issue the engine draws in its first step, before any other engine does, and the rest of the command is quiet, so it ends with the
pure function's answer under a waiting host, alone, and beside others. -/
theorem encryptRunAgreesWithTheFunction : Obligations.EncryptRunAgreesWithTheFunction := by
  unfold Obligations.EncryptRunAgreesWithTheFunction
  intro cfg s p m he hp ha r after hr
  have hissue := stepWith_issueEncrypt he hp ha
  obtain ⟨e, d, d', hdraw, hquiet, hd, hinv, hleft⟩ := encrypt_steps ha hr
  constructor
  · intro hs
    have hw : HostWaits 4 [] { s with engine := loadedEngine .encrypt p m .e1, port := none } :=
      ⟨rfl, hs.imp id fun ⟨hs, hl⟩ => ⟨hs, rfl, hl⟩⟩
    obtain ⟨acts, hstep, hw'⟩ := stepWith_of_hostWaits hw hdraw
    rw [runSteps_succ _ _ _ hissue, runSteps_succ _ _ _ hstep, runSteps_of_quietRun hquiet hw' rfl]
    simp only [Nat.add_assoc, hd]
  · intro hs hothers hans
    rw [runSteps_succ _ _ _ hissue]
    exact runSteps_rounds_of_ownStep (hquiet.trans (quietRun_response 1 r)) hdraw hinv hleft rfl hs hothers hans

/-! ## DECRYPT -/

/-- From `D4` on DECRYPT gives the plaintext that `Open` gives, or `DecryptionFailed` (R142, R144). -/
theorem quietRun_open (p c : ByteString) (key : Bytes 32) (hl : 44 ≤ c.length) (hk : deriveKey cfg p (containerSalt c hl).1 = .ok key) :
    QuietRun cfg 2 (keyedEngine cfg .decrypt p c (containerSalt c hl) (containerNonce c hl) key .d4) 1
      (responseEngine (refDecrypt cfg c p)) := by
  cases ho : cfg.openFn key (containerNonce c hl) (containerSealOutput c) with
  | none =>
    have d4 : QuietStep cfg (keyedEngine cfg .decrypt p c (containerSalt c hl) (containerNonce c hl) key .d4) 1
        (responseEngine (.error .decryptionFailed)) := fun u hp he => by
      rw [engineStep_d4 p c _ _ key hl hp he, ho]
    simpa only [refDecrypt, dif_pos hl, hk, ho, Option.map_none] using QuietRun.next d4 (quietRun_response 1 _)
  | some r =>
    have hr : r.1.length = c.length - 44 := r.2.trans (containerSealOutput_length_sub c)
    have d4 : QuietStep cfg (keyedEngine cfg .decrypt p c (containerSalt c hl) (containerNonce c hl) key .d4) 0
        (openedEngine cfg p c (containerSalt c hl) (containerNonce c hl) key r.1) := fun u hp he => by
      rw [engineStep_d4 p c _ _ key hl hp he, ho]; rfl
    have d5 : QuietStep cfg (openedEngine cfg p c (containerSalt c hl) (containerNonce c hl) key r.1) 1
        (responseEngine (.ok r.1)) := fun u hp he => engineStep_d5 p c _ _ key r.1 hr hp he
    simpa only [refDecrypt, dif_pos hl, hk, ho, Option.map_some] using QuietRun.next d4 (.next d5 (.stay _))

/-- A whole DECRYPT of its own, of any bytes: it draws nothing, and its five steps compute the pure function (R142, R146). -/
theorem quietRun_decrypt (p c : ByteString) :
    QuietRun cfg 5 (loadedEngine .decrypt p c .d1) 1 (responseEngine (refDecrypt cfg c p)) := by
  by_cases hl : 44 ≤ c.length
  · have d1 : QuietStep cfg (loadedEngine .decrypt p c .d1) 0 (loadedEngine .decrypt p c .d2) := fun u hp he => by
      rw [engineStep_d1 p c hp he, if_neg (by omega)]; rfl
    have d2 : QuietStep cfg (loadedEngine .decrypt p c .d2) 0
        (saltedEngine .decrypt p c (containerSalt c hl) (containerNonce c hl) .d3) := fun u hp he => engineStep_d2 p c hl hp he
    cases hk : deriveKey cfg p (containerSalt c hl).1 with
    | error k =>
      have d3 : QuietStep cfg (saltedEngine .decrypt p c (containerSalt c hl) (containerNonce c hl) .d3) 1
          (responseEngine (.error k)) := fun u hp he => by
        rw [engineStep_d3 p c _ _ hp he, hk]
      simpa only [refDecrypt, dif_pos hl, hk] using QuietRun.next d1 (.next d2 (.next d3 (quietRun_response 2 _)))
    | ok key =>
      have d3 : QuietStep cfg (saltedEngine .decrypt p c (containerSalt c hl) (containerNonce c hl) .d3) 0
          (keyedEngine cfg .decrypt p c (containerSalt c hl) (containerNonce c hl) key .d4) := fun u hp he => by
        rw [engineStep_d3 p c _ _ hp he, hk]; rfl
      exact .next d1 (.next d2 (.next d3 (quietRun_open p c key hl hk)))
  · have d1 : QuietStep cfg (loadedEngine .decrypt p c .d1) 1 (responseEngine (.error .tooShort)) := fun u hp he => by
      rw [engineStep_d1 p c hp he, if_pos (by omega)]
    simpa only [refDecrypt, dif_neg hl] using QuietRun.next d1 (quietRun_response 4 _)

/-- The step that issues an accepted DECRYPT (R85). -/
theorem stepWith_issueDecrypt {p c : ByteString} (he : s.engine = Engine.reset) (hp : s.port = some (commandOf .decrypt p c))
    (ha : Accepted cfg .decrypt p c) : stepWith cfg s = .next { s with engine := loadedEngine .decrypt p c .d1, port := none } := by
  rw [stepWith_port (by rw [hp]; rfl), engineStep_issueDecrypt p c hp he ha]

/-- Settles O41: all of DECRYPT after issue is quiet, so it ends with the pure function's answer under a waiting host, alone, and beside others, and the
source is left to the others. -/
theorem decryptRunAgreesWithTheFunction : Obligations.DecryptRunAgreesWithTheFunction := by
  unfold Obligations.DecryptRunAgreesWithTheFunction
  intro cfg s p c he hp ha
  have hissue := stepWith_issueDecrypt he hp ha
  have hquiet := quietRun_decrypt (cfg := cfg) p c
  constructor
  · intro hs
    have hw : HostWaits 5 [] { s with engine := loadedEngine .decrypt p c .d1, port := none } :=
      ⟨rfl, hs.imp id fun ⟨hs, hl⟩ => ⟨hs, rfl, hl⟩⟩
    rw [runSteps_succ _ _ _ hissue, runSteps_of_quietRun hquiet hw rfl]
  · intro hs hothers hans
    rw [runSteps_succ _ _ _ hissue]
    have hready : TurnsReady cfg { s with engine := loadedEngine .decrypt p c .d1, port := none } := {
      port := rfl
      script := hs
      inv := List.forall_mem_cons.mpr ⟨.d1 p c ha, hothers⟩
      rng := by simpa [drawsLeft, Phase.drawsLeft] using answersTimes_drawsLeft hans }
    exact runSteps_rounds_of_quietRun hquiet hready

end Sys2Proof.Machine
end

section
/-! PROOFS. What one operation can do: the row of the phase table it takes (10_state.md R31), how a command ends (60_exceptions.md R265, R266), and that it
neither reads nor writes anything but its own engine, the port and the random source (R42). -/

namespace Sys2Proof.Machine

variable {cfg : Config} {i : Instr} {s t : State}

/-! ## An operation is an issue or the step of its phase -/

/-- The step of the phase an engine is in, whichever operation the sequencer invokes for it (R31). -/
def phaseStep (cfg : Config) (s : State) : Result :=
  match s.engine.phase with
  | .e1 => drawStep s
  | .e2 => deriveOp cfg .e3 s
  | .e3 => sealOperation cfg s
  | .e4 => emitStep s
  | .d1 => lengthStep s
  | .d2 => sliceStep s
  | .d3 => deriveOp cfg .d4 s
  | .d4 => openOperation cfg s
  | .d5 => releaseStep s
  | .idle => .refused .outOfPhase
  | .done => .refused .outOfPhase

theorem execWith_presented {c : Command} (hp : s.port = some c) :
    execWith cfg i s = if i.hostIssued then issue cfg i c s else .refused .unitOpFromHost := by
  cases i with
  | encrypt => rw [execWith, encryptCommand, hp]; rfl
  | decrypt => rw [execWith, decryptCommand, hp]; rfl
  | derive => rw [execWith, deriveUnit, hp]; rfl
  | sealOp => rw [execWith, sealUnit, hp]; rfl
  | openOp => rw [execWith, openUnit, hp]; rfl

/-- The phases in which an operation has a step (R83, R100, R120, R141, R142). -/
def runPhases : Instr → List Phase
  | .encrypt => [.e1, .e2, .e3, .e4]
  | .decrypt => [.d1, .d2, .d3, .d4, .d5]
  | .derive => [.e2, .d3]
  | .sealOp => [.e3]
  | .openOp => [.d4]

theorem execWith_unpresented (hp : s.port = none) :
    execWith cfg i s = if s.engine.phase ∈ runPhases i then phaseStep cfg s else .refused .outOfPhase := by
  unfold phaseStep
  cases i with
  | encrypt => rw [execWith, encryptCommand, hp]; cases s.engine.phase <;> rfl
  | decrypt => rw [execWith, decryptCommand, hp]; cases s.engine.phase <;> rfl
  | derive => rw [execWith, deriveUnit, hp]; cases s.engine.phase <;> rfl
  | sealOp => rw [execWith, sealUnit, hp]; cases s.engine.phase <;> rfl
  | openOp => rw [execWith, openUnit, hp]; cases s.engine.phase <;> rfl

/-- Everything an operation can do: issue the presented command, or make the step of its phase. -/
theorem execWith_next (h : execWith cfg i s = .next t) :
    (∃ c, s.port = some c ∧ i.hostIssued = true ∧ issue cfg i c s = .next t) ∨ (s.port = none ∧ phaseStep cfg s = .next t) := by
  cases hp : s.port with
  | some c =>
    rw [execWith_presented hp] at h
    split at h
    · next hi => exact .inl ⟨c, rfl, hi, h⟩
    · cases h
  | none =>
    rw [execWith_unpresented hp] at h
    split at h
    · exact .inr ⟨rfl, h⟩
    · cases h

/-! ## The rows of the phase table -/

/-- The rows of R31 by which a command is issued. -/
def issueRows : List (Phase × Phase) := [(.idle, .e1), (.idle, .d1)]

/-- The rows of R31 by which a command goes on. -/
def advanceRows : List (Phase × Phase) := [(.e1, .e2), (.e2, .e3), (.e3, .e4), (.d1, .d2), (.d2, .d3), (.d3, .d4), (.d4, .d5)]

/-- The rows of R31 by which a command ends. -/
def endRows : List (Phase × Phase) :=
  [(.e1, .done), (.e2, .done), (.e4, .done), (.d1, .done), (.d3, .done), (.d4, .done), (.d5, .done)]

/-- The step from `s` to `t` ends a command: only a response is left, completion is signalled, and the random source is as it was unless the command was
still drawing (R265, R266, R273). -/
structure EndsCommand (s t : State) : Prop where
  response : ∃ r, t.engine = responseEngine r
  signalled : t.completions = s.completions + 1
  source : s.engine.phase ≠ .e1 → t.rng = s.rng

/-- What one operation does with its engine's command, by the row of R31 it takes. -/
inductive TakesRow (s t : State) : Prop where
  | issued (h : (s.engine.phase, t.engine.phase) ∈ issueRows)
  | advanced (h : (s.engine.phase, t.engine.phase) ∈ advanceRows)
  | ended (h : (s.engine.phase, t.engine.phase) ∈ endRows) (he : EndsCommand s t)
  | waited (h : s.engine.phase = .e1) (ht : t = s)

theorem takesRow_respond (r : Except ErrorKind ByteString) (h : (s.engine.phase, Phase.done) ∈ endRows) :
    TakesRow s { s with engine := responseEngine r, completions := s.completions + 1 } :=
  .ended (by simpa using h) ⟨⟨r, rfl⟩, rfl, fun _ => rfl⟩

theorem issue_takesRow {c : Command} (hi : i.hostIssued = true) (h : issue cfg i c s = .next t) : TakesRow s t := by
  obtain ⟨hidle, -, -, rfl⟩ := issue_next h
  cases i with
  | encrypt => exact .issued (by simp [hidle, firstPhase, issueRows])
  | decrypt => exact .issued (by simp [hidle, firstPhase, issueRows])
  | derive => cases hi
  | sealOp => cases hi
  | openOp => cases hi

theorem drawStep_takesRow (hph : s.engine.phase = .e1) (h : drawStep s = .next t) : TakesRow s t := by
  obtain rfl | ⟨src, rfl, -⟩ | ⟨salt, src, nonce, src', -, -, rfl⟩ := drawStep_next h
  · exact .waited hph rfl
  · exact .ended (by simp [hph, endRows]) ⟨⟨.error .randomSourceUnavailable, rfl⟩, rfl, fun hne => absurd hph hne⟩
  · exact .advanced (by simp [hph, advanceRows])

theorem deriveOp_takesRow {ph : Phase} (hend : (s.engine.phase, Phase.done) ∈ endRows) (hadv : (s.engine.phase, ph) ∈ advanceRows)
    (h : deriveOp cfg ph s = .next t) : TakesRow s t := by
  obtain ⟨_, _, _, _, -, -, -, -, ⟨e, -, rfl⟩ | ⟨key, -, rfl⟩⟩ := deriveOp_next h
  · exact takesRow_respond _ hend
  · exact .advanced hadv

theorem phaseStep_takesRow (h : phaseStep cfg s = .next t) : TakesRow s t := by
  unfold phaseStep at h
  generalize hph : s.engine.phase = ph at h
  cases ph with
  | idle => cases h
  | e1 => exact drawStep_takesRow hph h
  | e2 => exact deriveOp_takesRow (by simp [hph, endRows]) (by simp [hph, advanceRows]) h
  | e3 =>
    obtain ⟨_, _, _, _, _, -, -, -, -, -, rfl⟩ := sealOperation_next h
    exact .advanced (by simp [hph, advanceRows])
  | e4 =>
    obtain ⟨_, _, _, _, -, -, -, -, -, rfl⟩ := emitStep_next h
    exact takesRow_respond _ (by simp [hph, endRows])
  | d1 =>
    obtain ⟨_, -, ⟨-, rfl⟩ | ⟨-, rfl⟩⟩ := lengthStep_next h
    · exact takesRow_respond _ (by simp [hph, endRows])
    · exact .advanced (by simp [hph, advanceRows])
  | d2 =>
    obtain ⟨_, _, _, _, _, -, -, -, -, -, rfl⟩ := sliceStep_next h
    exact .advanced (by simp [hph, advanceRows])
  | d3 => exact deriveOp_takesRow (by simp [hph, endRows]) (by simp [hph, advanceRows]) h
  | d4 =>
    obtain ⟨_, _, _, _, _, -, -, -, -, -, -, ⟨-, rfl⟩ | ⟨_, -, rfl⟩⟩ := openOperation_next h
    · exact takesRow_respond _ (by simp [hph, endRows])
    · exact .advanced (by simp [hph, advanceRows])
  | d5 =>
    obtain ⟨_, _, -, -, -, rfl⟩ := releaseStep_next h
    exact takesRow_respond _ (by simp [hph, endRows])
  | done => cases h

theorem execWith_takesRow (h : execWith cfg i s = .next t) : TakesRow s t := by
  obtain ⟨c, -, hi, h⟩ | ⟨-, h⟩ := execWith_next h
  · exact issue_takesRow hi h
  · exact phaseStep_takesRow h

/-- Settles O26: of the rows of R31 only those that end a command lead to `DONE`. -/
theorem lastStepLeavesOnlyTheResponse : Obligations.LastStepLeavesOnlyTheResponse := by
  unfold Obligations.LastStepLeavesOnlyTheResponse
  intro i s t h hdone
  rw [exec_eq_execWith] at h
  cases execWith_takesRow h with
  | issued hrow => simp [hdone, issueRows] at hrow
  | advanced hrow => simp [hdone, advanceRows] at hrow
  | ended _ he => exact ⟨he.response, he.signalled, he.source⟩
  | waited hph ht => rw [ht, hph] at hdone; cases hdone

/-- Settles O28: the rows by which an operation issues, advances or ends a command are rows of R31. -/
theorem phaseFollowsTheTable : Obligations.PhaseFollowsTheTable := by
  unfold Obligations.PhaseFollowsTheTable
  intro i s t h
  rw [exec_eq_execWith] at h
  cases execWith_takesRow h with
  | issued hrow => exact .inl ((by decide : issueRows ⊆ _) hrow)
  | advanced hrow => exact .inl ((by decide : advanceRows ⊆ _) hrow)
  | ended hrow _ => exact .inl ((by decide : endRows ⊆ _) hrow)
  | waited hph ht => exact .inr ⟨hph, ht⟩

/-! ## What an operation neither reads nor writes -/

/-- The same engine, port and random source, with other engines, another plan of the host and other collected responses around them. -/
def State.beside (es : List Engine) (acts : List HostAction) (rs : List Response) (s : State) : State :=
  { s with others := es, script := acts, responses := rs }

/-- A result with `f` applied to the next state it answers. -/
def mapNext (f : State → State) : Result → Result
  | .next t => .next (f t)
  | .fault e => .fault e
  | .refused e => .refused e

theorem mapNext_ite (f : State → State) (p : Prop) [Decidable p] (r r' : Result) :
    mapNext f (if p then r else r') = if p then mapNext f r else mapNext f r' := apply_ite _ _ _ _

/-- Reads commute with what is done to the next state, where what is done with the value read does. -/
theorem need_mapNext {α : Type} {f : State → State} {o : Option α} {e : Fault} {k k' : α → Result} (h : ∀ a, k' a = mapNext f (k a)) :
    need o e k' = mapNext f (need o e k) := by
  cases o with
  | none => rfl
  | some a => exact h a

theorem memWrite_mapNext {f : State → State} {m : Memory} {off n : Nat} {v : ByteString} {k k' : Memory → Result}
    (h : ∀ m', k' m' = mapNext f (k m')) : memWrite m off n v k' = mapNext f (memWrite m off n v k) := by
  rw [memWrite, memWrite, mapNext_ite, h]
  rfl

section
variable (es : List Engine) (acts : List HostAction) (rs : List Response)

theorem issue_beside (i : Instr) (c : Command) :
    issue cfg i c (s.beside es acts rs) = mapNext (State.beside es acts rs) (issue cfg i c s) := by
  simp only [issue, mapNext_ite]
  rfl

theorem drawStep_beside : drawStep (s.beside es acts rs) = mapNext (State.beside es acts rs) (drawStep s) := by
  unfold drawStep
  rw [show (s.beside es acts rs).rng = s.rng from rfl]
  rcases RngSource.draw 16 s.rng with ⟨salt | _ | _, src⟩
  · dsimp only
    rcases RngSource.draw 12 src with ⟨nonce | _ | _, src'⟩ <;> rfl
  · rfl
  · rfl

theorem deriveOp_beside (ph : Phase) :
    deriveOp cfg ph (s.beside es acts rs) = mapNext (State.beside es acts rs) (deriveOp cfg ph s) :=
  need_mapNext fun _ => need_mapNext fun _ => need_mapNext fun p => need_mapNext fun salt => by
    cases deriveKey cfg p.1 salt.1 <;> rfl

theorem sealOperation_beside :
    sealOperation cfg (s.beside es acts rs) = mapNext (State.beside es acts rs) (sealOperation cfg s) :=
  need_mapNext fun _ => need_mapNext fun _ => need_mapNext fun _ => need_mapNext fun _ => need_mapNext fun _ => rfl

theorem openOperation_beside :
    openOperation cfg (s.beside es acts rs) = mapNext (State.beside es acts rs) (openOperation cfg s) :=
  need_mapNext fun key => need_mapNext fun nonce => need_mapNext fun _ => need_mapNext fun _ => need_mapNext fun x => by
    rw [mapNext_ite]
    cases cfg.openFn key nonce x.1 <;> rfl

theorem emitStep_beside : emitStep (s.beside es acts rs) = mapNext (State.beside es acts rs) (emitStep s) :=
  need_mapNext fun _ => need_mapNext fun _ => need_mapNext fun _ => need_mapNext fun _ =>
    memWrite_mapNext fun _ => memWrite_mapNext fun _ => memWrite_mapNext fun _ => rfl

theorem lengthStep_beside : lengthStep (s.beside es acts rs) = mapNext (State.beside es acts rs) (lengthStep s) :=
  need_mapNext fun _ => by
    rw [mapNext_ite]
    rfl

theorem sliceStep_beside : sliceStep (s.beside es acts rs) = mapNext (State.beside es acts rs) (sliceStep s) :=
  need_mapNext fun _ => need_mapNext fun _ => need_mapNext fun _ => need_mapNext fun _ => need_mapNext fun _ =>
    need_mapNext fun _ => need_mapNext fun _ => rfl

theorem releaseStep_beside : releaseStep (s.beside es acts rs) = mapNext (State.beside es acts rs) (releaseStep s) :=
  need_mapNext fun _ => need_mapNext fun _ => memWrite_mapNext fun _ => rfl

theorem phaseStep_beside : phaseStep cfg (s.beside es acts rs) = mapNext (State.beside es acts rs) (phaseStep cfg s) := by
  unfold phaseStep
  rw [show (s.beside es acts rs).engine = s.engine from rfl]
  cases s.engine.phase with
  | idle => rfl
  | e1 => exact drawStep_beside es acts rs
  | e2 => exact deriveOp_beside es acts rs .e3
  | e3 => exact sealOperation_beside es acts rs
  | e4 => exact emitStep_beside es acts rs
  | d1 => exact lengthStep_beside es acts rs
  | d2 => exact sliceStep_beside es acts rs
  | d3 => exact deriveOp_beside es acts rs .d4
  | d4 => exact openOperation_beside es acts rs
  | d5 => exact releaseStep_beside es acts rs
  | done => rfl

theorem execWith_beside : execWith cfg i (s.beside es acts rs) = mapNext (State.beside es acts rs) (execWith cfg i s) := by
  cases hp : s.port with
  | some c =>
    have hp' : (s.beside es acts rs).port = some c := hp
    rw [execWith_presented hp, execWith_presented hp', issue_beside, mapNext_ite]
    rfl
  | none =>
    have hp' : (s.beside es acts rs).port = none := hp
    rw [execWith_unpresented hp, execWith_unpresented hp', phaseStep_beside, mapNext_ite]
    rfl

end

/-- What an operation answers beside other surroundings is what it answered beside its own, and it leaves them. -/
theorem execWith_next_beside (h : execWith cfg i s = .next t) (es : List Engine) (acts : List HostAction) (rs : List Response) :
    execWith cfg i (s.beside es acts rs) = .next (t.beside es acts rs) := by
  rw [execWith_beside, h]
  rfl

/-- An operation leaves the other engines, the script and the responses as they are: put in their own place, they stand in its answer. -/
theorem execWith_keeps_surroundings (h : execWith cfg i s = .next t) : t = t.beside s.others s.script s.responses := by
  have hown := execWith_next_beside h s.others s.script s.responses
  rw [show s.beside s.others s.script s.responses = s from rfl, h, Host.Outcome.next.injEq] at hown
  exact hown

theorem execWith_others (h : execWith cfg i s = .next t) : t.others = s.others := by
  rw [execWith_keeps_surroundings h]
  rfl

theorem execWith_script (h : execWith cfg i s = .next t) : t.script = s.script := by
  rw [execWith_keeps_surroundings h]
  rfl

theorem execWith_responses (h : execWith cfg i s = .next t) : t.responses = s.responses := by
  rw [execWith_keeps_surroundings h]
  rfl

/-- Settles O27: an operation answers the same beside any other engines, so it keeps the ones that stand there. -/
theorem otherInstancesAreIndependent : Obligations.OtherInstancesAreIndependent := by
  unfold Obligations.OtherInstancesAreIndependent
  intro i s t h
  rw [exec_eq_execWith] at h
  refine ⟨execWith_others h, execWith_script h, execWith_responses h, fun es => ?_⟩
  have hes := execWith_next_beside h es s.script s.responses
  rw [exec_eq_execWith, execWith_keeps_surroundings h]
  exact hes

end Sys2Proof.Machine
end

section
/-! PROOFS. The invariant of 10_state.md R41 along every step, and that no model fault is met from it (R21, 42_codec.md R146, 60_exceptions.md R267). -/

namespace Sys2Proof.Machine

variable {cfg : Config} {s t : State}

/-! ## The engines of the invariant in some phases -/

theorem EngineInv.of_idle {e : Engine} (h : EngineInv cfg e) (hph : e.phase = .idle) : e = Engine.reset := by
  cases h with
  | idle => rfl
  | done r => rw [responseEngine_phase] at hph; cases hph
  | _ => cases hph

theorem EngineInv.of_done {e : Engine} (h : EngineInv cfg e) (hph : e.phase = .done) : ∃ r, e = responseEngine r := by
  cases h with
  | done r => exact ⟨r, rfl⟩
  | _ => cases hph

theorem EngineInv.of_e1 {e : Engine} (h : EngineInv cfg e) (hph : e.phase = .e1) :
    ∃ p m, Accepted cfg .encrypt p m ∧ e = loadedEngine .encrypt p m .e1 := by
  cases h with
  | e1 p m ha => exact ⟨p, m, ha, rfl⟩
  | done r => rw [responseEngine_phase] at hph; cases hph
  | _ => cases hph

theorem drawsLeft_eq_zero {ph : Phase} (h : ph ≠ .e1) : ph.drawsLeft = 0 := by
  cases ph with
  | e1 => exact absurd rfl h
  | _ => rfl

/-! ## Results that raise no fault -/

/-- The result is a next state of which `P` holds, or a refusal; it is no fault. -/
def NextOrRefused (P : State → Prop) : Result → Prop
  | .next t => P t
  | .fault _ => False
  | .refused _ => True

theorem NextOrRefused.imp {P Q : State → Prop} {r : Result} (h : NextOrRefused P r) (hpq : ∀ t, r = .next t → P t → Q t) :
    NextOrRefused Q r := by
  cases r with
  | next t => exact hpq t rfl h
  | fault f => exact h
  | refused f => trivial

theorem NextOrRefused.of_passTurn {P : State → Prop} {r : Result} (h : NextOrRefused (fun t => P (passTurn t)) r) :
    NextOrRefused P (passTurnAfter r) := by
  cases r with
  | next t => exact h
  | fault f => exact h
  | refused f => trivial

/-! ## The step of one engine -/

/-- `E1` always answers: the draws go on, fail, or are waited for (R141, R274). -/
theorem drawStep_answers (s : State) : ∃ t, drawStep s = .next t := by
  unfold drawStep raise
  split
  · exact ⟨_, rfl⟩
  · exact ⟨_, rfl⟩
  · split <;> exact ⟨_, rfl⟩

theorem drawStep_keepsEngineInv (hi : EngineInv cfg s.engine) (hph : s.engine.phase = .e1) :
    NextOrRefused (fun t => EngineInv cfg t.engine) (drawStep s) := by
  obtain ⟨t, ht⟩ := drawStep_answers s
  obtain ⟨p, m, ha, he⟩ := hi.of_e1 hph
  rw [ht]
  obtain rfl | ⟨_, rfl, -⟩ | ⟨salt, _, nonce, _, -, -, rfl⟩ := drawStep_next ht
  · exact hi
  · exact .done (.error _)
  · rw [he]
    exact .e2 p m salt nonce ha

theorem issue_not_fault {i : Instr} {c : Command} {f : Fault} : issue cfg i c s ≠ .fault f := by
  unfold issue
  split_ifs <;> simp

theorem issue_keepsEngineInv {i : Instr} {c : Command} (hhost : i.hostIssued = true) (hi : EngineInv cfg s.engine) :
    NextOrRefused (fun t => EngineInv cfg t.engine) (issue cfg i c s) := by
  cases hr : issue cfg i c s with
  | fault f => exact absurd hr issue_not_fault
  | refused r => trivial
  | next t =>
    obtain ⟨hidle, hc, ha, rfl⟩ := issue_next hr
    show EngineInv cfg (s.engine.loaded c (firstPhase i))
    rw [hi.of_idle hidle, hc]
    cases i with
    | encrypt => exact .e1 _ _ ha
    | decrypt => exact .d1 _ _ ha
    | derive => cases hhost
    | sealOp => cases hhost
    | openOp => cases hhost

theorem engineStep_presented_keepsEngineInv {c : Command} (hp : s.port = some c) (hi : EngineInv cfg s.engine) :
    NextOrRefused (fun t => EngineInv cfg t.engine) (engineStep (execWith cfg) s) := by
  unfold engineStep
  split
  · next i _ _ =>
    rw [execWith_presented hp]
    split
    · next hhost => exact issue_keepsEngineInv hhost hi
    · trivial
  · exact hi
  · trivial

/-- One engine step keeps the invariant of its engine and raises no fault, whatever the random source answers. -/
theorem engineStep_keepsEngineInv (hi : EngineInv cfg s.engine) :
    NextOrRefused (fun t => EngineInv cfg t.engine) (engineStep (execWith cfg) s) := by
  cases hp : s.port with
  | some c => exact engineStep_presented_keepsEngineInv hp hi
  | none =>
    by_cases hph : s.engine.phase = .e1
    · rw [engineStep_e1 hp hph]
      exact drawStep_keepsEngineInv hi hph
    · have hans : s.rng.AnswersTimes (0 + s.engine.phase.drawsLeft) := by rw [drawsLeft_eq_zero hph]; trivial
      obtain ⟨t, ht, hinv, -⟩ := engineStep_turn hi hp 0 hans
      rw [ht]
      exact hinv

/-! ## The step of the block -/

/-- The invariant of the block is about its engines, whichever of them has its turn. -/
theorem State.inv_iff : s.Inv cfg ↔ (∀ e ∈ s.engine :: s.others, EngineInv cfg e) ∧ s.others.length + 1 = cfg.nEngines := by
  rw [List.forall_mem_cons]
  exact ⟨fun h => ⟨⟨h.engine, h.others⟩, h.count⟩, fun ⟨⟨he, ho⟩, hc⟩ => ⟨he, ho, hc⟩⟩

theorem State.Inv.of_engine (h : s.Inv cfg) (he : EngineInv cfg t.engine) (ho : t.others = s.others) : t.Inv cfg :=
  ⟨he, ho ▸ h.others, ho ▸ h.count⟩

theorem State.Inv.after_passTurn (h : s.Inv cfg) : (passTurn s).Inv cfg := by
  rw [State.inv_iff, passTurn_instances, passTurn_others_length]
  refine ⟨fun e he => ?_, h.count⟩
  rcases List.mem_append.mp he with he | he
  · exact h.others e he
  · rw [List.mem_singleton.mp he]
    exact h.engine

theorem engineStep_others {run : Instr → State → Result} (hrun : ∀ i s t, run i s = .next t → t.others = s.others)
    (h : engineStep run s = .next t) : t.others = s.others := by
  obtain ⟨i, _, -, h⟩ | ⟨-, rfl⟩ := engineStep_next h
  · exact hrun i s t h
  · rfl

theorem engineStep_keepsInv (h : s.Inv cfg) : NextOrRefused (State.Inv cfg) (engineStep (execWith cfg) s) :=
  (engineStep_keepsEngineInv h.engine).imp fun _ ht he => h.of_engine he (engineStep_others (fun _ _ _ => execWith_others) ht)

theorem State.Inv.after_resetBlock (h : s.Inv cfg) : (resetBlock s).Inv cfg where
  engine := .idle
  others e he := by
    obtain ⟨_, -, rfl⟩ := List.mem_map.mp he
    exact .idle
  count := by simpa using h.count

/-- A collect takes a response away or is refused: `DONE` holds all that it reads (R87, R268). -/
theorem collect_keepsInv (h : s.Inv cfg) : NextOrRefused (State.Inv cfg) (collect s) := by
  by_cases hd : s.engine.phase = .done
  · obtain ⟨r, hr⟩ := h.engine.of_done hd
    rw [collect_response r hr]
    exact h.of_engine .idle rfl
  · rw [collect, if_neg hd]
    trivial

theorem discard_keepsInv (h : s.Inv cfg) : NextOrRefused (State.Inv cfg) (discard s) := by
  unfold discard
  split
  · next hd =>
    obtain ⟨r, hr⟩ := h.engine.of_done hd
    rw [hr, responseEngine_collected]
    exact h.of_engine .idle rfl
  · trivial

theorem hostStep_keepsInv (a : HostAction) (h : s.Inv cfg) : NextOrRefused (State.Inv cfg) (hostStep (execWith cfg) a s) := by
  cases a with
  | present c => exact h.of_engine h.engine rfl
  | run => exact engineStep_keepsInv h
  | collect => exact collect_keepsInv h
  | discard => exact discard_keepsInv h
  | reset => exact h.after_resetBlock
  | bindRng src => exact h.of_engine h.engine rfl
  | turn => exact h.after_passTurn

/-- Every step at any parameters keeps the invariant and raises no fault. -/
theorem stepWith_keepsInv (h : s.Inv cfg) : NextOrRefused (State.Inv cfg) (stepWith cfg s) := by
  cases hp : s.port with
  | some c =>
    rw [stepWith_port (by rw [hp]; rfl)]
    exact engineStep_keepsInv h
  | none =>
    cases hs : s.script with
    | nil =>
      rw [stepWith_idle_host hp hs]
      exact ((engineStep_keepsInv h).imp fun _ _ ht => ht.after_passTurn).of_passTurn
    | cons a acts =>
      rw [stepWith_host hp hs]
      exact hostStep_keepsInv a (h.of_engine h.engine rfl)

theorem step_keepsInv (h : s.Inv defaultConfig) : NextOrRefused (State.Inv defaultConfig) (step s) := by
  rw [stepIsTheDefaultMachine s]
  exact stepWith_keepsInv h

/-- Settles O44: the engine whose step it is keeps its row of R41, phase by phase, and the others are not touched. -/
theorem stepKeepsTheInvariant : Obligations.StepKeepsTheInvariant := by
  unfold Obligations.StepKeepsTheInvariant
  intro s t h hstep
  have hkeeps := step_keepsInv h
  rw [hstep] at hkeeps
  exact hkeeps

/-! ## Runs -/

/-- What every step keeps, a run of any length keeps. -/
theorem NextOrRefused.along_runSteps {P : State → Prop} {f : State → Result} (hf : ∀ s, P s → NextOrRefused P (f s)) (n : Nat) (h : P s) :
    NextOrRefused P (runSteps f n s) := by
  induction n generalizing s with
  | zero => exact h
  | succ n ih =>
    have hs := hf s h
    rw [runSteps]
    cases hr : f s with
    | next t =>
      rw [hr] at hs
      exact ih hs
    | fault r =>
      rw [hr] at hs
      exact hs
    | refused r => trivial

/-- The runs that `Safe` speaks of are the runs of `step`. -/
theorem core_run_eq_runSteps (n : Nat) (s : State) : Host.Core.run Sys2Proof.core n s = runSteps step n s := by
  induction n generalizing s with
  | zero => rfl
  | succ n ih =>
    have hcore : Sys2Proof.core.step s = step s := rfl
    have hrun := Host.Core.run.eq_2 Sys2Proof.core s n
    rw [hcore] at hrun
    rw [runSteps]
    refine hrun.trans ?_
    cases step s with
    | next t => exact ih t
    | fault r => rfl
    | refused r => rfl

/-- Settles O46: each step of a run starts from a state of the invariant, so none raises a fault. -/
theorem invariantRunsNeverFault : Obligations.InvariantRunsNeverFault := by
  unfold Obligations.InvariantRunsNeverFault Safe
  intro s h n f hfault
  have hkeeps := NextOrRefused.along_runSteps (fun _ => step_keepsInv) n h
  rw [← core_run_eq_runSteps] at hkeeps
  rw [hfault] at hkeeps
  exact hkeeps

end Sys2Proof.Machine
end

section
/-! PROOFS. Issue and the fetched operation (30_encoding.md R85, 10_state.md R30), and the flags and all that the host can see (R27, R32, R40). -/

namespace Sys2Proof.Machine

variable {s : State}

/-! ## Issue -/

/-- An idle engine takes an accepted command of either operation the host may issue (R85, R52). -/
theorem issue_accepts {cfg : Config} (i : Instr) {p m : ByteString} (hidle : s.engine.phase = .idle) (ha : Accepted cfg i p m) :
    issue cfg i (commandOf i p m) s =
      .next { s with engine := s.engine.loaded (commandOf i p m) (firstPhase i), port := none } := by
  have hpp : (commandOf i p m).ppBounded cfg = true := decide_eq_true ha.1
  have hin : (commandOf i p m).inBounded cfg i = true := decide_eq_true ha.2
  have hshape : (commandOf i p m).ppShape = true ∧ (commandOf i p m).inShape = true := by
    simp [commandOf, Command.ppShape, Command.inShape]
  have hop : (commandOf i p m).op = opcode i := rfl
  simp [issue, hidle, hop, hshape, hpp, hin]

theorem exec_accepts {i : Instr} (hhost : i.hostIssued = true) {p m : ByteString} (hp : s.port = some (commandOf i p m))
    (hidle : s.engine.phase = .idle) (ha : Accepted defaultConfig i p m) :
    exec i s = .next { s with engine := s.engine.loaded (commandOf i p m) (firstPhase i), port := none } := by
  rw [exec_eq_execWith, execWith_presented hp, if_pos hhost, issue_accepts i hidle ha]

/-- Settles O8: the presented tuple is accepted, and `loaded` takes it by value. -/
theorem encryptIssueLoadsTheCommand : Obligations.EncryptIssueLoadsTheCommand := by
  unfold Obligations.EncryptIssueLoadsTheCommand
  intro s p m hp hidle hpp hm
  exact exec_accepts rfl hp hidle ⟨hpp, hm⟩

/-- Settles O9: the same issue, under DECRYPT's bound on the input. -/
theorem decryptIssueLoadsTheCommand : Obligations.DecryptIssueLoadsTheCommand := by
  unfold Obligations.DecryptIssueLoadsTheCommand
  intro s p c hp hidle hpp hc
  exact exec_accepts rfl hp hidle ⟨hpp, hc⟩

/-! ## The fetched operation -/

theorem engineStep_fetched {i : Instr} {rest : ByteString} (hd : decode (fetchOp s) = .ok (i, rest)) :
    engineStep (execWith defaultConfig) s = exec i s := by
  rw [engineStep, hd, exec_eq_execWith]

/-- Settles O4: in each of the four situations the step is the engine's, which runs what it fetched; an engine that is alone passes its turn to itself. -/
theorem stepRunsTheFetchedOperation : Obligations.StepRunsTheFetchedOperation := by
  unfold Obligations.StepRunsTheFetchedOperation
  intro s i rest hd _
  rw [stepIsTheDefaultMachine s]
  refine ⟨fun hp => ?_, fun hp hs => ?_, fun hp hs hl => ?_, fun acts hp hs => ?_⟩
  · rw [stepWith_port hp, engineStep_fetched hd]
  · rw [stepWith_idle_host hp hs, engineStep_fetched hd]
  · have halone : ∀ t, exec i s = .next t → t.others = [] := fun t ht =>
      (execWith_others (exec_eq_execWith i s ▸ ht)).trans hl
    rw [stepWith_idle_host hp hs, engineStep_fetched hd, passTurnAfter_single halone]
  · have hd' : decode (fetchOp { s with script := acts }) = .ok (i, rest) := hd
    rw [stepWith_host hp hs, hostStep, engineStep_fetched hd']

/-! ## The flags and the host's view -/

theorem Engine.busyFlag_iff (e : Engine) : e.busyFlag = true ↔ e.phase ≠ .idle ∧ e.phase ≠ .done := decide_eq_true_iff

theorem Engine.doneFlag_iff (e : Engine) : e.doneFlag = true ↔ e.phase = .done := decide_eq_true_iff

theorem Engine.outValidFlag_iff (e : Engine) : e.outValidFlag = true ↔ e.phase = .done ∧ e.status = some 0x00#8 := decide_eq_true_iff

/-- Settles O37: each flag is decided by the condition R32 gives. -/
theorem flagsFollowPhaseAndStatus : Obligations.FlagsFollowPhaseAndStatus := by
  unfold Obligations.FlagsFollowPhaseAndStatus
  exact fun e => ⟨e.busyFlag_iff, e.doneFlag_iff, e.outValidFlag_iff⟩

/-- Settles O36: the flags are computed from `PHASE = IDLE`, and every other engine is a copy of the reset engine. -/
theorem resetValues : Obligations.ResetValues := by
  unfold Obligations.ResetValues
  exact ⟨rfl, rfl, rfl, rfl, rfl, fun _ he => List.eq_of_mem_replicate he⟩

theorem Engine.outValidFlag_eq (e : Engine) : e.outValidFlag = (e.doneFlag && decide (e.status = some statusOk)) := Bool.decide_and _ _

/-- All that the host sees comes from two flags, `STATUS`, `OUT_LEN` and `OUT` (R27). -/
theorem Engine.hostView_congr {e f : Engine} (hbusy : e.busyFlag = f.busyFlag) (hdone : e.doneFlag = f.doneFlag) (hstatus : e.status = f.status)
    (hlen : e.outLen = f.outLen) (hout : e.out = f.out) : e.hostView = f.hostView := by
  have hvalid : e.outValidFlag = f.outValidFlag := by rw [e.outValidFlag_eq, f.outValidFlag_eq, hdone, hstatus]
  simp only [Engine.hostView, Engine.hostStatus, Engine.hostOutLen, Engine.hostOut, hbusy, hdone, hvalid, hstatus, hlen, hout]

theorem Engine.doneFlag_of_busy {e : Engine} (h : e.busyFlag = true) : e.doneFlag = false :=
  decide_eq_false (e.busyFlag_iff.mp h).2

/-- Settles O39: `PHASE` shows in `BUSY` and `DONE` only, and two busy engines agree in both. -/
theorem hostViewHidesTheInside : Obligations.HostViewHidesTheInside := by
  unfold Obligations.HostViewHidesTheInside
  intro e f hstatus hlen hout hphase
  obtain hphase | ⟨he, hf⟩ := hphase
  · have hbusy : e.busyFlag = f.busyFlag := by rw [Engine.busyFlag, Engine.busyFlag, hphase]
    have hdone : e.doneFlag = f.doneFlag := by rw [Engine.doneFlag, Engine.doneFlag, hphase]
    exact Engine.hostView_congr hbusy hdone hstatus hlen hout
  · have hbusy : e.busyFlag = f.busyFlag := he.trans hf.symm
    have hdone : e.doneFlag = f.doneFlag := (Engine.doneFlag_of_busy he).trans (Engine.doneFlag_of_busy hf).symm
    exact Engine.hostView_congr hbusy hdone hstatus hlen hout

end Sys2Proof.Machine
end

section
/-! PROOFS. The memory: what a step does to the buffers of an engine (20_memory.md R50), the random-source port (R65, 70_reset_and_hazards.md R303), and the
gate on `OUT` (R57). -/

namespace Sys2Proof.Machine

variable {cfg : Config} {i : Instr} {s t : State}

/-! ## What an operation does to the buffers -/

/-- The two engines have the same three buffers. -/
structure Engine.SameBuffers (e e' : Engine) : Prop where
  pp : e'.pp = e.pp
  inp : e'.inp = e.inp
  out : e'.out = e.out

theorem Engine.SameBuffers.refl (e : Engine) : e.SameBuffers e := ⟨rfl, rfl, rfl⟩

theorem drawStep_buffers (h : drawStep s = .next t) : s.engine.SameBuffers t.engine ∨ ∃ r, t.engine = responseEngine r := by
  obtain rfl | ⟨_, rfl, -⟩ | ⟨_, _, _, _, -, -, rfl⟩ := drawStep_next h
  · exact .inl (.refl _)
  · exact .inr ⟨.error _, rfl⟩
  · exact .inl ⟨rfl, rfl, rfl⟩

theorem deriveOp_buffers {ph : Phase} (h : deriveOp cfg ph s = .next t) :
    s.engine.SameBuffers t.engine ∨ ∃ r, t.engine = responseEngine r := by
  obtain ⟨_, _, _, _, -, -, -, -, ⟨_, -, rfl⟩ | ⟨_, -, rfl⟩⟩ := deriveOp_next h
  · exact .inr ⟨.error _, rfl⟩
  · exact .inl ⟨rfl, rfl, rfl⟩

/-- The step of a phase writes a buffer only where it ends the command, and then a response is all that the engine holds (R53, 60_exceptions.md R265, R266). -/
theorem phaseStep_buffers (h : phaseStep cfg s = .next t) : s.engine.SameBuffers t.engine ∨ ∃ r, t.engine = responseEngine r := by
  unfold phaseStep at h
  cases hph : s.engine.phase with rw [hph] at h
  | idle => cases h
  | e1 => exact drawStep_buffers h
  | e2 => exact deriveOp_buffers h
  | e3 =>
    obtain ⟨_, _, _, _, _, -, -, -, -, -, rfl⟩ := sealOperation_next h
    exact .inl ⟨rfl, rfl, rfl⟩
  | e4 =>
    obtain ⟨_, _, _, _, -, -, -, -, -, rfl⟩ := emitStep_next h
    exact .inr ⟨.ok _, rfl⟩
  | d1 =>
    obtain ⟨_, -, ⟨-, rfl⟩ | ⟨-, rfl⟩⟩ := lengthStep_next h
    · exact .inr ⟨.error _, rfl⟩
    · exact .inl ⟨rfl, rfl, rfl⟩
  | d2 =>
    obtain ⟨_, _, _, _, _, -, -, -, -, -, rfl⟩ := sliceStep_next h
    exact .inl ⟨rfl, rfl, rfl⟩
  | d3 => exact deriveOp_buffers h
  | d4 =>
    obtain ⟨_, _, _, _, _, -, -, -, -, -, -, ⟨-, rfl⟩ | ⟨_, -, rfl⟩⟩ := openOperation_next h
    · exact .inr ⟨.error _, rfl⟩
    · exact .inl ⟨rfl, rfl, rfl⟩
  | d5 =>
    obtain ⟨_, _, -, -, -, rfl⟩ := releaseStep_next h
    exact .inr ⟨.ok _, rfl⟩
  | done => cases h

/-! ## Engines with canonical buffers -/

theorem wf_of_some_ofBytes {b : ByteString} {m : Memory} (h : some (Memory.ofBytes b) = some m) : m.wf = true :=
  Option.some.inj h ▸ Memory.wf_ofBytes b

theorem Engine.BuffersWf.of_sameBuffers {e e' : Engine} (h : e.BuffersWf) (hsame : e.SameBuffers e') : e'.BuffersWf := by
  unfold Engine.BuffersWf
  rw [hsame.pp, hsame.inp, hsame.out]
  exact h

theorem Engine.buffersWf_reset : Engine.reset.BuffersWf := ⟨nofun, nofun, nofun⟩

theorem buffersWf_responseEngine (r : Except ErrorKind ByteString) : (responseEngine r).BuffersWf := by
  cases r with
  | error k => exact ⟨nofun, nofun, nofun⟩
  | ok b => exact ⟨nofun, nofun, fun _ => wf_of_some_ofBytes⟩

/-- Issue stores the two strings of the tuple whole and leaves `OUT` (R52). -/
theorem Engine.BuffersWf.after_loaded {e : Engine} (h : e.BuffersWf) (c : Command) (ph : Phase) : (e.loaded c ph).BuffersWf := by
  obtain ⟨-, -, hout⟩ := h
  exact ⟨fun _ => wf_of_some_ofBytes, fun _ => wf_of_some_ofBytes, hout⟩

theorem Engine.BuffersWf.after_collected {e : Engine} (h : e.BuffersWf) : e.collected.BuffersWf := by
  obtain ⟨hpp, hinp, -⟩ := h
  exact ⟨hpp, hinp, nofun⟩

theorem execWith_keepsBuffersWf (hs : s.engine.BuffersWf) (h : execWith cfg i s = .next t) : t.engine.BuffersWf := by
  obtain ⟨c, -, -, h⟩ | ⟨-, h⟩ := execWith_next h
  · obtain ⟨-, -, -, rfl⟩ := issue_next h
    exact hs.after_loaded c _
  · obtain hsame | ⟨r, hr⟩ := phaseStep_buffers h
    · exact hs.of_sameBuffers hsame
    · rw [hr]
      exact buffersWf_responseEngine r

/-! ## The step of a block with canonical buffers -/

theorem State.BuffersWf.of_engine (h : s.BuffersWf) (he : t.engine.BuffersWf) (ho : t.others = s.others) : t.BuffersWf := by
  obtain ⟨-, hothers⟩ := h
  exact ⟨he, ho ▸ hothers⟩

/-- A turn moves the instances round and changes none of them (10_state.md R42). -/
theorem State.BuffersWf.after_passTurn (h : s.BuffersWf) : (passTurn s).BuffersWf := by
  have hall : ∀ e ∈ (passTurn s).engine :: (passTurn s).others, e.BuffersWf := by
    rw [passTurn_instances, List.forall_mem_append, List.forall_mem_singleton]
    exact h.symm
  exact List.forall_mem_cons.mp hall

theorem State.buffersWf_resetBlock : (resetBlock s).BuffersWf :=
  ⟨Engine.buffersWf_reset, List.forall_mem_map.mpr fun _ _ => Engine.buffersWf_reset⟩

theorem engineStep_keepsBuffersWf (hs : s.BuffersWf) (h : engineStep (execWith cfg) s = .next t) : t.BuffersWf := by
  obtain ⟨i, _, -, h⟩ | ⟨-, rfl⟩ := engineStep_next h
  · exact hs.of_engine (execWith_keepsBuffersWf hs.1 h) (execWith_others h)
  · exact hs

theorem hostStep_keepsBuffersWf (a : HostAction) (hs : s.BuffersWf) (h : hostStep (execWith cfg) a s = .next t) : t.BuffersWf := by
  have ⟨hengine, hothers⟩ := hs
  cases a with
  | present c => cases h; exact ⟨hengine, hothers⟩
  | run => exact engineStep_keepsBuffersWf hs h
  | collect =>
    obtain ⟨-, _, _, -, -, -, rfl⟩ := collect_next h
    exact ⟨hengine.after_collected, hothers⟩
  | discard =>
    obtain ⟨-, rfl⟩ := discard_next h
    exact ⟨hengine.after_collected, hothers⟩
  | reset => cases h; exact State.buffersWf_resetBlock
  | bindRng src => cases h; exact ⟨hengine, hothers⟩
  | turn => cases h; exact hs.after_passTurn

/-- Every step at any parameters keeps the buffers canonical, from any state in which they are, not only one of the invariant. -/
theorem stepWith_keepsBuffersWf (hs : s.BuffersWf) (h : stepWith cfg s = .next t) : t.BuffersWf := by
  obtain ⟨-, hrun⟩ | ⟨-, -, u, hrun, rfl⟩ | ⟨-, a, rest, -, hact⟩ := stepBy_next h
  · exact engineStep_keepsBuffersWf hs hrun
  · exact (engineStep_keepsBuffersWf hs hrun).after_passTurn
  · exact hostStep_keepsBuffersWf (s := { s with script := rest }) a hs hact

/-- Settles O47: an engine gets a buffer only from a whole string, at issue or with a response. -/
theorem stepKeepsBuffersCanonical : Obligations.StepKeepsBuffersCanonical := by
  unfold Obligations.StepKeepsBuffersCanonical
  intro s t hs h
  rw [stepIsTheDefaultMachine s] at h
  exact stepWith_keepsBuffersWf hs h

/-! ## The random-source port -/

theorem Draw.ofAnswer_got {n : Nat} (b : Bytes n) : Draw.ofAnswer n (some b.1) = .got b := dif_pos b.2

theorem Draw.ofAnswer_of_length_ne {n : Nat} {b : ByteString} (h : b.length ≠ n) : Draw.ofAnswer n (some b) = .fail := dif_neg h

/-- A substitute answers a request with the first bytes of its stream and keeps the rest (R65). -/
theorem RngSource.draw_substitute_append {n : Nat} (b : Bytes n) (rest : ByteString) :
    RngSource.draw n (.substitute (b.1 ++ rest)) = (.got b, .substitute rest) := by
  rw [RngSource.draw, List.take_left' b.2, List.drop_left' b.2, Draw.ofAnswer_got]

/-- Settles O60: the stream is cut after 16 bytes and after 12 more; the other clauses are the failing cases of a draw. -/
theorem substituteStreamIsCutInOrder : Obligations.SubstituteStreamIsCutInOrder := by
  unfold Obligations.SubstituteStreamIsCutInOrder
  refine ⟨fun salt nonce rest => ?_, fun n b rest hlen => ?_, fun _ => rfl, .inl rfl⟩
  · rw [List.append_assoc]
    exact ⟨_, RngSource.draw_substitute_append salt _, RngSource.draw_substitute_append nonce rest⟩
  · rw [RngSource.draw, Draw.ofAnswer_of_length_ne hlen]

/-! ## The gate on `OUT` -/

theorem Engine.hostOut_of_outValidFlag_false {e : Engine} (h : e.outValidFlag = false) : e.hostOut = none := by
  rw [Engine.hostOut, h]
  rfl

theorem Engine.hostOutByte_of_outValidFlag_false {e : Engine} (h : e.outValidFlag = false) (off : Nat) : e.hostOutByte off = none := by
  rw [Engine.hostOutByte, h]
  rfl

/-- Settles O38: both reads test the flag before they look at `OUT`. -/
theorem outIsGatedByOutValid : Obligations.OutIsGatedByOutValid := by
  unfold Obligations.OutIsGatedByOutValid
  exact fun _ h => ⟨Engine.hostOut_of_outValidFlag_false h, Engine.hostOutByte_of_outValidFlag_false h⟩

end Sys2Proof.Machine
end

section
/-! PROOFS. The operation codes, read and written (30_encoding.md R83, R88, R89), what becomes of a presented command (R85, R88), and the container's layout
in `OUT` (R80). -/

namespace Sys2Proof

/-! ## The decoder and the encoder -/

theorem decodeOp_opcode (i : Instr) : decodeOp (opcode i) = .ok i := by cases i <;> rfl

/-- No value but an operation's own code spells it (R83). -/
theorem eq_opcode_of_decodeOp {op : Byte} {i : Instr} (h : decodeOp op = .ok i) : op = opcode i := by
  unfold decodeOp at h
  split_ifs at h with h1 h2 h3 h4 h5
  · cases h; exact h1
  · cases h; exact h2
  · cases h; exact h3
  · cases h; exact h4
  · cases h; exact h5

/-- A value that spells no operation is reserved (R88). -/
theorem decodeOp_of_reserved {op : Byte} (h : ∀ i, op ≠ opcode i) : decodeOp op = .error (.reservedOp op) := by
  cases hd : decodeOp op with
  | ok i => exact absurd (eq_opcode_of_decodeOp hd) (h i)
  | error e =>
    unfold decodeOp at hd
    split_ifs at hd
    cases hd
    rfl

theorem decode_encode_append (i : Instr) (rest : ByteString) : decode (encode i ++ rest) = .ok (i, rest) := by
  rw [encode, List.singleton_append, decode, decodeOp_opcode]

/-- Settles O1: an encoding is one byte, and `decodeOp` undoes `opcode`. -/
theorem decodeOfEncode : Obligations.DecodeOfEncode := by
  unfold Obligations.DecodeOfEncode
  exact fun i rest _ => decode_encode_append i rest

/-- Settles O2: the first byte must spell the operation, so it is its code, and what follows it is handed back. -/
theorem decodedBytesAreTheCode : Obligations.DecodedBytesAreTheCode := by
  unfold Obligations.DecodedBytesAreTheCode
  intro b i rest h
  cases b with
  | nil => cases h
  | cons op tail =>
    rw [decode] at h
    split at h
    · next j hop =>
      cases h
      rw [eq_opcode_of_decodeOp hop]
      rfl
    · cases h

/-- Settles O3: each code of the table is the encoding of its operation, with nothing after it. -/
theorem tableCodesDecode : Obligations.TableCodesDecode := by
  unfold Obligations.TableCodesDecode
  exact ⟨decode_encode_append .encrypt [], decode_encode_append .decrypt [], decode_encode_append .derive [],
    decode_encode_append .sealOp [], decode_encode_append .openOp []⟩

end Sys2Proof

namespace Sys2Proof.Machine

variable {cfg : Config} {s : State} {c : Command} {i : Instr}

/-! ## A presented command -/

theorem fetchOp_presented (hp : s.port = some c) : fetchOp s = [c.op] := by rw [fetchOp, hp]

/-- A command that spells an operation is issued if the host may issue it, and else refused (R83, R85, R88). -/
theorem stepWith_presented (hp : s.port = some c) (hop : c.op = opcode i) :
    stepWith cfg s = if i.hostIssued then issue cfg i c s else .refused .unitOpFromHost := by
  have hd : decode (fetchOp s) = .ok (i, []) := by
    rw [fetchOp_presented hp, hop]
    exact decode_encode_append i []
  rw [stepWith_port (by rw [hp]; rfl), engineStep, hd]
  exact execWith_presented hp

/-- A command that spells no operation is refused as reserved (R88). -/
theorem stepWith_presented_reserved (hp : s.port = some c) (hop : ∀ i, c.op ≠ opcode i) :
    stepWith cfg s = .refused (.reservedOp c.op) := by
  rw [stepWith_port (by rw [hp]; rfl), engineStep, fetchOp_presented hp, decode, decodeOp_of_reserved hop]

theorem opcode_mem_table (i : Instr) : opcode i ∈ [0x01#8, 0x02#8, 0x10#8, 0x20#8, 0x21#8] := by cases i <;> decide

/-- The codes 0x10, 0x20 and 0x21 are those of the unit operations, which the host may not issue (R83). -/
theorem exists_unitOp_of_mem {op : Byte} (h : op ∈ [0x10#8, 0x20#8, 0x21#8]) : ∃ i : Instr, op = opcode i ∧ i.hostIssued = false := by
  simp only [List.mem_cons, List.not_mem_nil, or_false] at h
  obtain rfl | rfl | rfl := h
  · exact ⟨.derive, rfl, rfl⟩
  · exact ⟨.sealOp, rfl, rfl⟩
  · exact ⟨.openOp, rfl, rfl⟩

/-- Settles O7: a code outside the table spells no operation, and a unit operation's code spells one that the host may not issue. -/
theorem otherCodesAreRefused : Obligations.OtherCodesAreRefused := by
  unfold Obligations.OtherCodesAreRefused
  intro s c hp
  rw [stepIsTheDefaultMachine s]
  refine ⟨fun hop => stepWith_presented_reserved hp fun i hi => hop (hi ▸ opcode_mem_table i), fun hop => ?_⟩
  obtain ⟨i, hi, hunit⟩ := exists_unitOp_of_mem hop
  rw [stepWith_presented hp hi, hunit]
  rfl

/-! ## When a presented command is accepted -/

/-- The command is host operation `i` and meets the conditions of R85 on the phase and on the lengths of what it carries. -/
structure AcceptableAs (cfg : Config) (s : State) (c : Command) (i : Instr) : Prop where
  op : c.op = opcode i
  host : i.hostIssued = true
  idle : s.engine.phase = .idle
  accepted : Accepted cfg i c.pp c.inp

/-- A tuple of the shape R84 gives is known by its operation and its two strings. -/
theorem eq_commandOf (hop : c.op = opcode i) (hpp : c.ppShape = true) (hin : c.inShape = true) : c = commandOf i c.pp c.inp := by
  cases c
  simp only [Command.ppShape, Command.inShape, beq_iff_eq] at hpp hin
  simp only at hop
  rw [commandOf, hop, hpp, hin]

theorem firstPhase_ne_idle (h : i.hostIssued = true) : firstPhase i ≠ .idle := by
  cases i with
  | encrypt => decide
  | decrypt => decide
  | derive => cases h
  | sealOp => cases h
  | openOp => cases h

theorem issue_refuses (h : ¬ (s.engine.phase = .idle ∧ Accepted cfg i c.pp c.inp)) : ∃ r, issue cfg i c s = .refused r := by
  cases hr : issue cfg i c s with
  | refused r => exact ⟨r, rfl⟩
  | fault f => exact absurd hr issue_not_fault
  | next t =>
    obtain ⟨hidle, -, ha, -⟩ := issue_next hr
    exact absurd ⟨hidle, ha⟩ h

theorem stepWith_accepts (hp : s.port = some c) (hpp : c.ppShape = true) (hin : c.inShape = true) (h : AcceptableAs cfg s c i) :
    ∃ t, stepWith cfg s = .next t ∧ t.engine.phase ≠ .idle := by
  have hissue := issue_accepts i h.idle h.accepted
  rw [← eq_commandOf h.op hpp hin] at hissue
  rw [stepWith_presented hp h.op, if_pos h.host, hissue]
  exact ⟨_, rfl, firstPhase_ne_idle h.host⟩

theorem stepWith_refuses (hp : s.port = some c) (h : ∀ i, ¬ AcceptableAs cfg s c i) : ∃ r, stepWith cfg s = .refused r := by
  by_cases hop : ∃ i, c.op = opcode i
  · obtain ⟨i, hi⟩ := hop
    rw [stepWith_presented hp hi]
    split
    · next hhost => exact issue_refuses fun ⟨hidle, ha⟩ => h i ⟨hi, hhost, hidle, ha⟩
    · exact ⟨_, rfl⟩
  · exact ⟨_, stepWith_presented_reserved hp (not_exists.mp hop)⟩

/-- The conditions of R85 at the default bounds, with the two host operations written out by their codes. -/
theorem exists_acceptableAs_iff (hpp : c.ppShape = true) (hin : c.inShape = true) :
    (∃ i, AcceptableAs defaultConfig s c i) ↔ s.engine.phase = .idle ∧ c.ppLen ≤ defaultMaxPassphraseLen ∧
      ((c.op = 0x01#8 ∧ c.inLen ≤ defaultMaxPlaintextLen) ∨ (c.op = 0x02#8 ∧ c.inLen ≤ defaultMaxPlaintextLen + 44)) := by
  simp only [Command.ppShape, Command.inShape, beq_iff_eq] at hpp hin
  rw [← hpp, ← hin]
  constructor
  · rintro ⟨i, hop, hhost, hidle, hp, hm⟩
    cases i with
    | encrypt => exact ⟨hidle, hp, .inl ⟨hop, hm⟩⟩
    | decrypt => exact ⟨hidle, hp, .inr ⟨hop, hm⟩⟩
    | derive => cases hhost
    | sealOp => cases hhost
    | openOp => cases hhost
  · rintro ⟨hidle, hp, ⟨hop, hm⟩ | ⟨hop, hm⟩⟩
    · exact ⟨.encrypt, hop, rfl, hidle, hp, hm⟩
    · exact ⟨.decrypt, hop, rfl, hidle, hp, hm⟩

/-- Settles O6: an acceptable command is issued, which leaves `IDLE`; any other is refused for its code or by the tests of issue. -/
theorem commandAcceptedExactly : Obligations.CommandAcceptedExactly := by
  unfold Obligations.CommandAcceptedExactly
  intro s c hp hpp hin
  rw [stepIsTheDefaultMachine s, ← exists_acceptableAs_iff hpp hin]
  exact ⟨fun ⟨_, h⟩ => stepWith_accepts hp hpp hin h, fun h => stepWith_refuses hp (not_exists.mp h)⟩

/-! ## The container in `OUT` -/

/-- Which byte of a container stands at which offset (R80). -/
theorem containerOf_getElem? (salt : Bytes 16) (nonce : Bytes 12) (x : ByteString) (a : Nat) :
    (containerOf salt nonce x)[a]? = if a < 16 then salt.1[a]? else if a < 28 then nonce.1[a - 16]? else x[a - 28]? := by
  have hs := salt.2
  have hn := nonce.2
  rw [containerOf, List.append_assoc, List.getElem?_append, List.getElem?_append, hs, hn, Nat.sub_sub]
  split_ifs with h1 h2 h3 h3
  · rfl
  · rfl
  · omega
  · omega
  · rfl

/-- An engine that holds a successful response has its bytes in `OUT`, and nothing in the other two spaces (R29, R50). -/
theorem readByte_responseEngine_ok (b : ByteString) (a : Nat) :
    (responseEngine (.ok b)).readByte .out a = b[a]? ∧ (responseEngine (.ok b)).readByte .pp a = none ∧
      (responseEngine (.ok b)).readByte .inp a = none :=
  ⟨Memory.read_ofBytes b a, rfl, rfl⟩

/-- What ENCRYPT makes in `E4` is the response with the container of what the engine holds (R141, R266). -/
theorem encrypt_e4_engine {t : State} {salt : Bytes 16} {nonce : Bytes 12} {x : ByteString} (hp : s.port = none) (hph : s.engine.phase = .e4)
    (hsalt : s.engine.salt = some salt) (hnonce : s.engine.nonce = some nonce) (hx : s.engine.staged = some x)
    (h : execWith cfg .encrypt s = .next t) : t.engine = responseEngine (.ok (containerOf salt nonce x)) := by
  have hemit : execWith cfg .encrypt s = emitStep s := by rw [execWith, encryptCommand, hp, hph]
  obtain ⟨salt', nonce', _, x', hsalt', hnonce', -, hx', -, rfl⟩ := emitStep_next (hemit ▸ h)
  obtain rfl : salt = salt' := Option.some.inj (hsalt.symm.trans hsalt')
  obtain rfl : nonce = nonce' := Option.some.inj (hnonce.symm.trans hnonce')
  obtain rfl : x = x' := Option.some.inj (hx.symm.trans hx')
  rfl

/-- Settles O13: the step ends in the response that holds the container, which is read at every offset by its three fields. -/
theorem encryptStoresTheFieldsAtTheirOffsets : Obligations.EncryptStoresTheFieldsAtTheirOffsets := by
  unfold Obligations.EncryptStoresTheFieldsAtTheirOffsets
  intro s t salt nonce x hp hph hsalt hnonce hx h a
  rw [exec_eq_execWith] at h
  rw [encrypt_e4_engine hp hph hsalt hnonce hx h, ← containerOf_getElem?]
  exact readByte_responseEngine_ok _ a

end Sys2Proof.Machine
end

section
/-! PROOFS. DERIVE: what it answers for given byte strings (40_kdf.md R101, R105, R106), its whole step on an engine that holds a passphrase and a salt, and
what the three unit operations leave unchanged while the command goes on (R103, 41_aead.md R121, R122). -/

namespace Sys2Proof.Machine

variable {cfg : Config} {s t : State}

/-! ## The key of a passphrase and a salt -/

theorem deriveKey_of_salt_length_ne {p salt : ByteString} (h : salt.length ≠ 16) : deriveKey cfg p salt = .error .invalidSalt :=
  dif_neg h

theorem deriveKey_nil_of_reject (salt : Bytes 16) (hpolicy : cfg.emptyPassphrasePolicy = .reject) :
    deriveKey cfg [] salt.1 = .error .emptyPassphrase := by
  rw [deriveKey, dif_pos salt.2, if_pos ⟨rfl, hpolicy⟩]

theorem deriveKey_of_allowed {p : ByteString} (salt : Bytes 16) (h : p ≠ [] ∨ cfg.emptyPassphrasePolicy = .accept) :
    deriveKey cfg p salt.1 = .ok (cfg.kdf p salt) := by
  have hallowed : ¬ (p.length = 0 ∧ cfg.emptyPassphrasePolicy = .reject) := by
    rintro ⟨hempty, hreject⟩
    obtain hp | haccept := h
    · exact hp (List.length_eq_zero_iff.mp hempty)
    · rw [hreject] at haccept; cases haccept
  rw [deriveKey, dif_pos salt.2, if_neg hallowed]

/-- The default `KDF_ALG` makes its one block with the iteration count of R7 (R181). -/
theorem defaultConfig_kdf (p : ByteString) (salt : Bytes 16) : defaultConfig.kdf p salt = pbkdf2F p salt.1 100000 1 := by
  have hkdf : defaultConfig.kdf = defaultKdf := by rw [defaultConfig]
  rw [hkdf, defaultKdf, kdfIterations]

/-- Settles O20: one clause for each branch of `deriveKey`, in the order of its tests. -/
theorem deriveTestsTheSaltFirst : Obligations.DeriveTestsTheSaltFirst := by
  unfold Obligations.DeriveTestsTheSaltFirst
  intro cfg p salt
  refine ⟨deriveKey_of_salt_length_ne, ?_, fun hlen hallowed => deriveKey_of_allowed ⟨salt, hlen⟩ hallowed⟩
  rintro hlen rfl hpolicy
  exact deriveKey_nil_of_reject ⟨salt, hlen⟩ hpolicy

/-! ## The step of DERIVE -/

theorem withPassphrase_of_holds {p : ByteString} (k : ByteString → Result) (h : s.engine.HoldsPassphrase p) : withPassphrase s k = k p := by
  obtain ⟨hlen, m, hpp, hread⟩ := h
  rw [withPassphrase, hlen, need_some, hpp, need_some, hread, need_some]

section
variable {p : ByteString} {salt : Bytes 16} (hp : s.engine.HoldsPassphrase p) (hsalt : s.engine.salt = some salt)
include hp hsalt

theorem deriveOp_of_ok {key : Bytes 32} (next : Phase) (hk : deriveKey cfg p salt.1 = .ok key) :
    deriveOp cfg next s = .next { s with
      engine := { s.engine with key := some key, kdfWork := some (cfg.kdfWork p salt), phase := next } } := by
  rw [deriveOp, withPassphrase_of_holds _ hp, withSalt, hsalt, need_some, hk]

theorem deriveOp_of_error {k : ErrorKind} (next : Phase) (hk : deriveKey cfg p salt.1 = .error k) : deriveOp cfg next s = raise k s := by
  rw [deriveOp, withPassphrase_of_holds _ hp, withSalt, hsalt, need_some, hk]

end

theorem exec_derive_e2 (hport : s.port = none) (hph : s.engine.phase = .e2) : exec .derive s = deriveOp defaultConfig .e3 s := by
  rw [exec, execDerive, deriveUnit, hport, hph]

theorem exec_derive_d3 (hport : s.port = none) (hph : s.engine.phase = .d3) : exec .derive s = deriveOp defaultConfig .d4 s := by
  rw [exec, execDerive, deriveUnit, hport, hph]

/-- Settles O18: a non-empty passphrase passes the one test that is left with a 16-byte salt, and the default key is `F` at block 1 (R181). -/
theorem deriveWritesTheKey : Obligations.DeriveWritesTheKey := by
  unfold Obligations.DeriveWritesTheKey
  intro s p salt hport hp hsalt hne
  have hk : deriveKey defaultConfig p salt.1 = .ok (pbkdf2F p salt.1 100000 1) := by
    rw [deriveKey_of_allowed salt (.inl hne), defaultConfig_kdf]
  constructor
  · intro hph
    rw [exec_derive_e2 hport hph]
    exact deriveOp_of_ok hp hsalt .e3 hk
  · intro hph
    rw [exec_derive_d3 hport hph]
    exact deriveOp_of_ok hp hsalt .d4 hk

/-- Settles O19: the default policy is `reject`, so in both phases the step is the raise of `EmptyPassphrase`. -/
theorem deriveRejectsTheEmptyPassphrase : Obligations.DeriveRejectsTheEmptyPassphrase := by
  unfold Obligations.DeriveRejectsTheEmptyPassphrase
  intro s salt hport hph hp hsalt
  have hk : deriveKey defaultConfig [] salt.1 = .error .emptyPassphrase := deriveKey_nil_of_reject salt rfl
  have hraise : exec .derive s = raise .emptyPassphrase s := by
    obtain he2 | hd3 := hph
    · rw [exec_derive_e2 hport he2, deriveOp_of_error hp hsalt .e3 hk]
    · rw [exec_derive_d3 hport hd3, deriveOp_of_error hp hsalt .d4 hk]
  exact hraise

/-! ## What the unit operations leave unchanged -/

theorem Engine.SameBuffers.readByte {e e' : Engine} (h : e.SameBuffers e') (sp : Space) (a : Nat) : e'.readByte sp a = e.readByte sp a := by
  cases sp with
  | pp => rw [Engine.readByte, Engine.readByte, h.pp]
  | inp => rw [Engine.readByte, Engine.readByte, h.inp]
  | out => rw [Engine.readByte, Engine.readByte, h.out]

/-- What no unit operation changes while its command goes on: the buffers and their lengths, the salt and the nonce, `CMD`, `STATUS`, the
random source and the count of completions (R103, R121, R122). -/
structure KeepsOperands (s t : State) : Prop where
  buffers : s.engine.SameBuffers t.engine
  salt : t.engine.salt = s.engine.salt
  nonce : t.engine.nonce = s.engine.nonce
  cmd : t.engine.cmd = s.engine.cmd
  status : t.engine.status = s.engine.status
  ppLen : t.engine.ppLen = s.engine.ppLen
  inLen : t.engine.inLen = s.engine.inLen
  outLen : t.engine.outLen = s.engine.outLen
  rng : t.rng = s.rng
  completions : t.completions = s.completions

/-- What DERIVE writes is as it was: the key and the working state of the KDF engine (R103). -/
structure KeepsKdf (s t : State) : Prop where
  key : t.engine.key = s.engine.key
  kdfWork : t.engine.kdfWork = s.engine.kdfWork

/-- What SEAL and OPEN write is as it was: the tag, the staged result and the working state of the AEAD core (R121, R122). -/
structure KeepsAead (s t : State) : Prop where
  tag : t.engine.tag = s.engine.tag
  staged : t.engine.staged = s.engine.staged
  aeadWork : t.engine.aeadWork = s.engine.aeadWork

theorem deriveOp_frame {ph : Phase} (h : deriveOp cfg ph s = .next t) (hgoes : t.engine.phase ≠ .done) : KeepsOperands s t ∧ KeepsAead s t := by
  obtain ⟨_, _, _, _, -, -, -, -, ⟨e, -, rfl⟩ | ⟨key, -, rfl⟩⟩ := deriveOp_next h
  · exact absurd (responseEngine_phase (.error e)) hgoes
  · exact ⟨⟨⟨rfl, rfl, rfl⟩, rfl, rfl, rfl, rfl, rfl, rfl, rfl, rfl, rfl⟩, rfl, rfl, rfl⟩

theorem sealOperation_frame (h : sealOperation cfg s = .next t) : KeepsOperands s t ∧ KeepsKdf s t := by
  obtain ⟨_, _, _, _, _, -, -, -, -, -, rfl⟩ := sealOperation_next h
  exact ⟨⟨⟨rfl, rfl, rfl⟩, rfl, rfl, rfl, rfl, rfl, rfl, rfl, rfl, rfl⟩, rfl, rfl⟩

theorem openOperation_frame (h : openOperation cfg s = .next t) (hgoes : t.engine.phase ≠ .done) : KeepsOperands s t ∧ KeepsKdf s t := by
  obtain ⟨_, _, _, _, _, -, -, -, -, -, -, ⟨-, rfl⟩ | ⟨_, -, rfl⟩⟩ := openOperation_next h
  · exact absurd (responseEngine_phase (.error .decryptionFailed)) hgoes
  · exact ⟨⟨⟨rfl, rfl, rfl⟩, rfl, rfl, rfl, rfl, rfl, rfl, rfl, rfl, rfl⟩, rfl, rfl⟩

/-- The frame of a unit operation: the operands stay, and so does all that the other unit writes. -/
theorem execWith_unitOp_frame {i : Instr} (hi : i.hostIssued = false) (h : execWith cfg i s = .next t) (hgoes : t.engine.phase ≠ .done) :
    KeepsOperands s t ∧ (i ≠ .derive → KeepsKdf s t) ∧ (i = .derive → KeepsAead s t) := by
  cases i with
  | encrypt => cases hi
  | decrypt => cases hi
  | derive =>
    obtain ⟨hops, haead⟩ : KeepsOperands s t ∧ KeepsAead s t := by
      obtain ⟨-, ⟨-, h⟩ | ⟨-, h⟩⟩ := deriveUnit_next h
      · exact deriveOp_frame h hgoes
      · exact deriveOp_frame h hgoes
    exact ⟨hops, fun hne => absurd rfl hne, fun _ => haead⟩
  | sealOp =>
    obtain ⟨-, -, h⟩ := sealUnit_next h
    obtain ⟨hops, hkdf⟩ := sealOperation_frame h
    exact ⟨hops, fun _ => hkdf, nofun⟩
  | openOp =>
    obtain ⟨-, -, h⟩ := openUnit_next h
    obtain ⟨hops, hkdf⟩ := openOperation_frame h hgoes
    exact ⟨hops, fun _ => hkdf, nofun⟩

/-- Settles O24: the frame of the unit operation at the defaults, with the buffers read byte by byte. -/
theorem unitOperationFrame : Obligations.UnitOperationFrame := by
  unfold Obligations.UnitOperationFrame
  intro i s t hi h hgoes
  rw [exec_eq_execWith] at h
  obtain ⟨hops, hkdf, haead⟩ := execWith_unitOp_frame hi h hgoes
  exact ⟨hops.buffers.readByte, hops.salt, hops.nonce, hops.cmd, hops.status, hops.ppLen, hops.inLen, hops.outLen,
    fun hne => ⟨(hkdf hne).key, (hkdf hne).kdfWork⟩, fun he => ⟨(haead he).tag, (haead he).staged, (haead he).aeadWork⟩,
    hops.rng, hops.completions⟩

end Sys2Proof.Machine
end

section
/-! PROOFS. SEAL and OPEN: the whole step on an engine that holds a key, a nonce and an input, at any parameters and then at the defaults (41_aead.md R121,
R122), and the laws of the default AES-256-GCM and UTF-8 that they and the parameters need (44_aead_reference_aes_gcm.md R222 to R225,
R229; 20_memory.md R67). -/

namespace Sys2Proof.Machine

variable {cfg : Config} {s : State} {key : Bytes 32} {nonce : Bytes 12} {c m : ByteString}

/-! ## The steps at any parameters -/

/-- `MemRead` of a slice of the input that an engine holds (R13, R35). -/
theorem withInput_of_holds {off n : Nat} (k : Bytes n → Result) (hin : s.engine.HoldsInput c) (v : Bytes n) (hv : (c.drop off).take n = v.1) :
    withInput s off n k = k v := by
  obtain ⟨-, mem, hinp, hread⟩ := hin
  have hlen : n ≤ c.length - off := by
    have h := v.2
    rw [← hv, List.length_take, List.length_drop] at h
    omega
  have hslice : mem.readBytes off n = some v := Memory.readBytes_eq_some _ _ _ _ fun i hi => by
    have hbyte := Memory.readBytes_spec mem 0 c.length ⟨c, rfl⟩ hread (off + i) (by omega)
    rw [Nat.zero_add] at hbyte
    rw [hbyte, ← hv, List.getElem?_take_of_lt hi, List.getElem?_drop]
  rw [withInput, hinp, need_some, hslice, need_some]

section
variable (hkey : s.engine.key = some key) (hnonce : s.engine.nonce = some nonce)
include hkey hnonce

theorem sealOperation_of_holds (hin : s.engine.HoldsInput m) :
    sealOperation cfg s = .next { s with
      engine := { s.engine with
        tag := some (sealTag (cfg.sealFn key nonce m)), staged := some (cfg.sealFn key nonce m).1,
        aeadWork := some (cfg.sealWork key nonce m), phase := .e4 } } := by
  rw [sealOperation, withKey, hkey, need_some, withNonce, hnonce, need_some, withInLen, hin.1, need_some,
    withInput_of_holds _ hin ⟨m, rfl⟩ (by simp)]

/-- OPEN hands the SealOutput of the container that `IN` holds to the cipher, and goes by its answer (R122, R144). -/
theorem openOperation_of_holds (hin : s.engine.HoldsInput c) (hlen : 44 ≤ c.length) :
    openOperation cfg s =
      match (cfg.openFn key nonce (containerSealOutput c)).map Subtype.val with
      | none => raise .decryptionFailed s
      | some r => .next { s with
          engine := { s.engine with
            tag := some (cfg.openTag key nonce (containerSealOutput c)), staged := some r,
            aeadWork := some (cfg.openWork key nonce (containerSealOutput c)), phase := .d5 } } := by
  have hlong : ¬ (containerSealOutput c).length < 16 := by rw [containerSealOutput, List.length_drop]; omega
  rw [openOperation, withKey, hkey, need_some, withNonce, hnonce, need_some, withInLen, hin.1, need_some,
    withInput_of_holds _ hin ⟨containerSealOutput c, by simp [containerSealOutput]⟩ (by simp [containerSealOutput]), if_neg hlong]
  cases cfg.openFn key nonce (containerSealOutput c) with
  | none => rfl
  | some r => rfl

end

theorem exec_sealOp_e3 (hport : s.port = none) (hph : s.engine.phase = .e3) : exec .sealOp s = sealOperation defaultConfig s := by
  rw [exec, execSeal, sealUnit, hport, hph]

theorem exec_openOp_d4 (hport : s.port = none) (hph : s.engine.phase = .d4) : exec .openOp s = openOperation defaultConfig s := by
  rw [exec, execOpen, openUnit, hport, hph]

/-! ## The default cipher -/

/-- The tag of a default SealOutput is the part after the ciphertext (R121, R224). -/
theorem sealTag_gcmSeal (key : Bytes 32) (nonce : Bytes 12) (m : ByteString) :
    sealTag (gcmSeal key nonce m) = gcmTag key nonce (gcmCrypt key nonce m) :=
  Subtype.ext (List.drop_left' (gcmCrypt_length key nonce m))

/-- The default `Open` as one test: the plaintext on the right tag, else nothing (R225). -/
theorem gcmOpen_map_val (key : Bytes 32) (nonce : Bytes 12) (x : ByteString) :
    (gcmOpen key nonce x).map Subtype.val =
      if (gcmOpenTag key nonce x).1 = x.drop (x.length - 16) then some (gcmCrypt key nonce (x.take (x.length - 16))) else none := by
  rw [gcmOpen, apply_ite (Option.map Subtype.val)]
  rfl

/-- The two cuts of R82 agree: the SealOutput less its last 16 bytes is the ciphertext. -/
theorem containerSealOutput_ciphertext (c : ByteString) :
    (containerSealOutput c).take ((containerSealOutput c).length - 16) = containerCiphertext c := by
  rw [containerSealOutput, containerCiphertext, slice, List.length_drop, Nat.sub_right_comm]

theorem containerSealOutput_tag (hlen : 44 ≤ c.length) :
    (containerSealOutput c).drop ((containerSealOutput c).length - 16) = containerTag c := by
  rw [containerSealOutput, containerTag, List.drop_drop, List.length_drop]
  congr 1
  omega

/-- The tag that the default `Open` of a container's SealOutput recomputes (R122, R225). -/
theorem gcmOpenTag_container (key : Bytes 32) (nonce : Bytes 12) (c : ByteString) :
    gcmOpenTag key nonce (containerSealOutput c) = gcmTag key nonce (containerCiphertext c) := by
  rw [gcmOpenTag, containerSealOutput_ciphertext]

theorem gcmOpen_container (key : Bytes 32) (nonce : Bytes 12) (hlen : 44 ≤ c.length) :
    (gcmOpen key nonce (containerSealOutput c)).map Subtype.val =
      if (gcmTag key nonce (containerCiphertext c)).1 = containerTag c then some (gcmCrypt key nonce (containerCiphertext c)) else none := by
  rw [gcmOpen_map_val, gcmOpenTag_container, containerSealOutput_tag hlen, containerSealOutput_ciphertext]

/-! ## The steps at the defaults -/

/-- Settles O21: the step stages the default SealOutput, whose last 16 bytes are the tag. -/
theorem sealWritesTheTagAndStagesTheOutput : Obligations.SealWritesTheTagAndStagesTheOutput := by
  unfold Obligations.SealWritesTheTagAndStagesTheOutput
  intro s key nonce m hport hph hkey hnonce hin
  have htag : sealTag (defaultConfig.sealFn key nonce m) = gcmTag key nonce (gcmCrypt key nonce m) := sealTag_gcmSeal key nonce m
  rw [exec_sealOp_e3 hport hph, sealOperation_of_holds hkey hnonce hin, htag]
  rfl

/-- Settles O22: on the right tag the default `Open` gives the counter-mode plaintext. -/
theorem openStagesTheVerifiedPlaintext : Obligations.OpenStagesTheVerifiedPlaintext := by
  unfold Obligations.OpenStagesTheVerifiedPlaintext
  intro s key nonce c hport hph hlen hkey hnonce hin htag
  have hopen : (defaultConfig.openFn key nonce (containerSealOutput c)).map Subtype.val = some (gcmCrypt key nonce (containerCiphertext c)) :=
    (gcmOpen_container key nonce hlen).trans (if_pos htag)
  rw [exec_openOp_d4 hport hph, openOperation_of_holds hkey hnonce hin hlen, hopen, ← gcmOpenTag_container]
  rfl

/-- Settles O23: on another tag the default `Open` gives nothing, and the step is the raise of `DecryptionFailed`. -/
theorem openFailsOnAnotherTag : Obligations.OpenFailsOnAnotherTag := by
  unfold Obligations.OpenFailsOnAnotherTag
  intro s key nonce c hport hph hlen hkey hnonce hin htag
  have hopen : (defaultConfig.openFn key nonce (containerSealOutput c)).map Subtype.val = none :=
    (gcmOpen_container key nonce hlen).trans (if_neg htag)
  rw [exec_openOp_d4 hport hph, openOperation_of_holds hkey hnonce hin hlen, hopen]
  rfl

/-! ## Counter mode undoes itself -/

theorem zipWith_xor_zipWith_xor (x ks : ByteString) (h : x.length ≤ ks.length) :
    List.zipWith (· ^^^ ·) (List.zipWith (· ^^^ ·) x ks) ks = x := by
  induction x generalizing ks with
  | nil => rfl
  | cons b x ih =>
    cases ks with
    | nil => simp at h
    | cons k ks => rw [List.zipWith_cons_cons, List.zipWith_cons_cons, ih ks (by simpa using h), BitVec.xor_assoc, BitVec.xor_self, BitVec.xor_zero]

/-- Two strings of the lengths that cutting `x` at `n` gives are what cutting their concatenation at `n` gives. -/
theorem take_drop_append (x : ByteString) (n : Nat) {p r : ByteString} (hp : p.length = (x.take n).length) (hr : r.length = (x.drop n).length) :
    (p ++ r).take n = p ∧ (p ++ r).drop n = r := by
  rw [List.length_take] at hp
  rw [List.length_drop] at hr
  obtain hfull | hshort := Nat.le_total n x.length
  · have hpn : p.length = n := by omega
    exact ⟨List.take_left' hpn, List.drop_left' hpn⟩
  · obtain rfl : r = [] := List.length_eq_zero_iff.mp (by omega)
    rw [List.append_nil]
    exact ⟨List.take_of_length_le (by omega), List.drop_of_length_le (by omega)⟩

theorem gctrFrom_nil (w : List Word32) (n : Nat) (cb : Block) : gctrFrom w n cb [] = [] :=
  List.length_eq_zero_iff.mp (gctrFrom_length w n cb [] (Nat.zero_le _))

/-- The same key stream twice leaves the string, as the output falls into pieces where the input did (R222). -/
theorem gctrFrom_gctrFrom (w : List Word32) (n : Nat) (cb : Block) (x : ByteString) (h : x.length ≤ 16 * n) :
    gctrFrom w n cb (gctrFrom w n cb x) = x := by
  induction n generalizing cb x with
  | zero => rw [List.length_eq_zero_iff.mp (by omega : x.length = 0), gctrFrom_nil, gctrFrom_nil]
  | succ n ih =>
    have hdropLen : (x.drop 16).length ≤ 16 * n := by rw [List.length_drop]; omega
    have hks : (x.take 16).length ≤ (blockBytes (aesWith w cb)).1.length := by
      rw [(blockBytes _).2]
      exact List.length_take_le 16 x
    obtain ⟨htake, hdrop⟩ : (gctrFrom w (n + 1) cb x).take 16 = _ ∧ (gctrFrom w (n + 1) cb x).drop 16 = _ :=
      take_drop_append x 16 (by rw [List.length_zipWith, Nat.min_eq_left hks]) (gctrFrom_length w n (inc32 cb) (x.drop 16) hdropLen)
    rw [gctrFrom, htake, hdrop, zipWith_xor_zipWith_xor _ _ hks, ih _ _ hdropLen, List.take_append_drop]

theorem gctr_gctr (w : List Word32) (icb : Block) (x : ByteString) : gctr w icb (gctr w icb x) = x := by
  have hblocks : nBlocks (gctr w icb x) = nBlocks x := by rw [nBlocks, gctr_length, nBlocks]
  rw [gctr, hblocks, gctr, gctrFrom_gctrFrom w _ icb x (by rw [nBlocks]; omega)]

/-! ## UTF-8 -/

/-- The model's bytes of a character are those of Lean's own strings. -/
theorem map_ofBitVec_utf8Scalar (c : Char) : (utf8Scalar c.toNat).map UInt8.ofBitVec = String.utf8EncodeChar c := by
  have hlt : c.toNat < 0x110000 := by
    obtain h | ⟨-, h⟩ := c.valid
    · exact h.trans (by decide)
    · exact h
  have hval : c.val.toNat = c.toNat := rfl
  simp only [String.utf8EncodeChar, utf8Scalar, hval]
  generalize c.toNat = u at hlt
  obtain h1 | h1 := Nat.lt_or_ge u 0x80
  · rw [if_pos h1, if_pos (show u ≤ 127 by omega)]
    rfl
  rw [if_neg (Nat.not_lt.mpr h1), if_neg (show ¬ u ≤ 127 by omega)]
  obtain h2 | h2 := Nat.lt_or_ge u 0x800
  · rw [if_pos h2, if_pos (show u ≤ 2047 by omega), show u / 64 % 32 + 192 = 0xc0 + u / 64 by omega, Nat.add_comm _ 128]
    rfl
  rw [if_neg (Nat.not_lt.mpr h2), if_neg (show ¬ u ≤ 2047 by omega)]
  obtain h3 | h3 := Nat.lt_or_ge u 0x10000
  · rw [if_pos h3, if_pos (show u ≤ 65535 by omega), show u / 4096 % 16 + 224 = 0xe0 + u / 4096 by omega, Nat.add_comm _ 128, Nat.add_comm _ 128]
    rfl
  · rw [if_neg (Nat.not_lt.mpr h3), if_neg (show ¬ u ≤ 65535 by omega), show u / 262144 % 8 + 240 = 0xf0 + u / 262144 by omega,
      Nat.add_comm _ 128, Nat.add_comm _ 128, Nat.add_comm _ 128]
    rfl

/-- UTF-8 is injective, as the contents of Lean's own strings determine them (R67). -/
theorem utf8_injective {l l' : List Char} (h : utf8 l = utf8 l') : l = l' := by
  have hcore : ∀ l : List Char, (utf8 l).map UInt8.ofBitVec = l.flatMap String.utf8EncodeChar := fun l => by
    rw [utf8, List.map_flatMap]
    simp only [map_ofBitVec_utf8Scalar]
  have hbytes : l.utf8Encode = l'.utf8Encode := by
    rw [List.utf8Encode, List.utf8Encode, ← hcore, ← hcore, h]
  exact String.ofList_injective (String.toByteArray_inj.mp hbytes)

/-! ## The laws of the defaults -/

theorem gcmCrypt_gcmCrypt (key : Bytes 32) (nonce : Bytes 12) (x : ByteString) : gcmCrypt key nonce (gcmCrypt key nonce x) = x :=
  gctr_gctr _ _ x

/-- `Open` recomputes over the sealed ciphertext the tag that `Seal` put after it, and counter mode undoes itself (R123, R229). -/
theorem gcmOpen_gcmSeal (key : Bytes 32) (nonce : Bytes 12) (m : ByteString) :
    (gcmOpen key nonce (gcmSeal key nonce m).1).map Subtype.val = some m := by
  have hcut : (gcmSeal key nonce m).1.length - 16 = (gcmCrypt key nonce m).length := by
    rw [(gcmSeal key nonce m).2, gcmCrypt_length, Nat.add_sub_cancel]
  have hct : (gcmSeal key nonce m).1.take (gcmCrypt key nonce m).length = gcmCrypt key nonce m := List.take_left
  have htag : (gcmSeal key nonce m).1.drop (gcmCrypt key nonce m).length = (gcmTag key nonce (gcmCrypt key nonce m)).1 := List.drop_left
  rw [gcmOpen_map_val, gcmOpenTag, hcut, hct, htag, if_pos rfl, gcmCrypt_gcmCrypt]

/-- The default `Open` succeeds exactly when the recomputed tag is the last 16 bytes (R225). -/
theorem gcmOpen_isSome_iff (key : Bytes 32) (nonce : Bytes 12) (x : ByteString) :
    (gcmOpen key nonce x).isSome = true ↔ (gcmOpenTag key nonce x).1 = x.drop (x.length - 16) := by
  rw [← Option.isSome_map (f := Subtype.val), gcmOpen_map_val, Option.isSome_ite]

/-- Settles O51, law by law. -/
theorem defaultParametersAreLawful : Obligations.DefaultParametersAreLawful where
  open_seal := gcmOpen_gcmSeal
  open_iff_tag key nonce x _ := gcmOpen_isSome_iff key nonce x
  encoding_injective _ _ := utf8_injective
  one_engine := le_rfl

end Sys2Proof.Machine
end

section
/-! PROOFS. The container codec (42_codec.md): the two functions of 00_scope.md R17 and the container between them (R147 to R149), the steps of ENCRYPT and
DECRYPT that are the codec's own and what they leave unchanged (R141, R142, R155), and the round trip on the machine. -/

namespace Sys2Proof.Machine

variable {cfg : Config} {s t : State} {salt : Bytes 16} {nonce : Bytes 12} {key : Bytes 32} {p m c : ByteString}

/-! ## The two functions -/

/-- When `Encrypt` completes, both draws were answered, a key was derived, and the container is made of the draws and the SealOutput (R141). -/
theorem refEncrypt_ok {saltDraw : Option (Bytes 16)} {nonceDraw : Option (Bytes 12)} (h : refEncrypt cfg saltDraw nonceDraw m p = .ok c) :
    ∃ salt nonce key, saltDraw = some salt ∧ nonceDraw = some nonce ∧ deriveKey cfg p salt.1 = .ok key ∧
      c = containerOf salt nonce (cfg.sealFn key nonce m).1 := by
  unfold refEncrypt at h
  split at h
  · next salt nonce =>
    split at h
    · next key hk =>
      cases h
      exact ⟨salt, nonce, key, rfl, rfl, hk, rfl⟩
    · cases h
  · cases h

theorem refEncrypt_of_deriveKey (nonce : Bytes 12) (m : ByteString) (hk : deriveKey cfg p salt.1 = .ok key) :
    refEncrypt cfg (some salt) (some nonce) m p = .ok (containerOf salt nonce (cfg.sealFn key nonce m).1) := by
  rw [refEncrypt, hk]

/-- The three fields take 16, 12 and 16 bytes more than the plaintext (R80, R124). -/
theorem containerOf_sealFn_length (cfg : Config) (salt : Bytes 16) (nonce : Bytes 12) (key : Bytes 32) (m : ByteString) :
    (containerOf salt nonce (cfg.sealFn key nonce m).1).length = m.length + 44 := by
  rw [containerOf_length, (cfg.sealFn key nonce m).2]

/-- `Decrypt` finds in the container the salt, and so the key, and the nonce that it was sealed with (R142, R82). -/
theorem refDecrypt_containerOf (hlaw : cfg.RoundTripLaw) (nonce : Bytes 12) (m : ByteString) (hk : deriveKey cfg p salt.1 = .ok key) :
    refDecrypt cfg (containerOf salt nonce (cfg.sealFn key nonce m).1) p = .ok m := by
  have hlen : 44 ≤ (containerOf salt nonce (cfg.sealFn key nonce m).1).length := by
    rw [containerOf_sealFn_length]
    exact Nat.le_add_left 44 _
  have hopen := hlaw key nonce m
  rw [refDecrypt, dif_pos hlen, containerSalt_containerOf, hk]
  dsimp only
  rw [containerNonce_containerOf, containerSealOutput_containerOf, hopen]

/-- The salt and the nonce can be read off a container (R80). -/
theorem containerOf_inj {salt' : Bytes 16} {nonce' : Bytes 12} {x x' : ByteString} (h : containerOf salt nonce x = containerOf salt' nonce' x') :
    salt = salt' ∧ nonce = nonce' := by
  have hnonces : nonce.1.length = nonce'.1.length := nonce.2.trans nonce'.2.symm
  have hsalts : salt.1.length = salt'.1.length := salt.2.trans salt'.2.symm
  have hheaders : salt.1 ++ nonce.1 = salt'.1 ++ nonce'.1 :=
    List.append_inj_left h (by rw [List.length_append, List.length_append, hsalts, hnonces])
  obtain ⟨hsalt, hnonce⟩ := List.append_inj hheaders hsalts
  exact ⟨Subtype.ext hsalt, Subtype.ext hnonce⟩

/-- Settles O48: the container that `Encrypt` makes is one that `Decrypt` opens. -/
theorem decryptUndoesEncrypt : Obligations.DecryptUndoesEncrypt := by
  unfold Obligations.DecryptUndoesEncrypt
  intro cfg hlaw salt nonce m p c h
  obtain ⟨_, _, key, ⟨⟩, ⟨⟩, hk, rfl⟩ := refEncrypt_ok h
  exact refDecrypt_containerOf hlaw nonce m hk

/-- Settles O49: whatever `Encrypt` completes with is a container of a salt, a nonce and a SealOutput. -/
theorem containerLength : Obligations.ContainerLength := by
  unfold Obligations.ContainerLength
  intro cfg saltDraw nonceDraw m p c h
  obtain ⟨salt, nonce, key, -, -, -, rfl⟩ := refEncrypt_ok h
  exact containerOf_sealFn_length cfg salt nonce key m

/-- Settles O50: equal containers have equal headers, and on equal draws `Encrypt` is one function of the message and the passphrase. -/
theorem containersDifferExactlyWhenTheDrawsDo : Obligations.ContainersDifferExactlyWhenTheDrawsDo := by
  unfold Obligations.ContainersDifferExactlyWhenTheDrawsDo
  intro cfg salt salt' nonce nonce' m p c c' h h'
  have heq : c = c' ↔ salt = salt' ∧ nonce = nonce' := by
    constructor
    · intro hc
      obtain ⟨_, _, key, ⟨⟩, ⟨⟩, -, rfl⟩ := refEncrypt_ok h
      obtain ⟨_, _, key', ⟨⟩, ⟨⟩, -, rfl⟩ := refEncrypt_ok h'
      exact containerOf_inj hc
    · rintro ⟨rfl, rfl⟩
      exact Except.ok.inj (h.symm.trans h')
  rw [ne_eq, heq, not_and_or]

/-! ## The step that an operation makes in its phase -/

/-- With nothing presented, an operation in one of its own phases is the step of that phase (R31). -/
theorem exec_eq_phaseStep {i : Instr} (hport : s.port = none) (hph : s.engine.phase ∈ runPhases i) : exec i s = phaseStep defaultConfig s := by
  rw [exec_eq_execWith, execWith_unpresented hport, if_pos hph]

/-- Two operations that both have a step in a phase have the same step there (R154). -/
theorem exec_eq_exec {i j : Instr} (hport : s.port = none) {ph : Phase} (hph : s.engine.phase = ph) (hi : ph ∈ runPhases i)
    (hj : ph ∈ runPhases j) : exec i s = exec j s := by
  subst hph
  rw [exec_eq_phaseStep hport hi, exec_eq_phaseStep hport hj]

/-- Settles O17: each of the four phases is one of the command and one of the unit operation. -/
theorem commandsInvokeTheUnitOperations : Obligations.CommandsInvokeTheUnitOperations := by
  unfold Obligations.CommandsInvokeTheUnitOperations
  intro s hport
  exact ⟨fun h => exec_eq_exec hport h (by decide) (by decide), fun h => exec_eq_exec hport h (by decide) (by decide),
    fun h => exec_eq_exec hport h (by decide) (by decide), fun h => exec_eq_exec hport h (by decide) (by decide)⟩

theorem exec_encrypt_e1 (hport : s.port = none) (hph : s.engine.phase = .e1) : exec .encrypt s = drawStep s := by
  rw [exec_eq_phaseStep hport (by rw [hph]; decide), phaseStep, hph]

theorem exec_encrypt_e4 (hport : s.port = none) (hph : s.engine.phase = .e4) : exec .encrypt s = emitStep s := by
  rw [exec_eq_phaseStep hport (by rw [hph]; decide), phaseStep, hph]

theorem exec_decrypt_d1 (hport : s.port = none) (hph : s.engine.phase = .d1) : exec .decrypt s = lengthStep s := by
  rw [exec_eq_phaseStep hport (by rw [hph]; decide), phaseStep, hph]

theorem exec_decrypt_d2 (hport : s.port = none) (hph : s.engine.phase = .d2) : exec .decrypt s = sliceStep s := by
  rw [exec_eq_phaseStep hport (by rw [hph]; decide), phaseStep, hph]

theorem exec_decrypt_d5 (hport : s.port = none) (hph : s.engine.phase = .d5) : exec .decrypt s = releaseStep s := by
  rw [exec_eq_phaseStep hport (by rw [hph]; decide), phaseStep, hph]

/-! ## The codec's own steps -/

theorem memWrite_of_length {mem : Memory} {off n : Nat} {v : ByteString} (k : Memory → Result) (h : v.length = n) :
    memWrite mem off n v k = k (mem.writeBytes off v) := if_pos h

/-- `complete OK` of an engine whose `OUT` and `OUT_LEN` hold a string leaves the response with it (R266). -/
theorem completeOk_of_out {b : ByteString} (hout : s.engine.out = some (Memory.ofBytes b)) (hlen : s.engine.outLen = some b.length) :
    completeOk s = .next { s with engine := responseEngine (.ok b), completions := s.completions + 1 } := by
  rw [completeOk, Engine.completed_eq s.engine b hout hlen]

theorem emitStep_of_holds {x : ByteString} {n : Nat} (hsalt : s.engine.salt = some salt) (hnonce : s.engine.nonce = some nonce)
    (hin : s.engine.inLen = some n) (hx : s.engine.staged = some x) (hlen : x.length = n + 16) :
    emitStep s = .next { s with engine := responseEngine (.ok (containerOf salt nonce x)), completions := s.completions + 1 } := by
  have htotal : (containerOf salt nonce x).length = n + 44 := by rw [containerOf_length, hlen]
  rw [emitStep, withSalt, hsalt, need_some, withNonce, hnonce, need_some, withInLen, hin, need_some, withStaged, hx, need_some,
    memWrite_of_length _ salt.2, memWrite_of_length _ nonce.2, memWrite_of_length _ hlen, emitted_eq]
  exact completeOk_of_out rfl (congrArg some htotal.symm)

theorem releaseStep_of_holds {r : ByteString} {n : Nat} (hin : s.engine.inLen = some n) (hr : s.engine.staged = some r) (hlen : r.length = n - 44) :
    releaseStep s = .next { s with engine := responseEngine (.ok r), completions := s.completions + 1 } := by
  rw [releaseStep, withInLen, hin, need_some, withStaged, hr, need_some, memWrite_of_length _ hlen, Memory.writeBytes_nil]
  exact completeOk_of_out rfl (congrArg some hlen.symm)

theorem lengthStep_of_inLen {n : Nat} (hin : s.engine.inLen = some n) :
    lengthStep s = if n < 44 then raise .tooShort s else .next { s with engine := { s.engine with phase := .d2 } } := by
  rw [lengthStep, withInLen, hin, need_some]

theorem sliceStep_of_holds (hlen : 44 ≤ c.length) (hin : s.engine.HoldsInput c) :
    sliceStep s = .next { s with
      engine := { s.engine with salt := some (containerSalt c hlen), nonce := some (containerNonce c hlen), phase := .d3 } } := by
  rw [sliceStep, withInLen, hin.1, need_some, withInput_of_holds _ hin (containerSalt c hlen) rfl,
    withInput_of_holds _ hin (containerNonce c hlen) rfl,
    withInput_of_holds _ hin ⟨containerSealOutput c, by simp [containerSealOutput]⟩ (by simp [containerSealOutput])]

/-- Settles O10: ENCRYPT in `E1` is the draws, and both are answered. -/
theorem encryptDrawsSaltThenNonce : Obligations.EncryptDrawsSaltThenNonce := by
  unfold Obligations.EncryptDrawsSaltThenNonce
  intro s salt nonce after hport hph hdraws
  rw [exec_encrypt_e1 hport hph, drawStep_of_drawsBoth hdraws]

/-- Settles O11: ENCRYPT in `E1` is the draws, and one of them fails. -/
theorem encryptFailedDrawEndsTheCommand : Obligations.EncryptFailedDrawEndsTheCommand := by
  unfold Obligations.EncryptFailedDrawEndsTheCommand
  intro s after hport hph hfails
  rw [exec_encrypt_e1 hport hph, drawStep_of_drawFails hfails]
  rfl

/-- Settles O12: ENCRYPT in `E4` ends in the response with the container, which is 44 bytes longer than the plaintext. -/
theorem encryptCompletesWithTheContainer : Obligations.EncryptCompletesWithTheContainer := by
  unfold Obligations.EncryptCompletesWithTheContainer
  intro s salt nonce x n hport hph hsalt hnonce hin hx hlen
  have htotal : n + 44 = (containerOf salt nonce x).length := by rw [containerOf_length, hlen]
  rw [exec_encrypt_e4 hport hph, emitStep_of_holds hsalt hnonce hin hx hlen, htotal]
  rfl

/-- Settles O14: DECRYPT in `D1` tests `IN_LEN` and reads nothing else. -/
theorem decryptChecksTheLengthFirst : Obligations.DecryptChecksTheLengthFirst := by
  unfold Obligations.DecryptChecksTheLengthFirst
  intro s n hport hph hin
  rw [exec_decrypt_d1 hport hph, lengthStep_of_inLen hin]
  exact ⟨fun hshort => if_pos hshort, fun hlong => if_neg (Nat.not_lt.mpr hlong)⟩

/-- Settles O15: DECRYPT in `D2` takes the two slices of R82 from the container that `IN` holds. -/
theorem decryptSlicesTheContainer : Obligations.DecryptSlicesTheContainer := by
  unfold Obligations.DecryptSlicesTheContainer
  intro s c hlen hport hph hin
  rw [exec_decrypt_d2 hport hph, sliceStep_of_holds hlen hin]
  rfl

/-- Settles O16: DECRYPT in `D5` ends in the response with the staged plaintext. -/
theorem decryptCompletesWithThePlaintext : Obligations.DecryptCompletesWithThePlaintext := by
  unfold Obligations.DecryptCompletesWithThePlaintext
  intro s r n hport hph hin hr hlen
  rw [exec_decrypt_d5 hport hph, releaseStep_of_holds hin hr hlen, ← hlen]
  rfl

/-! ## What the codec's own steps leave unchanged -/

/-- What a step of the codec itself keeps while its command goes on: all but `PHASE`, the salt and the nonce in the two phases that write them, and the
random source in `E1` (R141, R142, R155). -/
structure CodecFrame (s t : State) : Prop where
  buffers : s.engine.SameBuffers t.engine
  key : t.engine.key = s.engine.key
  cmd : t.engine.cmd = s.engine.cmd
  status : t.engine.status = s.engine.status
  ppLen : t.engine.ppLen = s.engine.ppLen
  inLen : t.engine.inLen = s.engine.inLen
  outLen : t.engine.outLen = s.engine.outLen
  kdfWork : t.engine.kdfWork = s.engine.kdfWork
  aead : KeepsAead s t
  draws : s.engine.phase ≠ .e1 → s.engine.phase ≠ .d2 → t.engine.salt = s.engine.salt ∧ t.engine.nonce = s.engine.nonce
  rng : s.engine.phase ≠ .e1 → t.rng = s.rng
  completions : t.completions = s.completions

theorem CodecFrame.refl (s : State) : CodecFrame s s :=
  ⟨.refl _, rfl, rfl, rfl, rfl, rfl, rfl, rfl, ⟨rfl, rfl, rfl⟩, fun _ _ => ⟨rfl, rfl⟩, fun _ => rfl, rfl⟩

theorem drawStep_frame (hph : s.engine.phase = .e1) (h : drawStep s = .next t) (hgoes : t.engine.phase ≠ .done) : CodecFrame s t := by
  obtain rfl | ⟨_, rfl, -⟩ | ⟨_, _, _, _, -, -, rfl⟩ := drawStep_next h
  · exact .refl _
  · exact absurd (responseEngine_phase _) hgoes
  · exact ⟨⟨rfl, rfl, rfl⟩, rfl, rfl, rfl, rfl, rfl, rfl, rfl, ⟨rfl, rfl, rfl⟩, fun he1 => absurd hph he1, fun he1 => absurd hph he1, rfl⟩

theorem lengthStep_frame (h : lengthStep s = .next t) (hgoes : t.engine.phase ≠ .done) : CodecFrame s t := by
  obtain ⟨_, -, ⟨-, rfl⟩ | ⟨-, rfl⟩⟩ := lengthStep_next h
  · exact absurd (responseEngine_phase _) hgoes
  · exact ⟨⟨rfl, rfl, rfl⟩, rfl, rfl, rfl, rfl, rfl, rfl, rfl, ⟨rfl, rfl, rfl⟩, fun _ _ => ⟨rfl, rfl⟩, fun _ => rfl, rfl⟩

theorem sliceStep_frame (hph : s.engine.phase = .d2) (h : sliceStep s = .next t) : CodecFrame s t := by
  obtain ⟨_, _, _, _, _, -, -, -, -, -, rfl⟩ := sliceStep_next h
  exact ⟨⟨rfl, rfl, rfl⟩, rfl, rfl, rfl, rfl, rfl, rfl, rfl, ⟨rfl, rfl, rfl⟩, fun _ hd2 => absurd hph hd2, fun _ => rfl, rfl⟩

/-- `E4` and `D5` always end their command, so the frame is that of the draws, the length check and the slices. -/
theorem phaseStep_codec_frame (hph : s.engine.phase ∈ [Phase.e1, .e4, .d1, .d2, .d5]) (h : phaseStep cfg s = .next t)
    (hgoes : t.engine.phase ≠ .done) : CodecFrame s t := by
  unfold phaseStep at h
  simp only [List.mem_cons, List.not_mem_nil, or_false] at hph
  obtain he1 | he4 | hd1 | hd2 | hd5 := hph
  · rw [he1] at h
    exact drawStep_frame he1 h hgoes
  · rw [he4] at h
    obtain ⟨_, _, _, _, -, -, -, -, -, rfl⟩ := emitStep_next h
    exact absurd (responseEngine_phase _) hgoes
  · rw [hd1] at h
    exact lengthStep_frame h hgoes
  · rw [hd2] at h
    exact sliceStep_frame hd2 h
  · rw [hd5] at h
    obtain ⟨_, _, -, -, -, rfl⟩ := releaseStep_next h
    exact absurd (responseEngine_phase _) hgoes

/-- Settles O25: with nothing presented the command makes the step of its phase, whose frame is read byte by byte. -/
theorem commandStepFrame : Obligations.CommandStepFrame := by
  unfold Obligations.CommandStepFrame
  intro i s t _ hport hph h hgoes
  rw [exec_eq_execWith] at h
  obtain ⟨_, hsome, -⟩ | ⟨-, h⟩ := execWith_next h
  · rw [hport] at hsome
    cases hsome
  · have hf := phaseStep_codec_frame hph h hgoes
    exact ⟨hf.buffers.readByte, hf.key, hf.aead.tag, hf.cmd, hf.status, hf.ppLen, hf.inLen, hf.outLen, hf.aead.staged, hf.kdfWork,
      hf.aead.aeadWork, hf.draws, hf.rng, hf.completions⟩

/-! ## The round trip on the machine -/

/-- A host that waits for an ENCRYPT it has presented finds the response after five steps, and has the rest of its plan before it. -/
theorem runSteps_encrypt {acts : List HostAction} {after : RngSource} {r : Except ErrorKind ByteString} (he : s.engine = Engine.reset)
    (hp : s.port = some (commandOf .encrypt p m)) (ha : Accepted cfg .encrypt p m) (hr : EncryptOutcome cfg p m s.rng after r)
    (hs : s.script = List.replicate 4 .run ++ acts) :
    runSteps (stepWith cfg) 5 s = .next { s with
      port := none, script := acts, rng := after, engine := responseEngine r, completions := s.completions + 1 } := by
  obtain ⟨e, d, d', hdraw, hquiet, hd, -, -⟩ := encrypt_steps ha hr
  have hw : HostWaits 4 acts { s with engine := loadedEngine .encrypt p m .e1, port := none } := ⟨rfl, .inl hs⟩
  obtain ⟨_, hstep, hw'⟩ := stepWith_of_hostWaits hw hdraw
  rw [runSteps_succ _ _ _ (stepWith_issueEncrypt he hp ha), runSteps_succ _ _ _ hstep, runSteps_of_quietRun hquiet hw' rfl]
  simp only [Nat.add_assoc, hd]

/-- The same for a DECRYPT, after six steps. -/
theorem runSteps_decrypt {acts : List HostAction} (he : s.engine = Engine.reset) (hp : s.port = some (commandOf .decrypt p c))
    (ha : Accepted cfg .decrypt p c) (hs : s.script = List.replicate 5 .run ++ acts) :
    runSteps (stepWith cfg) 6 s = .next { s with
      port := none, script := acts, engine := responseEngine (refDecrypt cfg c p), completions := s.completions + 1 } := by
  have hw : HostWaits 5 acts { s with engine := loadedEngine .decrypt p c .d1, port := none } := ⟨rfl, .inl hs⟩
  rw [runSteps_succ _ _ _ (stepWith_issueDecrypt he hp ha), runSteps_of_quietRun (quietRun_decrypt p c) hw rfl]

theorem stepWith_present {cmd : Command} {acts : List HostAction} (hp : s.port = none) (hs : s.script = .present cmd :: acts) :
    stepWith cfg s = .next { s with script := acts, port := some cmd } := stepWith_host hp hs

theorem stepWith_collect {r : Except ErrorKind ByteString} {acts : List HostAction} (hp : s.port = none) (hs : s.script = .collect :: acts)
    (he : s.engine = responseEngine r) :
    stepWith cfg s = .next { s with script := acts, engine := Engine.reset, responses := s.responses ++ [responseOf r] } := by
  rw [stepWith_host hp hs]
  exact collect_response r he

theorem runSteps_trans {f : State → Result} {n k : Nat} (h : runSteps f n s = .next t) : runSteps f (n + k) s = runSteps f k t := by
  rw [runSteps_add, h]

/-- The host presents a command to an idle engine, waits the `n` steps in which it comes to its response, and collects: it holds the response, and the
engine is idle again (R268). -/
theorem runSteps_present_collect {cmd : Command} {plan acts : List HostAction} {n k : Nat} {src : RngSource} {r : Except ErrorKind ByteString}
    (he : s.engine = Engine.reset) (hp : s.port = none) (hs : s.script = .present cmd :: plan)
    (hrun : runSteps (stepWith cfg) n { s with script := plan, port := some cmd } =
      .next { s with port := none, script := .collect :: acts, rng := src, engine := responseEngine r, completions := k }) :
    runSteps (stepWith cfg) (n + 2) s =
      .next { s with script := acts, rng := src, completions := k, responses := s.responses ++ [responseOf r] } := by
  rw [runSteps_succ _ (n + 1) _ (stepWith_present hp hs), runSteps_trans hrun, runSteps_succ _ 0 _ (stepWith_collect rfl rfl rfl), he, hp]
  rfl

/-- Seven steps of a host that presents an ENCRYPT, waits for it and collects. -/
theorem runSteps_encrypt_collect {acts : List HostAction} {after : RngSource} {r : Except ErrorKind ByteString} (he : s.engine = Engine.reset)
    (hp : s.port = none) (ha : Accepted cfg .encrypt p m) (hr : EncryptOutcome cfg p m s.rng after r)
    (hs : s.script = .present (commandOf .encrypt p m) :: (List.replicate 4 .run ++ .collect :: acts)) :
    runSteps (stepWith cfg) 7 s = .next { s with
      script := acts, rng := after, completions := s.completions + 1, responses := s.responses ++ [responseOf r] } :=
  runSteps_present_collect he hp hs (runSteps_encrypt he rfl ha hr rfl)

/-- Eight steps of a host that presents a DECRYPT, waits for it and collects. -/
theorem runSteps_decrypt_collect {acts : List HostAction} (he : s.engine = Engine.reset) (hp : s.port = none) (ha : Accepted cfg .decrypt p c)
    (hs : s.script = .present (commandOf .decrypt p c) :: (List.replicate 5 .run ++ .collect :: acts)) :
    runSteps (stepWith cfg) 8 s = .next { s with
      script := acts, completions := s.completions + 1, responses := s.responses ++ [responseOf (refDecrypt cfg c p)] } :=
  runSteps_present_collect he hp hs (runSteps_decrypt he rfl ha rfl)

/-- What ENCRYPT makes of an accepted message, DECRYPT accepts: its bound on the input is 44 larger (R85). -/
theorem Accepted.container (ha : Accepted cfg .encrypt p m) (salt : Bytes 16) (nonce : Bytes 12) (key : Bytes 32) :
    Accepted cfg .decrypt p (containerOf salt nonce (cfg.sealFn key nonce m).1) := by
  obtain ⟨hpp, hm⟩ := ha
  rw [Accepted, containerOf_sealFn_length]
  exact ⟨hpp, Nat.add_le_add_right hm 44⟩

/-- Settles O42: seven steps bring the host the container that `Encrypt` makes, and eight more what `Decrypt` makes of it. -/
theorem encryptThenDecryptRoundTrip : Obligations.EncryptThenDecryptRoundTrip := by
  unfold Obligations.EncryptThenDecryptRoundTrip
  intro cfg hlaw s p m salt nonce after key ha hdraws hk he hp hs
  have hr : EncryptOutcome cfg p m s.rng after (.ok (containerOf salt nonce (cfg.sealFn key nonce m).1)) :=
    .inl ⟨salt, nonce, hdraws, (refEncrypt_of_deriveKey nonce m hk).symm⟩
  have hencrypt := runSteps_encrypt_collect he hp ha hr hs
  rw [runSteps_trans (n := 7) (k := 8) hencrypt, runSteps_decrypt_collect (by exact he) (by exact hp) (ha.container salt nonce key) (by rfl),
    refDecrypt_containerOf hlaw nonce m hk, List.append_assoc]
  rfl

end Sys2Proof.Machine
end

section
/-! PROOFS. The default `KDF_ALG` (43_kdf_reference_pbkdf2.md): the padding of SHA-256 (R175), the keys that HMAC does not tell apart (R178, R185), the
iterates of the block function (R179), and the derived key as the first bytes of the blocks (R180). -/

namespace Sys2Proof.Machine

variable {p q : ByteString} {c : Nat}

/-! ## The padding -/

/-- The padded message is a whole number of blocks (R175). -/
theorem shaPad_length_mod (m : ByteString) : (shaPad m).length % 64 = 0 := by
  have hlen : (be64 (8 * m.length)).1.length = 8 := (be64 _).2
  simp only [shaPad, List.length_append, List.length_cons, List.length_nil, List.length_replicate, hlen]
  omega

/-- Settles O59: the model's `k` is below 64 and makes whole blocks, and no two numbers below 64 do. -/
theorem shaPaddingIsTheShortest : Obligations.ShaPaddingIsTheShortest := by
  unfold Obligations.ShaPaddingIsTheShortest
  intro m
  refine ⟨(119 - m.length % 64) % 64, ?whole, ?fewest, ?closed, rfl, shaPad_length_mod m⟩
  case whole => omega
  case fewest => omega
  case closed => omega

/-! ## The keys of HMAC -/

/-- A key of at most one block is not hashed (R178). -/
theorem hmacKey0_of_le (h : p.length ≤ 64) : hmacKey0 p = p := if_neg (Nat.not_lt.mpr h)

/-- A key longer than the block is hashed (R178). -/
theorem hmacKey0_of_lt (h : 64 < p.length) : hmacKey0 p = (sha256 p).1 := if_pos h

/-- The hash of a key is itself a key of at most one block. -/
theorem hmacKey0_sha256 (p : ByteString) : hmacKey0 (sha256 p).1 = (sha256 p).1 :=
  hmacKey0_of_le (by rw [(sha256 p).2]; decide)

/-- `kb` depends on `k0` alone. -/
theorem hmacKb_congr (h : ∀ j, (hmacKey0 p).getD j 0 = (hmacKey0 q).getD j 0) : hmacKb p = hmacKb q := by
  rw [hmacKb, hmacKb, funext h]

/-- A zero byte appended to a key that leaves room for it is what the padding to one block puts there. -/
theorem hmacKb_append_zero (h : p.length < 64) : hmacKb (p ++ [0x00#8]) = hmacKb p := by
  refine hmacKb_congr fun j => ?_
  have hlen : (p ++ [0x00#8]).length ≤ 64 := by simpa using h
  rw [hmacKey0_of_le hlen, hmacKey0_of_le h.le]
  rcases lt_or_ge j p.length with hj | hj
  · exact List.getD_append _ _ _ _ hj
  · rw [List.getD_append_right _ _ _ _ hj, List.getD_eq_default _ _ hj]
    cases j - p.length <;> rfl

theorem hmacKb_sha256 (h : 64 < p.length) : hmacKb (sha256 p).1 = hmacKb p :=
  hmacKb_congr fun j => by rw [hmacKey0_sha256, hmacKey0_of_lt h]

/-- The block function reads the password through the two pads, which are made from `kb` (R178, R184). -/
theorem pbkdf2F_congr (s : ByteString) (c i : Nat) (h : hmacKb p = hmacKb q) : pbkdf2F p s c i = pbkdf2F q s c i := by
  simp only [pbkdf2F, pbkdf2Run, hmacIpad, hmacOpad, h]

/-- Settles O58: the two passphrases of each kind have one `kb`. -/
theorem keyCollisionsOfTheDefaultKdf : Obligations.KeyCollisionsOfTheDefaultKdf := by
  unfold Obligations.KeyCollisionsOfTheDefaultKdf
  intro p s
  exact ⟨fun h => pbkdf2F_congr _ _ _ (hmacKb_append_zero h), fun h => pbkdf2F_congr _ _ _ (hmacKb_sha256 h).symm⟩

/-! ## The block function -/

/-- One more iteration is one more HMAC after the others, though the loop runs it before them. -/
theorem pbkdf2Loop_succ (ipad opad : Bytes 64) (n : Nat) (u t : Bytes 32) :
    pbkdf2Loop ipad opad (n + 1) u t =
      (hmacWith ipad opad (pbkdf2Loop ipad opad n u t).1.1,
        (pbkdf2Loop ipad opad n u t).2.xor (hmacWith ipad opad (pbkdf2Loop ipad opad n u t).1.1)) := by
  induction n generalizing u t with
  | zero => rfl
  | succ n ih =>
    rw [pbkdf2Loop, ih]
    rfl

theorem pbkdf2Run_one (p s : ByteString) (i : Nat) :
    pbkdf2Run p s 1 i = (hmac p (s ++ (be32 i).1), hmac p (s ++ (be32 i).1)) := rfl

theorem pbkdf2Run_succ (p s : ByteString) (i : Nat) (hc : 1 ≤ c) :
    pbkdf2Run p s (c + 1) i = (hmac p (pbkdf2Run p s c i).1.1, (pbkdf2Run p s c i).2.xor (hmac p (pbkdf2Run p s c i).1.1)) := by
  obtain ⟨n, rfl⟩ := Nat.exists_eq_add_of_le' hc
  exact pbkdf2Loop_succ _ _ n _ _

/-- `U_j` (R179): the running value that `j` iterations leave. -/
def pbkdf2U (p s : ByteString) (i j : Nat) : Bytes 32 := (pbkdf2Run p s j i).1

theorem pbkdf2U_one (p s : ByteString) (i : Nat) : pbkdf2U p s i 1 = hmac p (s ++ (be32 i).1) := by
  rw [pbkdf2U, pbkdf2Run_one]

theorem pbkdf2U_succ (p s : ByteString) (i : Nat) {j : Nat} (hj : 1 ≤ j) : pbkdf2U p s i (j + 1) = hmac p (pbkdf2U p s i j).1 := by
  rw [pbkdf2U, pbkdf2Run_succ p s i hj, pbkdf2U]

theorem pbkdf2F_one (p s : ByteString) (i : Nat) : pbkdf2F p s 1 i = pbkdf2U p s i 1 := by
  rw [pbkdf2F, pbkdf2U, pbkdf2Run_one]

theorem pbkdf2F_succ (p s : ByteString) (i : Nat) (hc : 1 ≤ c) : pbkdf2F p s (c + 1) i = (pbkdf2F p s c i).xor (pbkdf2U p s i (c + 1)) := by
  rw [pbkdf2F, pbkdf2U_succ p s i hc, pbkdf2Run_succ p s i hc, pbkdf2F, pbkdf2U]

/-- Settles O56: the sequence is the loop's own running value, and the accumulator takes each of its values in turn. -/
theorem blockFunctionXorsTheIterates : Obligations.BlockFunctionXorsTheIterates := by
  unfold Obligations.BlockFunctionXorsTheIterates
  intro p s i
  exact ⟨pbkdf2U p s i, pbkdf2U_one p s i, fun _ hj => pbkdf2U_succ p s i hj, pbkdf2F_one p s i, fun _ hc => pbkdf2F_succ p s i hc⟩

/-! ## The derived key -/

/-- The blocks are joined in the order of their indices (R180). -/
theorem pbkdf2Blocks_eq_flatMap (p s : ByteString) (c n i : Nat) :
    pbkdf2Blocks p s c n i = (List.range n).flatMap fun j => (pbkdf2F p s c (j + i)).1 := by
  induction n generalizing i with
  | zero => rfl
  | succ n ih =>
    rw [pbkdf2Blocks, ih, List.range_succ_eq_map, List.flatMap_cons, List.flatMap_map, Nat.zero_add]
    simp only [Nat.succ_add_eq_add_succ]

/-- 32 bytes are the first block whole (R180). -/
theorem pbkdf2_one_block (p s : ByteString) (c : Nat) : pbkdf2 p s c 32 = (pbkdf2F p s c 1).1 := by
  have hblocks : pbkdf2Blocks p s c ((32 + 31) / 32) 1 = (pbkdf2F p s c 1).1 := List.append_nil _
  rw [pbkdf2, hblocks, List.take_of_length_le (pbkdf2F p s c 1).2.le]

/-- Settles O57: the model's recursion over the blocks joins them as the index runs, and 32 bytes need one of them. -/
theorem derivedKeyIsTheFirstBytesOfTheBlocks : Obligations.DerivedKeyIsTheFirstBytesOfTheBlocks := by
  unfold Obligations.DerivedKeyIsTheFirstBytesOfTheBlocks
  intro p s c
  refine ⟨fun dkLen _ => ?_, pbkdf2_one_block p s c, by decide⟩
  rw [pbkdf2, pbkdf2Blocks_eq_flatMap]

end Sys2Proof.Machine
end

section
/-! PROOFS. The default `AEAD_ALG` (44_aead_reference_aes_gcm.md): counter mode (R222), the product of blocks (R220), the S-box (R212), and what a change of
the tag or of one block of the ciphertext does to `Open` (R230). -/

namespace Sys2Proof.Machine

/-! ## Counter mode -/

/-- Settles O52: each piece meets the same key stream twice. -/
theorem counterModeIsAnInvolution : Obligations.CounterModeIsAnInvolution := gctr_gctr

/-! ## The product of blocks -/

/-- Settles O54: `80 00 … 00` is an identity on the right, and so on the left, as the product is commutative. -/
theorem blockProductIdentityAndDistributivity : Obligations.BlockProductIdentityAndDistributivity := by
  unfold Obligations.BlockProductIdentityAndDistributivity
  intro x y z
  have hone : gf128Mul blockOne y = y := (gf128Mul_comm blockOne y).trans (gf128Mul_one y)
  exact ⟨hone, gf128Add_mul x z y, gf128Mul_add y x z⟩

/-! ## The S-box -/

/-- `f b`, with `b` evaluated before `f` is entered, so that the kernel does not evaluate it again at each place where `f` reads it. -/
def byteThen {α : Type} (b : Byte) (f : Byte → α) : α := evalThen b.toNat fun n => f (BitVec.ofNat 8 n)

theorem byteThen_eq {α : Type} (b : Byte) (f : Byte → α) : byteThen b f = f b := by
  rw [byteThen, evalThen_eq, BitVec.ofNat_toNat, BitVec.setWidth_eq]

/-- A relation between every byte and its value under `f`, from 256 checks that evaluate the value once each. -/
theorem byte_rel_of_checks {R : Byte → Byte → Prop} [∀ a b, Decidable (R a b)] (f : Byte → Byte)
    (h : ∀ n < 256, byteThen (f (BitVec.ofNat 8 n)) (fun b => decide (R (BitVec.ofNat 8 n) b)) = true) (a : Byte) : R a (f a) := by
  have ha := h a.toNat a.isLt
  rw [byteThen_eq, BitVec.ofNat_toNat, BitVec.setWidth_eq] at ha
  exact of_decide_eq_true ha

/-- Bit `i` of the S-box entry that the formula makes of the inverse `b` (R212). -/
def sboxBit (b : Byte) (i : Nat) : Bool :=
  b.getLsbD i ^^ b.getLsbD ((i + 4) % 8) ^^ b.getLsbD ((i + 5) % 8) ^^ b.getLsbD ((i + 6) % 8) ^^ b.getLsbD ((i + 7) % 8) ^^ (0x63#8).getLsbD i

/-- The byte of which the formula makes `s`: the affine map of R212 undone. -/
def sboxUnaffine (s : Byte) : Byte := s.rotateLeft 1 ^^^ s.rotateLeft 3 ^^^ s.rotateLeft 6 ^^^ 0x05#8

theorem sboxBit_sboxUnaffine (s : Byte) : ∀ i : Nat, i < 8 → sboxBit (sboxUnaffine s) i = s.getLsbD i :=
  byte_rel_of_checks (R := fun s b => ∀ i : Nat, i < 8 → sboxBit b i = s.getLsbD i) sboxUnaffine (by decide +kernel) s

/-- Of every entry of the table, what the affine map was applied to is the inverse of the entry's index. -/
theorem sboxUnaffine_sbox (a : Byte) : (a = 0x00#8 ∧ sboxUnaffine (sbox a) = 0x00#8) ∨ gf8Mul a (sboxUnaffine (sbox a)) = 0x01#8 :=
  byte_rel_of_checks (R := fun a b => (a = 0x00#8 ∧ b = 0x00#8) ∨ gf8Mul a b = 0x01#8) (fun a => sboxUnaffine (sbox a)) (by decide +kernel) a

/-- Settles O55: the inverse is the entry with the affine map undone. -/
theorem sboxFollowsItsFormula : Obligations.SboxFollowsItsFormula := by
  unfold Obligations.SboxFollowsItsFormula
  intro a
  exact ⟨sboxUnaffine (sbox a), sboxUnaffine_sbox a, fun i hi => (sboxBit_sboxUnaffine (sbox a) i hi).symm⟩

/-! ## A change of one block under GHASH -/

/-- What a change of the block after the first `a` does to GHASH: the difference is multiplied by `H` once for that block and once for each after it. -/
theorem ghash_change {pre u u' rest : ByteString} (h : Block) {a : Nat} (hpre : pre.length = 16 * a) (hu : u.length = 16) (hu' : u'.length = 16) :
    ghash h (pre ++ (u' ++ rest)) =
      ghash h (pre ++ (u ++ rest)) ^^^ (fun y => gf128Mul y h)^[rest.length / 16 + 1] (blockOf u ^^^ blockOf u') := by
  have hsplit : ∀ v : ByteString, v.length = 16 → ghash h (pre ++ (v ++ rest)) =
      ghashFrom h (rest.length / 16) rest (gf128Mul (ghashFrom h a pre 0 ^^^ blockOf v) h) := fun v hv => by
    have hblocks : (pre ++ (v ++ rest)).length / 16 = a + (rest.length / 16 + 1) := by
      simp only [List.length_append, hpre, hv]
      omega
    rw [ghash, hblocks, ghashFrom_add, ghashFrom_append h a pre _ _ hpre, ← hpre, List.drop_left, ghashFrom, List.take_left' hv, List.drop_left' hv]
  have hdiff : ghashFrom h a pre 0 ^^^ blockOf u' = ghashFrom h a pre 0 ^^^ blockOf u ^^^ (blockOf u ^^^ blockOf u') := by
    rw [BitVec.xor_assoc, ← BitVec.xor_assoc (blockOf u), BitVec.xor_self, BitVec.zero_xor]
  rw [hsplit u hu, hsplit u' hu', hdiff, gf128Add_mul, ghashFrom_xor, Function.iterate_succ_apply]

/-- A change of a string within one block, whose other bytes stay: the difference of the block is not zero. -/
theorem ghash_change_within_block {pre x x' rest : ByteString} (h : Block) (hpre : pre.length % 16 = 0) (hx : x.length ≤ 16)
    (hfull : 16 ≤ x.length + rest.length) (hlen : x'.length = x.length) (hne : x' ≠ x) :
    ∃ d : Block, d ≠ 0 ∧
      ghash h (pre ++ (x' ++ rest)) = ghash h (pre ++ (x ++ rest)) ^^^ (fun y => gf128Mul y h)^[(x.length + rest.length) / 16] d := by
  obtain ⟨a, ha⟩ : ∃ a, pre.length = 16 * a := Nat.dvd_of_mod_eq_zero hpre
  obtain ⟨fill, after, rfl, hfill⟩ : ∃ fill after, rest = fill ++ after ∧ x.length + fill.length = 16 :=
    ⟨rest.take (16 - x.length), rest.drop (16 - x.length), (List.take_append_drop _ _).symm, by rw [List.length_take]; omega⟩
  have hu : (x ++ fill).length = 16 := List.length_append.trans hfill
  have hu' : (x' ++ fill).length = 16 := by rw [List.length_append, hlen, hfill]
  have hk : (x.length + (fill ++ after).length) / 16 = after.length / 16 + 1 := by
    rw [List.length_append]
    omega
  refine ⟨blockOf (x ++ fill) ^^^ blockOf (x' ++ fill), fun h0 => ?_, ?_⟩
  · have hsame := blockOf_inj _ _ (hu.trans hu'.symm) hu.le (BitVec.xor_eq_zero_iff.mp h0)
    exact hne (List.append_cancel_right hsame).symm
  · rw [hk, ← List.append_assoc x, ← List.append_assoc x', ghash_change h ha hu hu']

/-- Under the subkey zero every GHASH is zero. -/
theorem ghashFrom_subkey_zero (n : Nat) (x : ByteString) : ghashFrom 0 n x 0 = 0 := by
  induction n generalizing x with
  | zero => rfl
  | succ n ih => rw [ghashFrom, gf128Mul_zero, ih]

/-- Multiplying a block other than 0 by `H`, at least once, gives 0 exactly when `H` is 0. -/
theorem iterate_mul_ne_zero_iff {h d : Block} (hd : d ≠ 0) {k : Nat} (hk : 1 ≤ k) : (fun y => gf128Mul y h)^[k] d ≠ 0 ↔ h ≠ 0 := by
  refine ⟨?_, fun hh => iterate_mul_ne_zero h d hh hd k⟩
  rintro hne rfl
  obtain ⟨j, rfl⟩ := Nat.exists_eq_add_of_le' hk
  exact hne (by rw [Function.iterate_succ_apply', gf128Mul_zero])

/-! ## The hash of the ciphertext and the tag -/

/-- What GHASH reads after the ciphertext: the zeros of the padding and the two lengths (R223). -/
def gcmTail (len : Nat) : ByteString := List.replicate ((16 - len % 16) % 16) 0 ++ (be64 (8 * aad.length)).1 ++ (be64 (8 * len)).1

theorem gcmS_eq (w : List Word32) (ct : ByteString) : gcmS w ct = ghash (gcmH w) (ct ++ gcmTail ct.length) := by
  rw [gcmS, gcmPad, gcmTail, List.append_assoc, List.append_assoc, List.append_assoc]

/-- The ciphertext and what follows it are whole blocks, one more than the ciphertext needs. -/
theorem gcmTail_length (len : Nat) : (gcmTail len).length = (16 - len % 16) % 16 + 16 := by
  rw [gcmTail, List.length_append, List.length_append, List.length_replicate, (be64 _).2, (be64 _).2]

/-- A change `x` to `x'` within one block of the ciphertext changes `S`: `H` meets the difference once for the block and once for the two lengths
at least (R230 (b)). -/
theorem gcmS_change (w : List Word32) {pre x x' : ByteString} (post : ByteString) (hpre : pre.length % 16 = 0) (hx : x.length ≤ 16)
    (hlen : x'.length = x.length) (hne : x' ≠ x) :
    ∃ (d : Block) (k : Nat), d ≠ 0 ∧ 2 ≤ k ∧
      gcmS w (pre ++ x' ++ post) = gcmS w (pre ++ x ++ post) ^^^ (fun y => gf128Mul y (gcmH w))^[k] d := by
  have hpos : x.length ≠ 0 := fun h0 => hne (by rw [List.length_eq_zero_iff.mp h0, List.length_eq_zero_iff.mp (hlen.trans h0)])
  have hS : ∀ v : ByteString, v.length = x.length → gcmS w (pre ++ v ++ post) =
      ghash (gcmH w) (pre ++ (v ++ (post ++ gcmTail (pre.length + x.length + post.length)))) := fun v hv => by
    rw [gcmS_eq, List.length_append, List.length_append, hv, List.append_assoc, List.append_assoc]
  have htwo : 32 ≤ x.length + (post ++ gcmTail (pre.length + x.length + post.length)).length := by
    rw [List.length_append, gcmTail_length]
    omega
  obtain ⟨d, hd, hchange⟩ := ghash_change_within_block (gcmH w) hpre hx (Nat.le_trans (by decide) htwo) hlen hne
  refine ⟨d, _, hd, ?_, by rw [hS x' hlen, hS x rfl, hchange]⟩
  omega

/-- Under the subkey zero the hash of every ciphertext is zero (R230 (c)). -/
theorem gcmS_of_subkey_zero {w : List Word32} (hw : gcmH w = 0) (ct : ByteString) : gcmS w ct = 0 := by
  rw [gcmS_eq, ghash, hw, ghashFrom_subkey_zero]

/-- Under one key and nonce two ciphertexts have the same tag exactly when they have the same hash (R223). -/
theorem gcmTag_eq_iff (key : Bytes 32) (nonce : Bytes 12) (ct ct' : ByteString) :
    gcmTag key nonce ct = gcmTag key nonce ct' ↔ gcmS (keySchedule key) ct = gcmS (keySchedule key) ct' :=
  Iff.trans ⟨blockBytes_inj _ _, congrArg blockBytes⟩ (BitVec.xor_right_inj _)

/-- The tag is `E_K(J0)` exactly when the hash is zero (R223). -/
theorem gcmTag_eq_ekj0_iff (key : Bytes 32) (nonce : Bytes 12) (ct : ByteString) :
    gcmTag key nonce ct = blockBytes (aesWith (keySchedule key) (gcmJ0 nonce)) ↔ gcmS (keySchedule key) ct = 0 :=
  Iff.trans ⟨blockBytes_inj _ _, congrArg blockBytes⟩ xor_left_eq_self_iff

/-- The default `Open` of a ciphertext and a tag fails exactly on another tag than the recomputed one (R225). -/
theorem gcmOpen_eq_none_iff (key : Bytes 32) (nonce : Bytes 12) (ct : ByteString) (t : Bytes 16) :
    gcmOpen key nonce (ct ++ t.1) = none ↔ gcmTag key nonce ct ≠ t := by
  rw [← Option.not_isSome_iff_eq_none, gcmOpen_isSome]

/-- Settles O53, clause by clause: the tag is told apart by the hash, and the hash by the difference that GHASH carries on. -/
theorem exactTamperingLaws : Obligations.ExactTamperingLaws := by
  unfold Obligations.ExactTamperingLaws
  refine ⟨?otherTag, ?hashChange, ?blockChange, ?subkeyZero, ?acceptance⟩
  case otherTag =>
    intro key nonce ct t ht
    exact (gcmOpen_eq_none_iff key nonce ct t).mpr ht.symm
  case hashChange =>
    intro w pre x x' post hpre hx hlen hne
    obtain ⟨d, k, hd, hk, hS⟩ := gcmS_change w post hpre hx hlen hne
    exact ⟨d, k, hd, hk, hS, iterate_mul_ne_zero_iff hd (by omega)⟩
  case blockChange =>
    intro key nonce pre x x' post hpre hx hlen hne hH
    obtain ⟨d, k, hd, -, hS⟩ := gcmS_change (keySchedule key) post hpre hx hlen hne
    refine (gcmOpen_eq_none_iff key nonce _ _).mpr fun htag => iterate_mul_ne_zero (gcmH (keySchedule key)) d hH hd k ?_
    exact xor_left_eq_self_iff.mp (hS.symm.trans ((gcmTag_eq_iff key nonce _ _).mp htag))
  case subkeyZero =>
    intro w nonce ct hw
    have hS := gcmS_of_subkey_zero hw ct
    exact ⟨hS, by rw [gcmTagBlock, hS, xor_zero]⟩
  case acceptance =>
    intro key nonce ct
    exact (gcmOpen_isSome key nonce ct _).trans (gcmTag_eq_ekj0_iff key nonce ct)

end Sys2Proof.Machine
end

section
/-! PROOFS. How a command ends and how its response leaves the engine (60_exceptions.md): `raise` (R265), the kinds of failure of each phase (R263) and
that nothing else of a failure shows (R262), the collect and the discard (R268, R274), and that every busy engine comes to its end (R274). -/

namespace Sys2Proof.Machine

variable {cfg : Config} {i : Instr} {s t : State}

/-! ## The kinds of failure -/

/-- Settles O31: what `raise` leaves of the engine is `STATUS` and `OUT_LEN`. -/
theorem raiseEndsTheCommand : Obligations.RaiseEndsTheCommand := by
  unfold Obligations.RaiseEndsTheCommand
  intro k s
  refine ⟨none, ?_⟩
  rw [raise, Engine.raised_eq]
  cases k <;> rfl

/-- The kinds of failure with which a command can end in a phase (R263). -/
def failuresOf : Phase → List ErrorKind
  | .e1 => [.randomSourceUnavailable]
  | .e2 => [.emptyPassphrase]
  | .d1 => [.tooShort]
  | .d3 => [.emptyPassphrase]
  | .d4 => [.decryptionFailed]
  | .idle | .e3 | .e4 | .d2 | .d5 | .done => []

/-- The outcome of a command that ends in phase `ph`: a success, or a failure of a kind that belongs to the phase. -/
def OutcomeIn (ph : Phase) : Except ErrorKind ByteString → Prop
  | .ok _ => True
  | .error k => k ∈ failuresOf ph

/-- The salt register holds 16 bytes, so DERIVE of a command fails for its passphrase only (R101, R106). -/
theorem deriveKey_error {p : ByteString} {salt : Bytes 16} {k : ErrorKind} (h : deriveKey cfg p salt.1 = .error k) : k = .emptyPassphrase := by
  rw [deriveKey, dif_pos salt.2] at h
  split at h
  · cases h; rfl
  · cases h

theorem drawStep_outcome (hph : s.engine.phase = .e1) (h : drawStep s = .next t) (hdone : t.engine.phase = .done) :
    ∃ r, t.engine = responseEngine r ∧ OutcomeIn .e1 r := by
  obtain rfl | ⟨_, rfl, -⟩ | ⟨_, _, _, _, -, -, rfl⟩ := drawStep_next h
  · rw [hph] at hdone; cases hdone
  · exact ⟨.error .randomSourceUnavailable, rfl, List.mem_singleton.mpr rfl⟩
  · cases hdone

theorem deriveOp_outcome {ph ph' : Phase} (hgoes : ph' ≠ .done) (hph : .emptyPassphrase ∈ failuresOf ph) (h : deriveOp cfg ph' s = .next t)
    (hdone : t.engine.phase = .done) : ∃ r, t.engine = responseEngine r ∧ OutcomeIn ph r := by
  obtain ⟨_, _, _, _, -, -, -, -, ⟨k, hk, rfl⟩ | ⟨_, -, rfl⟩⟩ := deriveOp_next h
  · exact ⟨.error k, rfl, deriveKey_error hk ▸ hph⟩
  · exact absurd hdone hgoes

/-- A phase that ends its command ends it with a success or with a failure of its own. -/
theorem phaseStep_outcome (h : phaseStep cfg s = .next t) (hdone : t.engine.phase = .done) :
    ∃ r, t.engine = responseEngine r ∧ OutcomeIn s.engine.phase r := by
  unfold phaseStep at h
  generalize hph : s.engine.phase = ph at h
  cases ph with
  | idle => cases h
  | e1 => exact drawStep_outcome hph h hdone
  | e2 => exact deriveOp_outcome (by decide) (by decide) h hdone
  | e3 =>
    obtain ⟨_, _, _, _, _, -, -, -, -, -, rfl⟩ := sealOperation_next h
    cases hdone
  | e4 =>
    obtain ⟨_, _, _, _, -, -, -, -, -, rfl⟩ := emitStep_next h
    exact ⟨.ok _, rfl, trivial⟩
  | d1 =>
    obtain ⟨_, -, ⟨-, rfl⟩ | ⟨-, rfl⟩⟩ := lengthStep_next h
    · exact ⟨.error .tooShort, rfl, List.mem_singleton.mpr rfl⟩
    · cases hdone
  | d2 =>
    obtain ⟨_, _, _, _, _, -, -, -, -, -, rfl⟩ := sliceStep_next h
    cases hdone
  | d3 => exact deriveOp_outcome (by decide) (by decide) h hdone
  | d4 =>
    obtain ⟨_, _, _, _, _, -, -, -, -, -, -, ⟨-, rfl⟩ | ⟨_, -, rfl⟩⟩ := openOperation_next h
    · exact ⟨.error .decryptionFailed, rfl, List.mem_singleton.mpr rfl⟩
    · cases hdone
  | d5 =>
    obtain ⟨_, _, -, -, -, rfl⟩ := releaseStep_next h
    exact ⟨.ok _, rfl, trivial⟩
  | done => cases h

/-- An operation that ends a command makes the step of its phase: issue only begins one. -/
theorem execWith_outcome (h : execWith cfg i s = .next t) (hdone : t.engine.phase = .done) :
    ∃ r, t.engine = responseEngine r ∧ OutcomeIn s.engine.phase r := by
  obtain ⟨c, -, hi, h⟩ | ⟨-, h⟩ := execWith_next h
  · obtain ⟨-, -, -, rfl⟩ := issue_next h
    have hfirst : firstPhase i = .done := hdone
    cases i <;> cases hfirst
  · exact phaseStep_outcome h hdone

/-- The status that an outcome gives is `OK` or the code of a failure of the phase. -/
theorem OutcomeIn.status_mem {ph : Phase} {r : Except ErrorKind ByteString} {l : List (Option Byte)} (h : OutcomeIn ph r)
    (hok : some 0x00#8 ∈ l) (hfail : ∀ k ∈ failuresOf ph, some k.code ∈ l) : (responseEngine r).status ∈ l := by
  cases r with
  | ok b => exact hok
  | error k => exact hfail k h

/-- Settles O29: a command ends with a failure of the phase it is in, and no phase fails with `InvalidSalt`. -/
theorem statusOfEachCommand : Obligations.StatusOfEachCommand := by
  unfold Obligations.StatusOfEachCommand
  intro i s t h hdone
  rw [exec_eq_execWith] at h
  obtain ⟨r, hr, hout⟩ := execWith_outcome h hdone
  rw [hr]
  have hencrypt : ∀ ph ∈ [Phase.e1, .e2, .e3, .e4], ∀ k ∈ failuresOf ph, some k.code ∈ [some 0x00#8, some 0x04#8, some 0x05#8] := by decide
  have hdecrypt : ∀ ph ∈ [Phase.d1, .d2, .d3, .d4, .d5], ∀ k ∈ failuresOf ph,
      some k.code ∈ [some 0x00#8, some 0x01#8, some 0x02#8, some 0x04#8] := by decide
  exact ⟨fun hph => hout.status_mem (by decide) (hencrypt _ hph), fun hph => hout.status_mem (by decide) (hdecrypt _ hph)⟩

/-! ## What a failure shows -/

/-- Each kind has a code of its own, and none is the code of success (R86). -/
theorem ErrorKind.code_injective : Function.Injective ErrorKind.code := by
  intro k k'
  cases k <;> cases k' <;> decide

theorem responseEngine_eq_of_status {r r' : Except ErrorKind ByteString} (h : (responseEngine r).status = (responseEngine r').status)
    (hfails : (responseEngine r).status ≠ some 0x00#8) : responseEngine r = responseEngine r' := by
  cases r with
  | ok b => exact absurd rfl hfails
  | error k =>
    cases r' with
    | ok b => exact absurd h hfails
    | error k' => rw [ErrorKind.code_injective (Option.some.inj h)]

/-- Settles O30: both engines hold a response and nothing else, and a response that is no success is known by its status. -/
theorem failureCarriesOnlyItsKind : Obligations.FailureCarriesOnlyItsKind := by
  unfold Obligations.FailureCarriesOnlyItsKind
  intro i j s s' t t' h h' hdone hdone' hstatus hfails
  obtain ⟨⟨r, hr⟩, -⟩ := lastStepLeavesOnlyTheResponse i s t h hdone
  obtain ⟨⟨r', hr'⟩, -⟩ := lastStepLeavesOnlyTheResponse j s' t' h' hdone'
  rw [hr, hr'] at hstatus
  rw [hr] at hfails
  rw [hr, hr']
  exact responseEngine_eq_of_status hstatus hfails

/-! ## The way back -/

/-- Settles O32: the step is the host's collect, which finds all of the response. -/
theorem collectReturnsTheResponse : Obligations.CollectReturnsTheResponse := by
  unfold Obligations.CollectReturnsTheResponse
  intro s r acts hp hs he
  rw [stepIsTheDefaultMachine s]
  exact stepWith_collect hp hs he

theorem discard_response {r : Except ErrorKind ByteString} (he : s.engine = responseEngine r) :
    discard s = .next { s with engine := Engine.reset } := by
  rw [discard, he, if_pos (responseEngine_phase r), responseEngine_collected]

/-- Settles O33: the step is the host's discard. -/
theorem discardFreesTheEngine : Obligations.DiscardFreesTheEngine := by
  unfold Obligations.DiscardFreesTheEngine
  intro s r acts hp hs he
  rw [stepIsTheDefaultMachine s, stepWith_host hp hs]
  exact discard_response he

/-! ## A finished command waits -/

/-- No row of R31 leads away from `DONE`, so no operation has a step there. -/
theorem execWith_ne_next_of_done (hdone : s.engine.phase = .done) : execWith cfg i s ≠ .next t := by
  intro h
  cases execWith_takesRow h with
  | issued hrow => simp [hdone, issueRows] at hrow
  | advanced hrow => simp [hdone, advanceRows] at hrow
  | ended hrow _ => simp [hdone, endRows] at hrow
  | waited hph _ => rw [hdone] at hph; cases hph

theorem engineStep_of_done (hdone : s.engine.phase = .done) (h : engineStep (execWith cfg) s = .next t) : t = s := by
  obtain ⟨i, _, -, h⟩ | ⟨-, rfl⟩ := engineStep_next h
  · exact absurd h (execWith_ne_next_of_done hdone)
  · rfl

/-- The engine whose turn it was in `s` stands unchanged in `t`: it still has the turn, or the next one has it and it is the last of the others. -/
def StandsUnchanged (s t : State) : Prop :=
  t.engine = s.engine ∨ ∃ e es, s.others = e :: es ∧ t.engine = e ∧ t.others = es ++ [s.engine]

theorem passTurn_standsUnchanged (s : State) : StandsUnchanged s (passTurn s) := by
  cases ho : s.others with
  | nil => exact .inl (by rw [passTurn_single ho])
  | cons e es => exact .inr ⟨e, es, ho, by rw [passTurn_cons ho], by rw [passTurn_cons ho]⟩

/-- Of the acts of the host only three can change an engine at `DONE`. -/
theorem hostStep_of_done {a : HostAction} (hdone : s.engine.phase = .done) (h : hostStep (execWith cfg) a s = .next t) :
    StandsUnchanged s t ∨ a ∈ [HostAction.collect, .discard, .reset] := by
  cases a with
  | present c => cases h; exact .inl (.inl rfl)
  | run => exact .inl (.inl (by rw [engineStep_of_done hdone h]))
  | collect => exact .inr (by simp)
  | discard => exact .inr (by simp)
  | reset => exact .inr (by simp)
  | bindRng src => cases h; exact .inl (.inl rfl)
  | turn => cases h; exact .inl (passTurn_standsUnchanged s)

theorem stepWith_of_done (hdone : s.engine.phase = .done) (h : stepWith cfg s = .next t) :
    StandsUnchanged s t ∨ ∃ a acts, s.script = a :: acts ∧ a ∈ [HostAction.collect, .discard, .reset] := by
  obtain ⟨-, hrun⟩ | ⟨-, -, u, hrun, rfl⟩ | ⟨-, a, acts, hs, hact⟩ := stepBy_next h
  · exact .inl (.inl (by rw [engineStep_of_done hdone hrun]))
  · rw [engineStep_of_done hdone hrun]
    exact .inl (passTurn_standsUnchanged s)
  · exact (hostStep_of_done (s := { s with script := acts }) hdone hact).imp id fun ha => ⟨a, acts, hs, ha⟩

/-- Settles O34: the engine has no operation to run, and the host's other acts leave it alone or pass the turn. -/
theorem doneWaitsForTheHost : Obligations.DoneWaitsForTheHost := by
  unfold Obligations.DoneWaitsForTheHost
  intro s t hdone h
  rw [stepIsTheDefaultMachine s] at h
  exact or_assoc.mp (stepWith_of_done hdone h)

/-! ## Every busy engine reaches `DONE` -/

theorem Phase.stepsLeft_le (ph : Phase) : ph.stepsLeft ≤ 5 := by cases ph <;> decide

theorem Phase.eq_done_of_stepsLeft {ph : Phase} (hidle : ph ≠ .idle) (h : ph.stepsLeft = 0) : ph = .done := by
  cases ph with
  | idle => exact absurd rfl hidle
  | done => rfl
  | _ => cases h

/-- An engine that is not busy stays as it is, however many turns it has. -/
theorem EngineTurns.eq_of_waits {k : Nat} {e e' : Engine} (h : EngineTurns cfg k e e') (hi : EngineInv cfg e) (hwaits : e.busyFlag = false) :
    e' = e := by
  induction h with
  | none e => rfl
  | next hturn _ ih =>
    obtain ⟨-, hadv⟩ := hturn.keeps hi
    obtain rfl := hadv.waits hwaits
    exact ih hi hwaits

/-- With as many turns as its command has steps left, an engine that is not idle ends at `DONE`: each turn brings it nearer, or it is there. -/
theorem EngineTurns.phase_eq_done {k : Nat} {e e' : Engine} (h : EngineTurns cfg k e e') (hi : EngineInv cfg e) (hidle : e.phase ≠ .idle)
    (hk : e.phase.stepsLeft ≤ k) : e'.phase = .done := by
  induction h with
  | none e => exact Phase.eq_done_of_stepsLeft hidle (Nat.le_zero.mp hk)
  | @next k e₀ e₁ _ hturn hturns ih =>
    obtain ⟨hi₁, hadv⟩ := hturn.keeps hi
    cases hbusy : e₀.busyFlag with
    | true =>
      obtain ⟨hidle₁, hnearer⟩ := hadv.nearer hbusy
      exact ih hi₁ hidle₁ (by omega)
    | false =>
      have hdone : e₀.phase = .done := by simpa [Engine.busyFlag, hidle] using hbusy
      obtain rfl := hadv.waits hbusy
      exact ih hi₁ hidle (by rw [hdone]; exact Nat.zero_le k)

/-- Five turns are enough for every command. -/
theorem EngineTurns.five {e e' : Engine} (h : EngineTurns cfg 5 e e') (hi : EngineInv cfg e) :
    if e.busyFlag = true then e'.phase = .done else e' = e := by
  split
  · next hbusy =>
    obtain ⟨hidle, -⟩ := e.busyFlag_iff.mp hbusy
    exact h.phase_eq_done hi hidle e.phase.stepsLeft_le
  · next hwaits => exact h.eq_of_waits hi (Bool.not_eq_true _ ▸ hwaits)

/-- Five turns of every engine, all of them in the invariant and with a source that answers what they can still ask. -/
theorem runSteps_five_rounds (hr : TurnsReady cfg s) :
    ∃ t, runSteps (stepWith cfg) (5 * (s.others.length + 1)) s = .next t ∧
      List.Forall₂ (fun e e' : Engine => if e.busyFlag = true then e'.phase = .done else e' = e) (s.engine :: s.others) (t.engine :: t.others) := by
  obtain ⟨t, ht, -, hturns⟩ := runSteps_rounds 5 hr
  exact ⟨t, ht, ((List.forall₂_and_left ..).mpr ⟨hr.inv, hturns⟩).imp fun _ _ ⟨hi, h⟩ => h.five hi⟩

/-- A source that answers an ENCRYPT decides what it ends with. -/
theorem RngSource.Answers.encryptOutcome {src : RngSource} (h : src.Answers) (cfg : Config) (p m : ByteString) :
    ∃ after r, EncryptOutcome cfg p m src after r := by
  obtain ⟨salt, nonce, after, hd⟩ | ⟨after, hd⟩ := h
  · exact ⟨after, _, .inl ⟨salt, nonce, hd, rfl⟩⟩
  · exact ⟨after, _, .inr ⟨hd, rfl⟩⟩

/-- The only engine of a block, at `E1`: the source answers the two lengths it asks for, and nothing is asked afterwards. -/
theorem runSteps_alone_of_e1 (hi : EngineInv cfg s.engine) (hph : s.engine.phase = .e1) (hp : s.port = none) (hs : s.script = [])
    (ho : s.others = []) (ha : s.rng.Answers) : ∃ t, runSteps (stepWith cfg) 5 s = .next t ∧ t.engine.phase = .done := by
  obtain ⟨p, m, haccepted, he⟩ := hi.of_e1 hph
  obtain ⟨after, r, hr⟩ := ha.encryptOutcome cfg p m
  obtain ⟨e, d, d', hdraw, hquiet, -, hinv, hleft⟩ := encrypt_steps haccepted hr
  obtain ⟨t, ht, hte⟩ := runSteps_rounds_of_ownStep (hquiet.trans (quietRun_response 1 r)) (he ▸ hdraw) hinv hleft hp hs (by simp [ho])
    (by rw [ho]; trivial)
  rw [ho] at ht
  exact ⟨t, ht, by rw [hte, responseEngine_phase]⟩

/-- The only engine of a block, busy after its draws or in a DECRYPT: it asks the source for nothing. -/
theorem runSteps_alone_of_ne_e1 (hi : EngineInv cfg s.engine) (hph : s.engine.phase ≠ .e1) (hbusy : s.engine.busyFlag = true)
    (hp : s.port = none) (hs : s.script = []) (ho : s.others = []) : ∃ t, runSteps (stepWith cfg) 5 s = .next t ∧ t.engine.phase = .done := by
  have hr : TurnsReady cfg s := {
    port := hp
    script := hs
    inv := by simpa [ho] using hi
    rng := by
      have hnone : drawsLeft (s.engine :: s.others) = 0 := by simp [ho, drawsLeft, drawsLeft_eq_zero hph]
      rw [hnone]
      trivial }
  obtain ⟨t, ht, hends⟩ := runSteps_five_rounds hr
  obtain _ | ⟨hengine, -⟩ := hends
  rw [ho] at ht
  rw [if_pos hbusy] at hengine
  exact ⟨t, ht, hengine⟩

/-- Settles O43: a turn brings a busy engine nearer to `DONE`, from which it is five steps away at most; a block of the defaults has one engine. -/
theorem busyEngineReachesDone : Obligations.BusyEngineReachesDone := by
  unfold Obligations.BusyEngineReachesDone
  constructor
  · intro s hinv hbusy hp hs ha
    have ho : s.others = [] := List.length_eq_zero_iff.mp (Nat.succ.inj hinv.count)
    rw [show step = stepWith defaultConfig from funext stepIsTheDefaultMachine]
    by_cases hph : s.engine.phase = .e1
    · exact runSteps_alone_of_e1 hinv.engine hph hp hs ho ha
    · exact runSteps_alone_of_ne_e1 hinv.engine hph hbusy hp hs ho
  · intro cfg s hinv hp hs ha
    obtain ⟨hengines, -⟩ := State.inv_iff.mp hinv
    exact runSteps_five_rounds ⟨hp, hs, hengines, answersTimes_drawsLeft ha⟩

end Sys2Proof.Machine
end

section
/-! PROOFS. Reset of the block, whatever its engines are doing (70_reset_and_hazards.md R300, R301). -/

namespace Sys2Proof.Machine

variable {cfg : Config} {s : State}

theorem stepWith_reset {acts : List HostAction} (hp : s.port = none) (hs : s.script = .reset :: acts) :
    stepWith cfg s = .next (resetBlock { s with script := acts }) := stepWith_host hp hs

/-- Reset leaves no engine as it was: not the one whose turn it is, nor any behind it. -/
theorem eq_reset_of_mem_resetBlock {e : Engine} (he : e ∈ (resetBlock s).engine :: (resetBlock s).others) : e = Engine.reset := by
  obtain _ | ⟨_, hothers⟩ := he
  · rfl
  · exact List.eq_of_mem_map_const hothers

/-- Settles O35: the step is the host's reset, which writes the engines and keeps what is reported and what is the host's. -/
theorem resetEmptiesEveryInstance : Obligations.ResetEmptiesEveryInstance := by
  unfold Obligations.ResetEmptiesEveryInstance
  intro s acts hp hs
  have hstep : step s = .next (resetBlock { s with script := acts }) := by
    rw [stepIsTheDefaultMachine s, stepWith_reset hp hs]
  have hcount : (resetBlock { s with script := acts }).others.length = s.others.length := by simp
  exact ⟨_, hstep, fun _ => eq_reset_of_mem_resetBlock, hcount, rfl, rfl, rfl, rfl⟩

end Sys2Proof.Machine
end
